-- ==== Sys2Proof/Word.lean ====
section
/-! DEFINITION. The machine's word and byte types and the size qualifier (00_scope.md R10, R18; 30_encoding.md R81). -/

namespace Sys2Proof

/-- A byte: an unsigned integer in [0, 256) (R10). -/
abbrev Byte := BitVec 8

/-- A Word: the machine's 64-bit unsigned unit (R10, R18). -/
abbrev Word := BitVec 64

/-- The size qualifier s, one of 1, 2, 4 and 8 bytes (R81). -/
inductive Size where
  | s1 | s2 | s4 | s8
  deriving DecidableEq, Repr

/-- s, in bytes (R81). -/
def Size.bytes : Size → Nat
  | .s1 => 1
  | .s2 => 2
  | .s4 => 4
  | .s8 => 8

end Sys2Proof
end

