-- ==== Sys2Proof/Config.lean ====
section
/-! DEFINITION. What an implementation fixes: the parameters of 00_scope.md R9, and the one free value of the model, the
text of the diagnostic message (10_state.md R29). -/

namespace Sys2Proof

/-! ### BYTE_ORDER -/

/-- The order in which the bytes of a value lie at rising addresses (R9, R50, D1). -/
inductive ByteOrder where
  | little
  | big
  deriving DecidableEq, Repr

/-- Which byte of an n-byte value, counted from the least significant, lies i places after its lowest address. -/
def ByteOrder.place (o : ByteOrder) (n i : Nat) : Nat :=
  match o with
  | .little => i
  | .big => n - 1 - i

/-! ### DECODE_TABLE -/

/-- The mnemonics of R84's table, in its order. -/
inductive Mnemonic where
  | done | popRes | abort
  | loadConst | load | store
  | loadFrame | storeFrame
  | pop | dup | swap
  | add | sub | mul | div | mod | neg
  | bitAnd | bitOr | bitXor | bitNot | shl | shr
  | cmpEq | cmpNe | cmpLt | cmpLe | cmpGt | cmpGe
  | outNum | outChar | inNum | inChar
  | jmp | jz | jnz
  | call | ret
  deriving DecidableEq, Repr

/-- The three formats (R83). -/
inductive Format where
  | f0
  | fc
  | fw
  deriving DecidableEq, Repr

/-- One row of a decode table: an opcode byte and the mnemonic, the width s and the format R80 takes from it. -/
structure DecodeRow where
  opcode : Byte
  mnemonic : Mnemonic
  /-- s, what the size qualifier in the opcode selects (R81, D3); 1 in the row of a mnemonic without one. -/
  size : Size
  format : Format
  deriving DecidableEq, Repr

/-- Opcode byte to instruction, one row for each opcode byte (R9 DECODE_TABLE, R80). -/
abbrev DecodeTable := List DecodeRow

/-! ### STATE_ORDINAL and CS_UNWRITTEN_READ -/

/-- The numbers of the five run states (R9 STATE_ORDINAL, D8). -/
structure StateOrdinals where
  running : Word
  haltSuccess : Word
  haltFailure : Word
  uninitialized : Word
  unknown : Word
  deriving DecidableEq, Repr

/-- What reading a Call Stack byte never written since construction does (R9 CS_UNWRITTEN_READ, D39, U1). -/
inductive UnwrittenRead where
  /-- The byte reads as the content it has, CS_INIT's. -/
  | content
  /-- The read is a fault: the conservative reading. -/
  | fault
  deriving DecidableEq, Repr

/-! ### The parameters -/

/-- The parameters of R9, but for the two widths, which are the types Word and Byte, and the launch inputs MEM_INIT and
CS_INIT, which State.construct takes. A state carries them unchanged for the engine's life (R231), so that a claim about
every state is a claim about every value of them (notes/assumptions/1.md, 10.md). -/
structure Params where
  /-- MEM_CAP, bytes. -/
  memCap : Nat
  /-- OS_CAP, Words. -/
  osCap : Nat
  /-- CS_CAP, bytes. -/
  csCap : Nat
  /-- MSG_CAP, bytes. -/
  msgCap : Nat
  /-- BYTE_ORDER. -/
  byteOrder : ByteOrder
  /-- DECODE_TABLE. -/
  decodeTable : DecodeTable
  /-- STATE_ORDINAL. -/
  stateOrdinals : StateOrdinals
  /-- OUT_NUM_SUFFIX. -/
  outNumSuffix : List Byte
  /-- CS_UNWRITTEN_READ. -/
  csUnwrittenRead : UnwrittenRead
  deriving DecidableEq, Repr

/-- A FREE VALUE. The text of the n-th diagnostic message, before it is cut to MSG_CAP bytes: "Its bytes are
implementation-defined and no rule reads them" (R29, D18, U6). It has no body, so nothing can be proved of it
(notes/assumptions/4.md). -/
opaque Config.faultText : Nat → List Byte

end Sys2Proof
end

