-- ==== Sys2Proof/Syntax.lean ====
section
/-! DEFINITION. The instructions: one constructor per row of spec/opcode_table.json (30_encoding.md R84). -/

namespace Sys2Proof

/-- An instruction with its operands. A sized form carries its size qualifier s; the immediate of an FW form is the
8-byte Word (R83). -/
inductive Instr where
  -- control (40_control.md)
  | done
  | popRes
  | abort
  -- size-qualified load/store (41_load_store.md)
  | loadConst (s : Size) (imm : Word)
  | load (s : Size) (addr : Word)
  | store (s : Size) (addr : Word)
  -- size-qualified frame-relative load/store (42_frame_load_store.md)
  | loadFrame (s : Size) (off : Word)
  | storeFrame (s : Size) (off : Word)
  -- stack manipulation (43_stack.md)
  | pop
  | dup (k : Word)
  | swap (k : Word)
  -- arithmetic (44_arithmetic.md)
  | add
  | sub
  | mul
  | div
  | mod
  | neg
  -- bitwise (45_bitwise.md)
  | bitAnd
  | bitOr
  | bitXor
  | bitNot
  | shl
  | shr
  -- comparison (46_comparison.md)
  | cmpEq
  | cmpNe
  | cmpLt
  | cmpLe
  | cmpGt
  | cmpGe
  -- input and output (47_io.md)
  | outNum
  | outChar
  | inNum
  | inChar
  -- jump (48_jump.md)
  | jmp (target : Word)
  | jz (target : Word)
  | jnz (target : Word)
  -- call and return (49_call_return.md)
  | call (desc : Word)
  | ret
  deriving DecidableEq, Repr

end Sys2Proof
end

