-- ==== Sys2Proof/WellFormed.lean ====
section
/-! DEFINITION. Which instructions an encoding can hold (30_encoding.md R83, R97). -/

namespace Sys2Proof

/-- An operand is in range for its field: the constant of LOAD_CONST.s fits s bytes (R97: "LOAD_CONST.s: 0 to
2^(8s) − 1"). Every other immediate is a whole Word, and none of its values is illegal (R90). -/
def Instr.wf : Instr → Bool
  | .loadConst s imm => decide (imm.toNat < 2 ^ (8 * s.bytes))
  | _ => true

end Sys2Proof
end

