-- ==== Sys2Proof/Decode.lean ====
section
/-! DEFINITION. The Word Codec (20_memory.md R50, R51), the decode table (30_encoding.md R84), the decoder (R80 to
R90) and, after it, the encoder (R83, R84), each for every value of the parameters BYTE_ORDER and DECODE_TABLE; and the
values R9 gives the parameters. -/

namespace Sys2Proof

/-! ### The Word Codec -/

/-- The n bytes of a value, least significant first (R50, R54). -/
def leBytes : Nat → Nat → List Byte
  | 0, _ => []
  | n + 1, v => BitVec.ofNat 8 v :: leBytes n (v / 256)

/-- The value of a byte string whose first byte is least significant (R50, R53). -/
def leValue : List Byte → Nat
  | [] => 0
  | b :: bs => b.toNat + 256 * leValue bs

/-- The low n bytes of a Word in address order (R54). One order serves every multi-byte value (R51). -/
def bytesOfWord (o : ByteOrder) (n : Nat) (w : Word) : List Byte :=
  match o with
  | .little => leBytes n w.toNat
  | .big => (leBytes n w.toNat).reverse

/-- The Word that bytes in address order stand for, zero-extended (R53, R86). -/
def wordOfBytes (o : ByteOrder) (bs : List Byte) : Word :=
  match o with
  | .little => BitVec.ofNat 64 (leValue bs)
  | .big => BitVec.ofNat 64 (leValue bs.reverse)

/-! ### The decode table -/

/-- The four rows of a size-qualified mnemonic: opcode base + ss, with s = 2^ss (R81, D3). -/
def sizedRows (base : Byte) (m : Mnemonic) (f : Format) : DecodeTable :=
  [⟨base, m, .s1, f⟩, ⟨base + 1#8, m, .s2, f⟩, ⟨base + 2#8, m, .s4, f⟩, ⟨base + 3#8, m, .s8, f⟩]

/-- The row of a mnemonic without a size qualifier. -/
def plainRow (op : Byte) (m : Mnemonic) (f : Format) : DecodeRow := ⟨op, m, .s1, f⟩

/-- DECODE_TABLE, the size-qualified blocks (R84). -/
def decodeTableSized : DecodeTable :=
  sizedRows 0x10#8 .loadConst .fc ++ sizedRows 0x14#8 .load .fw ++ sizedRows 0x18#8 .store .fw ++
    sizedRows 0x20#8 .loadFrame .fw ++ sizedRows 0x24#8 .storeFrame .fw

/-- DECODE_TABLE, the control, stack and arithmetic blocks (R84). -/
def decodeTableLow : DecodeTable :=
  [plainRow 0x00#8 .done .f0, plainRow 0x01#8 .popRes .f0, plainRow 0x02#8 .abort .f0,
   plainRow 0x30#8 .pop .f0, plainRow 0x31#8 .dup .fw, plainRow 0x32#8 .swap .fw,
   plainRow 0x40#8 .add .f0, plainRow 0x41#8 .sub .f0, plainRow 0x42#8 .mul .f0,
   plainRow 0x43#8 .div .f0, plainRow 0x44#8 .mod .f0, plainRow 0x45#8 .neg .f0]

/-- DECODE_TABLE, the bitwise and comparison blocks (R84). -/
def decodeTableMid : DecodeTable :=
  [plainRow 0x50#8 .bitAnd .f0, plainRow 0x51#8 .bitOr .f0, plainRow 0x52#8 .bitXor .f0,
   plainRow 0x53#8 .bitNot .f0, plainRow 0x54#8 .shl .f0, plainRow 0x55#8 .shr .f0,
   plainRow 0x60#8 .cmpEq .f0, plainRow 0x61#8 .cmpNe .f0, plainRow 0x62#8 .cmpLt .f0,
   plainRow 0x63#8 .cmpLe .f0, plainRow 0x64#8 .cmpGt .f0, plainRow 0x65#8 .cmpGe .f0]

/-- DECODE_TABLE, the I/O, jump and call/return blocks (R84). -/
def decodeTableHigh : DecodeTable :=
  [plainRow 0x70#8 .outNum .f0, plainRow 0x71#8 .outChar .f0,
   plainRow 0x72#8 .inNum .f0, plainRow 0x73#8 .inChar .f0,
   plainRow 0x80#8 .jmp .fw, plainRow 0x81#8 .jz .fw, plainRow 0x82#8 .jnz .fw,
   plainRow 0xD0#8 .call .fw, plainRow 0xD1#8 .ret .f0]

/-- The value R9 gives DECODE_TABLE (R84): 53 opcode bytes. -/
def decodeTable : DecodeTable := decodeTableSized ++ decodeTableLow ++ decodeTableMid ++ decodeTableHigh

/-- The row of an opcode byte; none for an illegal byte (R80, R89). -/
def lookupOpcode (t : DecodeTable) (op : Byte) : Option DecodeRow := t.find? fun row => row.opcode == op

/-- The operand fetch mode: how wide the immediate is, if the format has one (R80, R83). -/
def Format.immSize (f : Format) (s : Size) : Option Size :=
  match f with
  | .f0 => none
  | .fc => some s
  | .fw => some .s8

/-- How wide the immediate is that a row fetches, if it fetches one (R80). -/
def DecodeRow.immSize (row : DecodeRow) : Option Size := row.format.immSize row.size

/-- The instruction a mnemonic, a size qualifier and an immediate make (R83, R86). -/
def assemble (m : Mnemonic) (s : Size) (imm : Word) : Instr :=
  match m with
  | .done => .done
  | .popRes => .popRes
  | .abort => .abort
  | .loadConst => .loadConst s imm
  | .load => .load s imm
  | .store => .store s imm
  | .loadFrame => .loadFrame s imm
  | .storeFrame => .storeFrame s imm
  | .pop => .pop
  | .dup => .dup imm
  | .swap => .swap imm
  | .add => .add
  | .sub => .sub
  | .mul => .mul
  | .div => .div
  | .mod => .mod
  | .neg => .neg
  | .bitAnd => .bitAnd
  | .bitOr => .bitOr
  | .bitXor => .bitXor
  | .bitNot => .bitNot
  | .shl => .shl
  | .shr => .shr
  | .cmpEq => .cmpEq
  | .cmpNe => .cmpNe
  | .cmpLt => .cmpLt
  | .cmpLe => .cmpLe
  | .cmpGt => .cmpGt
  | .cmpGe => .cmpGe
  | .outNum => .outNum
  | .outChar => .outChar
  | .inNum => .inNum
  | .inChar => .inChar
  | .jmp => .jmp imm
  | .jz => .jz imm
  | .jnz => .jnz imm
  | .call => .call imm
  | .ret => .ret

/-- The instruction of a row, with its immediate (R80). -/
def DecodeRow.instr (row : DecodeRow) (imm : Word) : Instr := assemble row.mnemonic row.size imm

/-! ### The decoder -/

/-- What decoding a byte string gives: an instruction and the bytes after it, or a rejection by name. -/
inductive DecodeResult where
  /-- An instruction and the rest of the bytes. -/
  | ok (i : Instr) (rest : List Byte)
  /-- The opcode byte has no row in the decode table (R89). -/
  | unknownOpcode (op : Byte)
  /-- There is no opcode byte. -/
  | noOpcode
  /-- The bytes end inside the immediate (R82). -/
  | truncated (row : DecodeRow)
  deriving DecidableEq, Repr

/-- Decode the first instruction of a byte string (R80, R82, R87). -/
def decode (p : Params) : List Byte → DecodeResult
  | [] => .noOpcode
  | op :: rest =>
    match lookupOpcode p.decodeTable op with
    | none => .unknownOpcode op
    | some row =>
      match row.immSize with
      | none => .ok (row.instr 0#64) rest
      | some n =>
        if rest.length < n.bytes then .truncated row
        else .ok (row.instr (wordOfBytes p.byteOrder (rest.take n.bytes))) (rest.drop n.bytes)

/-! ### The encoder -/

/-- The mnemonic of an instruction. -/
def Instr.mnemonic : Instr → Mnemonic
  | .done => .done
  | .popRes => .popRes
  | .abort => .abort
  | .loadConst _ _ => .loadConst
  | .load _ _ => .load
  | .store _ _ => .store
  | .loadFrame _ _ => .loadFrame
  | .storeFrame _ _ => .storeFrame
  | .pop => .pop
  | .dup _ => .dup
  | .swap _ => .swap
  | .add => .add
  | .sub => .sub
  | .mul => .mul
  | .div => .div
  | .mod => .mod
  | .neg => .neg
  | .bitAnd => .bitAnd
  | .bitOr => .bitOr
  | .bitXor => .bitXor
  | .bitNot => .bitNot
  | .shl => .shl
  | .shr => .shr
  | .cmpEq => .cmpEq
  | .cmpNe => .cmpNe
  | .cmpLt => .cmpLt
  | .cmpLe => .cmpLe
  | .cmpGt => .cmpGt
  | .cmpGe => .cmpGe
  | .outNum => .outNum
  | .outChar => .outChar
  | .inNum => .inNum
  | .inChar => .inChar
  | .jmp _ => .jmp
  | .jz _ => .jz
  | .jnz _ => .jnz
  | .call _ => .call
  | .ret => .ret

/-- s of a sized form; 1 for every other, as in its row. -/
def Instr.size : Instr → Size
  | .loadConst s _ => s
  | .load s _ => s
  | .store s _ => s
  | .loadFrame s _ => s
  | .storeFrame s _ => s
  | _ => .s1

/-- The immediate, with its width in bytes, of a form that has one (R83). -/
def Instr.imm : Instr → Option (Size × Word)
  | .loadConst s imm => some (s, imm)
  | .load _ addr => some (.s8, addr)
  | .store _ addr => some (.s8, addr)
  | .loadFrame _ off => some (.s8, off)
  | .storeFrame _ off => some (.s8, off)
  | .dup k => some (.s8, k)
  | .swap k => some (.s8, k)
  | .jmp target => some (.s8, target)
  | .jz target => some (.s8, target)
  | .jnz target => some (.s8, target)
  | .call desc => some (.s8, desc)
  | _ => none

/-- The row of an instruction in a decode table, if the table has one. -/
def rowOf (t : DecodeTable) (i : Instr) : Option DecodeRow :=
  t.find? fun row => row.mnemonic == i.mnemonic && row.size == i.size

/-- The table has a row for an instruction. -/
def DecodeTable.has (t : DecodeTable) (i : Instr) : Bool := (rowOf t i).isSome

/-- The opcode byte of an instruction in a decode table (R84); 0xFF for one it has no row for, which no encoding is
(notes/assumptions/10.md). -/
def opcodeOf (t : DecodeTable) (i : Instr) : Byte :=
  match rowOf t i with
  | some row => row.opcode
  | none => 0xFF#8

/-- The bytes of an instruction in address order: the opcode, then the immediate (R83, R84). -/
def encode (p : Params) (i : Instr) : List Byte :=
  opcodeOf p.decodeTable i ::
    match i.imm with
    | none => []
    | some (s, imm) => bytesOfWord p.byteOrder s.bytes imm

/-- The length of an instruction in bytes (R83, R87). -/
def Instr.length (i : Instr) : Nat :=
  match i.imm with
  | none => 1
  | some (s, _) => 1 + s.bytes

/-! ### The admissible decode tables -/

/-- Whether a mnemonic has a size qualifier (R81, R83). -/
def Mnemonic.sized (m : Mnemonic) : Bool :=
  decide (m ∈ [Mnemonic.loadConst, .load, .store, .loadFrame, .storeFrame])

/-- The format of a mnemonic (R83, column "used by"). -/
def Mnemonic.format (m : Mnemonic) : Format :=
  if m = .loadConst then .fc
  else if m ∈ [Mnemonic.load, .store, .loadFrame, .storeFrame, .dup, .swap, .jmp, .jz, .jnz, .call] then .fw
  else .f0

/-- A row gives its mnemonic the format R83 gives it, and a width other than 1 only if it has a size qualifier. -/
def DecodeRow.wf (row : DecodeRow) : Bool :=
  (row.mnemonic.sized || row.size == .s1) && row.format == row.mnemonic.format

/-- Two rows have different opcode bytes and different instructions. -/
def DecodeRow.apart (a b : DecodeRow) : Bool :=
  !(a.opcode == b.opcode) && !(a.mnemonic == b.mnemonic && a.size == b.size)

/-- Every two rows are apart. -/
def DecodeTable.apart : DecodeTable → Bool
  | [] => true
  | row :: rest => rest.all row.apart && DecodeTable.apart rest

/-- A table DECODE_TABLE may be: it gives no opcode byte two instructions and no instruction two opcode bytes. Which bits
of the opcode select the width, and which of the widths of R53 there are, is the table's (D3;
notes/assumptions/10.md). -/
def DecodeTable.wf (t : DecodeTable) : Bool := t.all DecodeRow.wf && t.apart

/-! ### The parameters' ranges and values -/

/-- The five numbers differ. -/
def StateOrdinals.wf (o : StateOrdinals) : Bool :=
  decide [o.running, o.haltSuccess, o.haltFailure, o.uninitialized, o.unknown].Nodup

/-- The ranges R9 gives: each of the three capacities is at least 1 and below 2^64; and DECODE_TABLE and STATE_ORDINAL
are tables of instructions and of run states (notes/assumptions/10.md). -/
def Params.wf (p : Params) : Bool :=
  decide (1 ≤ p.memCap ∧ p.memCap < 2 ^ 64) && decide (1 ≤ p.osCap ∧ p.osCap < 2 ^ 64) &&
    decide (1 ≤ p.csCap ∧ p.csCap < 2 ^ 64) && p.decodeTable.wf && p.stateOrdinals.wf

/-- The value R9 gives STATE_ORDINAL (R26, D8). -/
def stateOrdinals : StateOrdinals where
  running := 0#64
  haltSuccess := 1#64
  haltFailure := 2#64
  uninitialized := 3#64
  unknown := 4#64

/-- The parameters at the values R9 gives, where it gives one. The capacities, which it leaves OPEN, are those
95_test_vectors.md takes by default, and 64 for MSG_CAP, which the spec gives nowhere. DESIGN CHOICE, unsafe for a claim
about State.reset alone (notes/assumptions/2.md). -/
def initialParams : Params where
  memCap := 256
  osCap := 16
  csCap := 256
  msgCap := 64
  byteOrder := .little
  decodeTable := decodeTable
  stateOrdinals := stateOrdinals
  outNumSuffix := []
  csUnwrittenRead := .content

/-! ### The table's numbering of an instruction's bits -/

/-- The length in bytes of the longest instruction (R87). -/
def maxLength : Nat := 9

/-- The bytes of an instruction whose bits are the low nbits of w, byte A + k holding bits [8k+7 : 8k] (R83); every bit
above nbits is 0, up to the longest instruction. -/
def tableWordBytes (nbits w : Nat) : List Byte := leBytes maxLength (w % 2 ^ nbits)

/-- The instruction the decoder reads from such bytes, at R9's values of the parameters. -/
def decodeTableWord (nbits w : Nat) : Option Instr :=
  match decode initialParams (tableWordBytes nbits w) with
  | .ok i _ => some i
  | _ => none

end Sys2Proof
end

