-- ==== Sys2Proof/Machine/State.lean ====
section
/-! DEFINITION. The machine's state as plain data (10_state.md), the reasons a step can stop, and the state after
construction (R41, R242). -/

namespace Sys2Proof.Machine

/-- A byte buffer: the (address, byte) pairs of the addresses that do not hold 0, in rising order of address. An
unlisted address holds the byte 0, the value CLEAR writes (R244; notes/assumptions/3.md). -/
abbrev Memory := List Host.Cell

/-- The Operand Stack's cells: the (index, Word) pairs of the cells that do not hold 0, in rising order of index. -/
abbrev StackCells := List (Nat × Word)

/-- Marks of bytes: the (address, 1) pairs of the marked addresses, in rising order. -/
abbrev Marks := List (Nat × BitVec 1)

/-- The run state (R26). -/
inductive RunState where
  | running
  | haltSuccess
  | haltFailure
  | uninitialized
  | unknown
  deriving DecidableEq, Repr

/-- The class of the last fault (R27, R210). -/
inductive Cause where
  | none
  | stackOverflow
  | stackUnderflow
  | callStackOverflow
  | callStackUnderflow
  | outOfBounds
  | unknownOpcode
  | abort
  | divideByZero
  | shiftOutOfRange
  deriving DecidableEq, Repr

/-- A host command other than CONSTRUCT (R230). -/
inductive HostCmd where
  /-- LOAD(P) (R243). -/
  | load (program : List Byte)
  /-- CLEAR (R244). -/
  | clear
  /-- RUN (R245). -/
  | run
  /-- STATUS (R233). -/
  | status
  /-- REGS (R234). -/
  | regs
  /-- TEARDOWN (R248). -/
  | teardown
  deriving DecidableEq, Repr

/-- What the host port answers. -/
inductive HostReply where
  /-- LOAD was carried out (R243). -/
  | loaded
  /-- LOAD was refused: the program is longer than Memory (R243, D41). -/
  | loadRefused
  /-- STATUS: STATE, CAUSE, INFO, FAULT_IP, MSG (R233). -/
  | status (runState : RunState) (cause : Cause) (info faultIp : Word) (msg : List Byte)
  /-- REGS: ip, sp, fp (R234). -/
  | regs (ip sp fp : Word)
  deriving DecidableEq, Repr

/-- The state. The fields down to inPos are the spec's own (R20) beside its configuration; faultAddr is the latch of
R80; the rest stand for the host and for the free value (INVENTORY.md, State). -/
structure State where
  /-- The parameters fixed at construction (R9, R231); no step changes them. -/
  cfg : Params
  /-- ip, a byte address of Memory (R21). -/
  ip : Word
  /-- sp, a Word index of the Operand Stack, one past the top (R22). -/
  sp : Word
  /-- fp, a byte index of the Call Stack, one past the top of the most recent frame (R23). -/
  fp : Word
  /-- STATE (R26). -/
  runState : RunState
  /-- CAUSE (R27). -/
  cause : Cause
  /-- INFO (R28). -/
  info : Word
  /-- FAULT_IP (R28). -/
  faultIp : Word
  /-- MSG (R29). -/
  msg : List Byte
  /-- M[0 .. MEM_CAP−1] (R38). -/
  mem : Memory
  /-- OS[0 .. OS_CAP−1] (R30). -/
  os : StackCells
  /-- CS[0 .. CS_CAP−1] (R36). -/
  cs : Memory
  /-- Which Call Stack bytes have been written since construction (D39, U1; notes/assumptions/17.md). -/
  csWritten : Marks
  /-- The output trace, oldest byte first (R40). -/
  out : List Byte
  /-- The input position (R40). -/
  inPos : Nat
  /-- FAULT_ADDR, the latch of the current instruction's opcode address (R80; notes/assumptions/5.md). -/
  faultAddr : Word
  /-- The values the host has supplied on IN and the engine has not taken, oldest first (R171, R232;
  notes/assumptions/6.md). -/
  input : List Word
  /-- Whether the host accepts output bytes (R170, R236; notes/assumptions/7.md). -/
  outReady : Bool
  /-- The host commands issued and not yet carried out, oldest first (R230; notes/assumptions/8.md). -/
  hostCmds : List HostCmd
  /-- What the host port has answered, oldest first (R230, R233, R234; notes/assumptions/8.md). -/
  replies : List HostReply
  /-- How many message texts have been drawn: the counter of the free value (R29; notes/assumptions/4.md). -/
  msgDraws : Nat
  deriving DecidableEq, Repr

/-- Why the machine stops with no next state. The engine's own faults (R210) are no such stop: each is taken, and leaves
a next state in HALT_FAILURE (R214). -/
inductive Fault where
  /-- Raised by the host command TEARDOWN: "It ends the engine's life; no state survives it and nothing is observable
  after it" (R248). Safe: there is no hardware state to be wrong about (notes/assumptions/9.md). -/
  | tornDown
  /-- Raised by LOAD_FRAME.s and RETURN, under the value fault of CS_UNWRITTEN_READ only, when a Call Stack read at addr
  covers a byte never written since construction: "a model wanting the conservative reading may treat a read of a byte
  never written since construction as a fault" (D39, U1). Safe: the engine goes on, with a byte of CS_INIT
  (notes/assumptions/17.md). -/
  | unwrittenCallStackRead (addr : Word)
  deriving DecidableEq, Repr

/-- Why a step has no meaning. -/
inductive Refusal where
  /-- Raised by exec for an instruction without a meaning; no arm of exec is one, so nothing raises it. Safe. -/
  | notModelled (mnemonic : String)
  deriving DecidableEq, Repr

/-- CONSTRUCT: the construction value of every piece of state (R41, R231, R242), for the capacities and the launch
inputs MEM_INIT and CS_INIT given. The Operand Stack's cells are unobservable (R33) and taken as 0
(notes/assumptions/3.md). -/
def State.construct (cfg : Params) (memInit csInit : Memory) : State where
  cfg := cfg
  ip := 0#64
  sp := 0#64
  fp := 0#64
  runState := .uninitialized
  cause := .none
  info := 0#64
  faultIp := 0#64
  msg := []
  mem := memInit
  os := []
  cs := csInit
  csWritten := []
  out := []
  inPos := 0
  faultAddr := 0#64
  input := []
  outReady := true
  hostCmds := []
  replies := []
  msgDraws := 0

/-- The machine right after construction (R41, R242), at the parameters of initialParams, with MEM_INIT and CS_INIT
zero: DESIGN CHOICE (notes/assumptions/2.md, 3.md). -/
def State.reset : State := State.construct initialParams [] []

end Sys2Proof.Machine
end

