-- ==== Sys2Proof/Machine/Ops.lean ====
section
/-! DEFINITION. The named operations: the cells of a buffer, the primitives of 00_scope.md R14 over Memory, the Call
Stack and the Operand Stack, the input and output channels, taking a fault (60_exceptions.md R214), the halt (R215), and
RUN, which is what comes back from a halt (R219, R245). -/

namespace Sys2Proof.Machine

/-! ### The cells of a buffer -/

/-- The value at an index; an unlisted index holds 0. -/
def cellGet {w : Nat} : List (Nat × BitVec w) → Nat → BitVec w
  | [], _ => 0#w
  | (b, x) :: rest, a => if a = b then x else cellGet rest a

/-- Set the value at an index, keeping the indexes rising and listing no 0. -/
def cellSet {w : Nat} : List (Nat × BitVec w) → Nat → BitVec w → List (Nat × BitVec w)
  | [], a, v => if v = 0#w then [] else [(a, v)]
  | (b, x) :: rest, a, v =>
    if a < b then (if v = 0#w then (b, x) :: rest else (a, v) :: (b, x) :: rest)
    else if a = b then (if v = 0#w then rest else (a, v) :: rest)
    else (b, x) :: cellSet rest a v

/-- The values at n indexes from a. -/
def cellsRead {w : Nat} (c : List (Nat × BitVec w)) : Nat → Nat → List (BitVec w)
  | _, 0 => []
  | a, n + 1 => cellGet c a :: cellsRead c (a + 1) n

/-- Set the values from index a on. -/
def cellsWrite {w : Nat} : List (Nat × BitVec w) → Nat → List (BitVec w) → List (Nat × BitVec w)
  | c, _, [] => c
  | c, a, v :: vs => cellsWrite (cellSet c a v) (a + 1) vs

/-- The canonical form from an index on: indexes strictly rising, no value 0. -/
def cellsWfFrom {w : Nat} : Nat → List (Nat × BitVec w) → Bool
  | _, [] => true
  | lo, (a, v) :: rest => decide (lo ≤ a) && !(v == 0#w) && cellsWfFrom (a + 1) rest

/-- The canonical form of a buffer's cells. -/
def cellsWf {w : Nat} (c : List (Nat × BitVec w)) : Bool := cellsWfFrom 0 c

/-- Every listed index lies below a capacity. -/
def cellsBelow {w : Nat} (cap : Nat) (c : List (Nat × BitVec w)) : Bool := c.all fun cell => decide (cell.1 < cap)

/-- The canonical form of a byte buffer. -/
def Memory.wf (m : Memory) : Bool := cellsWf m

/-! ### What a primitive gives -/

/-- What a sequence of primitives gives: it goes on with a value and a state; or it raises a fault with the effects so
far kept (R14, R214); or it waits for the host, with no effect at all (R171, R236); or it ends the run, for a reason that
is no fault of the engine's. -/
inductive Res (α : Type) where
  | ok (v : α) (s : State)
  | raise (c : Cause) (info : Word) (s : State)
  | hold
  | stop (f : Fault)
  deriving DecidableEq, Repr

/-- Run one primitive after another: the first that does not go on ends the sequence (D19). -/
def Res.bind {α β : Type} (r : Res α) (k : α → State → Res β) : Res β :=
  match r with
  | .ok v s => k v s
  | .raise c info s => .raise c info s
  | .hold => .hold
  | .stop f => .stop f

/-! ### Taking a fault, halting, and coming back -/

/-- raise C(info), the fault entry (R214): STATE, CAUSE, INFO, FAULT_IP and MSG are written and nothing else changes.
MSG is a free text of at most MSG_CAP bytes (R29, D18), the next of the draws msgDraws counts. -/
def takeFault (c : Cause) (info : Word) (s : State) : State :=
  { s with
    runState := .haltFailure
    cause := c
    info := info
    faultIp := s.faultAddr
    msg := (Config.faultText s.msgDraws).take s.cfg.msgCap
    msgDraws := s.msgDraws + 1 }

/-- halt(S), the voluntary stop: STATE only (R215). -/
def haltWith (r : RunState) (s : State) : State := { s with runState := r }

/-- RUN, the one way back from a halt: "it does not clear CAUSE, INFO, FAULT_IP or MSG" (R219), STATE becomes RUNNING
and execution goes on at the current ip (R245). -/
def hostRun (s : State) : State := haltWith .running s

/-- The engine held in an instruction (R171, R236): it is as it was before the instruction was fetched, still RUNNING
(R226), and the next step tries the same instruction again. -/
def holdAt (s : State) : State := { s with ip := s.faultAddr }

/-- How an instruction ends: with the state its primitives left, in the fault they raised, held, or with the run. -/
def finish (s : State) (r : Res Unit) : Host.Outcome State Fault Refusal :=
  match r with
  | .ok _ t => .next t
  | .raise c info t => .next (takeFault c info t)
  | .hold => .next (holdAt s)
  | .stop f => .fault f

/-! ### Memory (memory bounds-check arbiter) -/

/-- The one bounds check, in the natural numbers (R53, R54, R56, R57, D23). -/
def checkBounds (cap : Nat) (addr : Word) (n : Size) (s : State) : Res Unit :=
  if addr.toNat + n.bytes > cap then .raise .outOfBounds addr s else .ok () s

/-- MemRead(addr, n) (R53). -/
def memRead (addr : Word) (n : Size) (s : State) : Res Word :=
  (checkBounds s.cfg.memCap addr n s).bind fun _ s =>
    .ok (wordOfBytes s.cfg.byteOrder (cellsRead s.mem addr.toNat n.bytes)) s

/-- MemWrite(addr, n, v) (R54). -/
def memWrite (addr : Word) (n : Size) (v : Word) (s : State) : Res Unit :=
  (checkBounds s.cfg.memCap addr n s).bind fun _ s =>
    .ok () { s with mem := cellsWrite s.mem addr.toNat (bytesOfWord s.cfg.byteOrder n.bytes v) }

/-! ### The Call Stack -/

/-- Every one of n Call Stack bytes from a on has been written since construction. -/
def allWritten (s : State) (a n : Nat) : Bool := (cellsRead s.csWritten a n).all (· == 1#1)

/-- What CS_UNWRITTEN_READ makes of a read of n bytes (R9, D39): nothing, or the end of the run when one of the bytes was
never written. -/
def checkWritten (addr : Word) (n : Size) (s : State) : Res Unit :=
  match s.cfg.csUnwrittenRead with
  | .content => .ok () s
  | .fault => if allWritten s addr.toNat n.bytes then .ok () s else .stop (.unwrittenCallStackRead addr)

/-- CSRead(addr, n) (R56). -/
def csRead (addr : Word) (n : Size) (s : State) : Res Word :=
  (checkBounds s.cfg.csCap addr n s).bind fun _ s => (checkWritten addr n s).bind fun _ s =>
    .ok (wordOfBytes s.cfg.byteOrder (cellsRead s.cs addr.toNat n.bytes)) s

/-- The state after n Call Stack bytes from a on are written: they hold the low bytes of v (R57), and are marked as
written. -/
def csStored (a : Nat) (n : Size) (v : Word) (s : State) : State :=
  { s with
    cs := cellsWrite s.cs a (bytesOfWord s.cfg.byteOrder n.bytes v)
    csWritten := cellsWrite s.csWritten a (List.replicate n.bytes 1#1) }

/-- CSWrite(addr, n, v) (R57). -/
def csWrite (addr : Word) (n : Size) (v : Word) (s : State) : Res Unit :=
  (checkBounds s.cfg.csCap addr n s).bind fun _ s => .ok () (csStored addr.toNat n v s)

/-! ### The Operand Stack (operand stack controller) -/

/-- The state after v is pushed where there is room (R31). -/
def pushed (v : Word) (s : State) : State :=
  { s with os := cellSet s.os s.sp.toNat v, sp := s.sp + 1#64 }

/-- The state after a pop where there is a Word (R32): the cell keeps its value (R130). -/
def popped (s : State) : State := { s with sp := s.sp - 1#64 }

/-- The Word k below the top (R33); the top is k = 0. -/
def stackAt (s : State) (k : Word) : Word := cellGet s.os (s.sp - 1#64 - k).toNat

/-- Push(v) (R31). -/
def push (v : Word) (s : State) : Res Unit :=
  if s.sp.toNat = s.cfg.osCap then .raise .stackOverflow s.sp s else .ok () (pushed v s)

/-- Pop() (R32). -/
def pop (s : State) : Res Word :=
  if s.sp = 0#64 then .raise .stackUnderflow 0#64 s else .ok (stackAt s 0#64) (popped s)

/-- Peek(k) (R33). -/
def peek (k : Word) (s : State) : Res Word :=
  if k.toNat ≥ s.sp.toNat then .raise .stackUnderflow k s else .ok (stackAt s k) s

/-- Swap(k) (R34). -/
def swapTop (k : Word) (s : State) : Res Unit :=
  if k.toNat ≥ s.sp.toNat then .raise .stackUnderflow k s
  else
    .ok () { s with
      os := cellSet (cellSet s.os (s.sp - 1#64).toNat (stackAt s k)) (s.sp - 1#64 - k).toNat (stackAt s 0#64) }

/-! ### The channels -/

/-- Emit(bytes) (R170): appends to the output trace, or waits while the host does not accept output (R236). -/
def emit (bytes : List Byte) (s : State) : Res Unit :=
  if s.outReady then .ok () { s with out := s.out ++ bytes } else .hold

/-- Input() (R171): takes the next value the host supplied and advances the input position, or waits for one. -/
def takeInput (s : State) : Res Word :=
  match s.input with
  | [] => .hold
  | v :: rest => .ok v { s with input := rest, inPos := s.inPos + 1 }

/-! ### Control transfer -/

/-- ip <- target, without a check (R183). -/
def jumpTo (target : Word) (s : State) : State := { s with ip := target }

end Sys2Proof.Machine
end

