-- ==== Sys2Proof/Machine/Operands.lean ====
section
/-! DEFINITION. The operand forms: popped operands in their order (00_scope.md R16), the immediate constant
(30_encoding.md R86) and the frame-relative address (42_frame_load_store.md R120). -/

namespace Sys2Proof.Machine

/-- The two operands of a binary operator: b, the right one, is popped first, then a, the left one (R16). Calls f with
a, then b. -/
def binary (f : Word → Word → State → Res Unit) (s : State) : Res Unit :=
  (pop s).bind fun b s => (pop s).bind fun a s => f a b s

/-- The one operand of a unary operator. -/
def unary (f : Word → State → Res Unit) (s : State) : Res Unit := (pop s).bind f

/-- A binary operator that pushes a result on every pair of operands. -/
def binaryPush (f : Word → Word → Word) (s : State) : Res Unit := binary (fun a b => push (f a b)) s

/-- A unary operator that pushes a result. -/
def unaryPush (f : Word → Word) (s : State) : Res Unit := unary (fun n => push (f n)) s

/-- The constant of LOAD_CONST.s: its low s bytes, zero-extended (R86, R110). -/
def constOperand (n : Size) (imm : Word) : Word := imm &&& BitVec.ofNat 64 (2 ^ (8 * n.bytes) - 1)

/-- The Call Stack address fp − off of a frame-relative access (R120, R121, D6). -/
def frameAddr (off : Word) (s : State) : Res Word :=
  if off.toNat > s.fp.toNat then .raise .outOfBounds (s.fp - off) s else .ok (s.fp - off) s

end Sys2Proof.Machine
end

