-- ==== Sys2Proof/Machine/Arithmetic.lean ====
section
/-! DEFINITION. ADD, SUB, MUL, DIV, MOD, NEG (44_arithmetic.md): unsigned, modulo 2^64. -/

namespace Sys2Proof.Machine

/-- A division: a right operand of 0 raises DivideByZero(0) after both pops (R143, R144, D24). -/
def divideWith (f : Word → Word → Word) (a b : Word) (s : State) : Res Unit :=
  if b = 0#64 then .raise .divideByZero 0#64 s else push (f a b) s

/-- ADD (R140). -/
def execAdd (s : State) : Host.Outcome State Fault Refusal := finish s (binaryPush (fun a b => a + b) s)

/-- SUB (R141): left minus right. -/
def execSub (s : State) : Host.Outcome State Fault Refusal := finish s (binaryPush (fun a b => a - b) s)

/-- MUL (R142): the low 64 bits of the product. -/
def execMul (s : State) : Host.Outcome State Fault Refusal := finish s (binaryPush (fun a b => a * b) s)

/-- DIV (R143): unsigned quotient, left divided by right. -/
def execDiv (s : State) : Host.Outcome State Fault Refusal := finish s (binary (divideWith fun a b => a / b) s)

/-- MOD (R144): unsigned remainder of left by right. -/
def execMod (s : State) : Host.Outcome State Fault Refusal := finish s (binary (divideWith fun a b => a % b) s)

/-- NEG (R145): ~n + 1. -/
def execNeg (s : State) : Host.Outcome State Fault Refusal := finish s (unaryPush (fun n => ~~~n + 1#64) s)

end Sys2Proof.Machine
end

