-- ==== Sys2Proof/Machine/Bitwise.lean ====
section
/-! DEFINITION. AND, OR, XOR, NOT, SHL, SHR (45_bitwise.md). -/

namespace Sys2Proof.Machine

/-- A shift: an amount of 64 or more raises ShiftOutOfRange(amount) after both pops (R154, R155, D25). -/
def shiftWith (f : Word → Nat → Word) (a b : Word) (s : State) : Res Unit :=
  if b.toNat ≥ 64 then .raise .shiftOutOfRange b s else push (f a b.toNat) s

/-- AND (R150). -/
def execBitAnd (s : State) : Host.Outcome State Fault Refusal := finish s (binaryPush (fun a b => a &&& b) s)

/-- OR (R151). -/
def execBitOr (s : State) : Host.Outcome State Fault Refusal := finish s (binaryPush (fun a b => a ||| b) s)

/-- XOR (R152). -/
def execBitXor (s : State) : Host.Outcome State Fault Refusal := finish s (binaryPush (fun a b => a ^^^ b) s)

/-- NOT (R153). -/
def execBitNot (s : State) : Host.Outcome State Fault Refusal := finish s (unaryPush (fun n => ~~~n) s)

/-- SHL (R154): zeros enter at bit 0. -/
def execShl (s : State) : Host.Outcome State Fault Refusal := finish s (binary (shiftWith fun a n => a <<< n) s)

/-- SHR (R155): logical, zeros enter at bit 63. -/
def execShr (s : State) : Host.Outcome State Fault Refusal := finish s (binary (shiftWith fun a n => a >>> n) s)

end Sys2Proof.Machine
end

