-- ==== Sys2Proof/Machine/CallReturn.lean ====
section
/-! DEFINITION. The call-frame allocator, the stack walker, CALL and RETURN (49_call_return.md). -/

namespace Sys2Proof.Machine

/-- FS(n, L), the size of a frame in bytes, in the natural numbers (R190). -/
def frameSize (n l : Nat) : Nat := 8 * n + l + 24

/-- The argument loop of PushFrame (R192): each pop goes straight to its slot, the last-pushed Word to the highest, so
that the first-declared argument lies at the frame base. -/
def popArgs (base : Nat) : Nat → State → Res Unit
  | 0, s => .ok () s
  | k + 1, s => (pop s).bind fun v s => (csWrite (BitVec.ofNat 64 (base + 8 * k)) .s8 v s).bind fun _ s => popArgs base k s

/-- PushFrame(n, L, r) (R192): the fit check comes before any pop or write (D21), and the locals are not written. -/
def pushFrame (n l r : Word) (s : State) : Res Unit :=
  let size := frameSize n.toNat l.toNat
  let base := s.fp.toNat
  if base + size > s.cfg.csCap then .raise .callStackOverflow (BitVec.ofNat 64 size) s
  else
    (popArgs base n.toNat s).bind fun _ s =>
    (csWrite (BitVec.ofNat 64 (base + 8 * n.toNat)) .s8 n s).bind fun _ s =>
    (csWrite (BitVec.ofNat 64 (base + 8 * n.toNat + 8 + l.toNat)) .s8 l s).bind fun _ s =>
    (csWrite (BitVec.ofNat 64 (base + 8 * n.toNat + 16 + l.toNat)) .s8 r s).bind fun _ s =>
    .ok () { s with fp := BitVec.ofNat 64 (base + size) }

/-- PopFrame() (R196): return_address, then local_size, then arg_num, each checked to lie below fp before it is read. -/
def popFrame (s : State) : Res Word :=
  if s.fp.toNat < 8 then .raise .callStackUnderflow s.fp s
  else (csRead (s.fp - 8#64) .s8 s).bind fun r s =>
    if s.fp.toNat < 16 then .raise .callStackUnderflow s.fp s
    else (csRead (s.fp - 16#64) .s8 s).bind fun l s =>
      if s.fp.toNat - 16 < l.toNat + 8 then .raise .callStackUnderflow s.fp s
      else (csRead (s.fp - 24#64 - l) .s8 s).bind fun n s =>
        if s.fp.toNat - 24 - l.toNat < 8 * n.toNat then .raise .callStackUnderflow s.fp s
        else .ok r { s with fp := s.fp - 24#64 - l - 8#64 * n }

/-- CALL (R194): the descriptor's three Words (R191), then the frame, whose return address is ip, the byte after CALL's
immediate (R193), then the jump. -/
def execCall (desc : Word) (s : State) : Host.Outcome State Fault Refusal :=
  finish s ((memRead desc .s8 s).bind fun n s => (memRead (desc + 8#64) .s8 s).bind fun l s =>
    (memRead (desc + 16#64) .s8 s).bind fun c s => (pushFrame n l s.ip s).bind fun _ s => .ok () (jumpTo c s))

/-- RETURN (R197). -/
def execRet (s : State) : Host.Outcome State Fault Refusal :=
  finish s ((popFrame s).bind fun r s => .ok () (jumpTo r s))

end Sys2Proof.Machine
end

