-- ==== Sys2Proof/Machine/Flags.lean ====
section
/-! DEFINITION. "The engine has no condition-code or flag register" (10_state.md R29): there is no flag to compute. A
comparison pushes a Word instead (46_comparison.md, D26), and this file gives that Word. -/

namespace Sys2Proof.Machine

/-- 1 when a relation holds, 0 when it does not (D26). -/
def truthWord (holds : Bool) : Word := if holds then 1#64 else 0#64

end Sys2Proof.Machine
end

