-- ==== Sys2Proof/Machine/Comparison.lean ====
section
/-! DEFINITION. EQ, NE, LT, LE, GT, GE (46_comparison.md): unsigned, left against right. -/

namespace Sys2Proof.Machine

/-- EQ (R160). -/
def execCmpEq (s : State) : Host.Outcome State Fault Refusal :=
  finish s (binaryPush (fun a b => truthWord (decide (a = b))) s)

/-- NE (R161). -/
def execCmpNe (s : State) : Host.Outcome State Fault Refusal :=
  finish s (binaryPush (fun a b => truthWord (decide (a ≠ b))) s)

/-- LT (R162). -/
def execCmpLt (s : State) : Host.Outcome State Fault Refusal :=
  finish s (binaryPush (fun a b => truthWord (decide (a.toNat < b.toNat))) s)

/-- LE (R163). -/
def execCmpLe (s : State) : Host.Outcome State Fault Refusal :=
  finish s (binaryPush (fun a b => truthWord (decide (a.toNat ≤ b.toNat))) s)

/-- GT (R164). -/
def execCmpGt (s : State) : Host.Outcome State Fault Refusal :=
  finish s (binaryPush (fun a b => truthWord (decide (a.toNat > b.toNat))) s)

/-- GE (R165). -/
def execCmpGe (s : State) : Host.Outcome State Fault Refusal :=
  finish s (binaryPush (fun a b => truthWord (decide (a.toNat ≥ b.toNat))) s)

end Sys2Proof.Machine
end

