-- ==== Sys2Proof/Machine/Control.lean ====
section
/-! DEFINITION. DONE, POP_RES, ABORT (40_control.md). -/

namespace Sys2Proof.Machine

/-- The run state POP_RES adopts for a Word: the one whose ordinal it is, else UNKNOWN (R101, R26). -/
def adoptedState (o : StateOrdinals) (v : Word) : RunState :=
  if v = o.running then .running
  else if v = o.haltSuccess then .haltSuccess
  else if v = o.haltFailure then .haltFailure
  else if v = o.uninitialized then .uninitialized
  else .unknown

/-- DONE (R100). -/
def execDone (s : State) : Host.Outcome State Fault Refusal := finish s (.ok () (haltWith .haltSuccess s))

/-- POP_RES (R101). -/
def execPopRes (s : State) : Host.Outcome State Fault Refusal :=
  finish s (unary (fun v s => .ok () (haltWith (adoptedState s.cfg.stateOrdinals v) s)) s)

/-- ABORT (R102): raise Abort(0). -/
def execAbort (s : State) : Host.Outcome State Fault Refusal := finish s (.raise .abort 0#64 s)

end Sys2Proof.Machine
end

