-- ==== Sys2Proof/Machine/FrameLoadStore.lean ====
section
/-! DEFINITION. LOAD_FRAME.s, STORE_FRAME.s (42_frame_load_store.md). -/

namespace Sys2Proof.Machine

/-- LOAD_FRAME.s (R120): checked against the Call Stack buffer only (R58), before the push (D20). -/
def execLoadFrame (n : Size) (off : Word) (s : State) : Host.Outcome State Fault Refusal :=
  finish s ((frameAddr off s).bind fun ea s => (csRead ea n s).bind push)

/-- STORE_FRAME.s (R121): the address checks come before the pop (D20). -/
def execStoreFrame (n : Size) (off : Word) (s : State) : Host.Outcome State Fault Refusal :=
  finish s ((frameAddr off s).bind fun ea s => (checkBounds s.cfg.csCap ea n s).bind fun _ s =>
    (pop s).bind fun v s => csWrite ea n v s)

end Sys2Proof.Machine
end

