-- ==== Sys2Proof/Machine/InOut.lean ====
section
/-! DEFINITION. OUT_NUM, OUT_CHAR, IN_NUM, IN_CHAR (47_io.md). -/

namespace Sys2Proof.Machine

/-- The digits of v in base 10 as ASCII bytes, most significant first, put before the bytes given; the first argument
bounds how many digits there may be. -/
def decimalOnto : Nat → Nat → List Byte → List Byte
  | 0, _, acc => acc
  | fuel + 1, v, acc =>
    if v < 10 then BitVec.ofNat 8 (48 + v) :: acc
    else decimalOnto fuel (v / 10) (BitVec.ofNat 8 (48 + v % 10) :: acc)

/-- decimal(v) (R172). 20 digits hold every Word, since 2^64 < 10^20. -/
def decimal (v : Word) : List Byte := decimalOnto 20 v.toNat []

/-- OUT_NUM (R172). -/
def execOutNum (s : State) : Host.Outcome State Fault Refusal :=
  finish s (unary (fun v s => emit (decimal v ++ s.cfg.outNumSuffix) s) s)

/-- OUT_CHAR (R173): emits v[7:0]. -/
def execOutChar (s : State) : Host.Outcome State Fault Refusal :=
  finish s (unary (fun v s => emit [v.truncate 8] s) s)

/-- IN_NUM (R174): the value is consumed before the push is checked. -/
def execInNum (s : State) : Host.Outcome State Fault Refusal := finish s ((takeInput s).bind push)

/-- IN_CHAR (R175): the host gives a byte zero-extended, or any Word at end of input (D29); the engine pushes it. -/
def execInChar (s : State) : Host.Outcome State Fault Refusal := finish s ((takeInput s).bind push)

end Sys2Proof.Machine
end

