-- ==== Sys2Proof/Machine/Jump.lean ====
section
/-! DEFINITION. JMP, JZ, JNZ (48_jump.md): absolute targets, taken without a check (R183). -/

namespace Sys2Proof.Machine

/-- JMP (R180). -/
def execJmp (target : Word) (s : State) : Host.Outcome State Fault Refusal := finish s (.ok () (jumpTo target s))

/-- JZ (R181): the condition is consumed either way. -/
def execJz (target : Word) (s : State) : Host.Outcome State Fault Refusal :=
  finish s (unary (fun c s => .ok () (if c = 0#64 then jumpTo target s else s)) s)

/-- JNZ (R182): the condition is consumed either way. -/
def execJnz (target : Word) (s : State) : Host.Outcome State Fault Refusal :=
  finish s (unary (fun c s => .ok () (if c ≠ 0#64 then jumpTo target s else s)) s)

end Sys2Proof.Machine
end

