-- ==== Sys2Proof/Machine/LoadStore.lean ====
section
/-! DEFINITION. LOAD_CONST.s, LOAD.s, STORE.s (41_load_store.md). -/

namespace Sys2Proof.Machine

/-- LOAD_CONST.s (R110). -/
def execLoadConst (n : Size) (imm : Word) (s : State) : Host.Outcome State Fault Refusal :=
  finish s (push (constOperand n imm) s)

/-- LOAD.s (R111): the address check comes before the push (D20). -/
def execLoad (n : Size) (addr : Word) (s : State) : Host.Outcome State Fault Refusal :=
  finish s ((memRead addr n s).bind push)

/-- STORE.s (R112): the address check comes before the pop (D20). -/
def execStore (n : Size) (addr : Word) (s : State) : Host.Outcome State Fault Refusal :=
  finish s ((checkBounds s.cfg.memCap addr n s).bind fun _ s => (pop s).bind fun v s => memWrite addr n v s)

end Sys2Proof.Machine
end

