-- ==== Sys2Proof/Machine/Stack.lean ====
section
/-! DEFINITION. POP, DUP, SWAP (43_stack.md). -/

namespace Sys2Proof.Machine

/-- POP (R130). -/
def execPop (s : State) : Host.Outcome State Fault Refusal := finish s (unary (fun _ s => .ok () s) s)

/-- DUP (R131): Peek, then Push. -/
def execDup (k : Word) (s : State) : Host.Outcome State Fault Refusal := finish s ((peek k s).bind push)

/-- SWAP (R132). -/
def execSwap (k : Word) (s : State) : Host.Outcome State Fault Refusal := finish s (swapTop k s)

end Sys2Proof.Machine
end

