-- ==== Sys2Proof/Machine/Dispatch.lean ====
section
/-! DEFINITION. The execute stage: the meaning of each instruction (files 40 to 49 of spec/), run on the state in which
its opcode and immediate have been fetched (00_scope.md R15). -/

namespace Sys2Proof.Machine

def exec (i : Instr) (s : State) : Host.Outcome State Fault Refusal :=
  match i with
  -- control (40_control.md)
  | .done => Sys2Proof.Machine.execDone s
  | .popRes => Sys2Proof.Machine.execPopRes s
  | .abort => Sys2Proof.Machine.execAbort s
  -- size-qualified load/store (41_load_store.md)
  | .loadConst n imm => Sys2Proof.Machine.execLoadConst n imm s
  | .load n addr => Sys2Proof.Machine.execLoad n addr s
  | .store n addr => Sys2Proof.Machine.execStore n addr s
  -- frame-relative load/store (42_frame_load_store.md)
  | .loadFrame n off => Sys2Proof.Machine.execLoadFrame n off s
  | .storeFrame n off => Sys2Proof.Machine.execStoreFrame n off s
  -- stack manipulation (43_stack.md)
  | .pop => Sys2Proof.Machine.execPop s
  | .dup k => Sys2Proof.Machine.execDup k s
  | .swap k => Sys2Proof.Machine.execSwap k s
  -- arithmetic (44_arithmetic.md)
  | .add => Sys2Proof.Machine.execAdd s
  | .sub => Sys2Proof.Machine.execSub s
  | .mul => Sys2Proof.Machine.execMul s
  | .div => Sys2Proof.Machine.execDiv s
  | .mod => Sys2Proof.Machine.execMod s
  | .neg => Sys2Proof.Machine.execNeg s
  -- bitwise (45_bitwise.md)
  | .bitAnd => Sys2Proof.Machine.execBitAnd s
  | .bitOr => Sys2Proof.Machine.execBitOr s
  | .bitXor => Sys2Proof.Machine.execBitXor s
  | .bitNot => Sys2Proof.Machine.execBitNot s
  | .shl => Sys2Proof.Machine.execShl s
  | .shr => Sys2Proof.Machine.execShr s
  -- comparison (46_comparison.md)
  | .cmpEq => Sys2Proof.Machine.execCmpEq s
  | .cmpNe => Sys2Proof.Machine.execCmpNe s
  | .cmpLt => Sys2Proof.Machine.execCmpLt s
  | .cmpLe => Sys2Proof.Machine.execCmpLe s
  | .cmpGt => Sys2Proof.Machine.execCmpGt s
  | .cmpGe => Sys2Proof.Machine.execCmpGe s
  -- input and output (47_io.md)
  | .outNum => Sys2Proof.Machine.execOutNum s
  | .outChar => Sys2Proof.Machine.execOutChar s
  | .inNum => Sys2Proof.Machine.execInNum s
  | .inChar => Sys2Proof.Machine.execInChar s
  -- jump (48_jump.md)
  | .jmp target => Sys2Proof.Machine.execJmp target s
  | .jz target => Sys2Proof.Machine.execJz target s
  | .jnz target => Sys2Proof.Machine.execJnz target s
  -- call and return (49_call_return.md)
  | .call desc => Sys2Proof.Machine.execCall desc s
  | .ret => Sys2Proof.Machine.execRet s

end Sys2Proof.Machine
end

