-- ==== Sys2Proof/Machine/Fetch.lean ====
section
/-! DEFINITION. Fetch and decode of one instruction (30_encoding.md R80, R82). -/

namespace Sys2Proof.Machine

/-- ip <- ip + n, after n bytes were read at ip (R80, R82, D43). -/
def advance (n : Nat) (s : State) : State := { s with ip := s.ip + BitVec.ofNat 64 n }

/-- FetchImm(n) (R82). -/
def fetchImm (n : Size) (s : State) : Res Word :=
  (memRead s.ip n s).bind fun v s => .ok v (advance n.bytes s)

/-- FetchDecode() up to the execute stage (R80): latch the opcode's address, read the opcode, look it up, fetch the
immediate its operand fetch mode asks for. -/
def fetchDecode (s : State) : Res Instr :=
  (memRead s.ip .s1 { s with faultAddr := s.ip }).bind fun opWord s =>
    let s := advance 1 s
    let op : Byte := opWord.truncate 8
    match lookupOpcode s.cfg.decodeTable op with
    | none => .raise .unknownOpcode opWord s
    | some row =>
      match row.immSize with
      | none => .ok (row.instr 0#64) s
      | some n => (fetchImm n s).bind fun imm s => .ok (row.instr imm) s

/-- The Memory a program word is placed in: the bytes from ip on, as far as Memory reaches. -/
def placeAtIp (bytes : List Byte) (s : State) : State :=
  { s with mem := cellsWrite s.mem s.ip.toNat (bytes.take (s.cfg.memCap - s.ip.toNat)) }

end Sys2Proof.Machine
end

