-- ==== Sys2Proof/Machine/Lifecycle.lean ====
section
/-! DEFINITION. The host commands (60_exceptions.md R230 to R235; 70_reset_and_hazards.md R242 to R248). RUN is hostRun of
Machine/Ops.lean; CONSTRUCT is State.construct. -/

namespace Sys2Proof.Machine

/-- The host port answers. -/
def answer (r : HostReply) (s : State) : State := { s with replies := s.replies ++ [r] }

/-- LOAD(P) (R243): refused, with no state changed, when the program is longer than Memory (D41); else the program is
copied to address 0 and the registers and the status are reset. -/
def hostLoad (program : List Byte) (s : State) : State :=
  if program.length > s.cfg.memCap then answer .loadRefused s
  else
    answer .loaded { s with
      mem := cellsWrite s.mem 0 program
      ip := 0#64
      sp := 0#64
      fp := 0#64
      runState := .uninitialized
      cause := .none
      info := 0#64
      faultIp := 0#64
      msg := [] }

/-- CLEAR (R244): every Memory byte becomes 0, nothing else changes (D15). -/
def hostClear (s : State) : State := { s with mem := [] }

/-- STATUS (R233): no side effect on the engine. -/
def hostStatus (s : State) : State := answer (.status s.runState s.cause s.info s.faultIp s.msg) s

/-- REGS (R234): no side effect on the engine. -/
def hostRegs (s : State) : State := answer (.regs s.ip s.sp s.fp) s

/-- One host command on a stopped engine. TEARDOWN ends the engine's life (R248): no next state. -/
def hostExec (c : HostCmd) (s : State) : Host.Outcome State Fault Refusal :=
  match c with
  | .load program => .next (hostLoad program s)
  | .clear => .next (hostClear s)
  | .run => .next (hostRun s)
  | .status => .next (hostStatus s)
  | .regs => .next (hostRegs s)
  | .teardown => .fault .tornDown

/-- What a stopped engine does: it carries out the host's next command, and with none it keeps all its state (R226). -/
def stoppedStep (s : State) : Host.Outcome State Fault Refusal :=
  match s.hostCmds with
  | [] => .next s
  | c :: rest => hostExec c { s with hostCmds := rest }

/-- The loader's exit status is non-zero exactly when STATE = HALT_FAILURE (R235). -/
def loaderExitsNonZero (s : State) : Bool := decide (s.runState = .haltFailure)

/-- The number of a cause code (R27, R210, D17). -/
def Cause.code : Cause → Nat
  | .none => 0
  | .stackOverflow => 1
  | .stackUnderflow => 2
  | .callStackOverflow => 3
  | .callStackUnderflow => 4
  | .outOfBounds => 5
  | .unknownOpcode => 6
  | .abort => 7
  | .divideByZero => 8
  | .shiftOutOfRange => 9

end Sys2Proof.Machine
end

