-- ==== Sys2Proof/Machine/Step.lean ====
section
/-! DEFINITION. One step of the machine (70_reset_and_hazards.md R240): one whole instruction while STATE = RUNNING, one
host command, or nothing, while it is stopped. -/

namespace Sys2Proof.Machine

/-- One step. A running engine fetches, decodes and executes one instruction, atomically (R240); a fault of the fetch
and decode stages is taken like any other (R214, R217). A stopped one waits for its host (R226, R230). -/
def step (s : State) : Host.Outcome State Fault Refusal :=
  if s.runState = .running then
    match fetchDecode s with
    | .ok i t => exec i t
    | .raise c info t => .next (takeFault c info t)
    | .hold => .next s
    | .stop f => .fault f
  else stoppedStep s

/-- s with the instruction whose bits are the low nbits of w placed at ip, and RUNNING, so that the next step runs it:
what LOAD of a program and RUN come to (notes/assumptions/11.md). -/
def State.withFetchWord (s : State) (nbits w : Nat) : State :=
  hostRun (placeAtIp (tableWordBytes nbits w) s)

end Sys2Proof.Machine
end

