-- ==== Sys2Proof/Safety.lean ====
section
/-! DEFINITION. The terms claims use: the invariant of the reachable states, and an outcome that is a fault entry. -/

namespace Sys2Proof.Machine

/-- What holds of every state a run from construction reaches. -/
structure StateInv (s : State) : Prop where
  /-- The parameters are in R9's ranges. -/
  cfgWf : s.cfg.wf = true
  /-- Memory is in canonical form and lies below MEM_CAP (R38). -/
  memWf : Memory.wf s.mem = true
  memBelow : cellsBelow s.cfg.memCap s.mem = true
  /-- The Call Stack is in canonical form and lies below CS_CAP (R36). -/
  csWf : Memory.wf s.cs = true
  csBelow : cellsBelow s.cfg.csCap s.cs = true
  /-- So are the marks of its written bytes. -/
  writtenWf : cellsWf s.csWritten = true
  writtenBelow : cellsBelow s.cfg.csCap s.csWritten = true
  /-- The Operand Stack's cells are in canonical form and lie below OS_CAP (R30). -/
  osWf : cellsWf s.os = true
  osBelow : cellsBelow s.cfg.osCap s.os = true
  /-- "0 ≤ sp ≤ OS_CAP in every reachable state" (R22). -/
  spLe : s.sp.toNat ≤ s.cfg.osCap
  /-- "0 ≤ fp ≤ CS_CAP in every reachable state" (R23). -/
  fpLe : s.fp.toNat ≤ s.cfg.csCap
  /-- MSG is "a byte string of at most MSG_CAP bytes" (R29). -/
  msgLe : s.msg.length ≤ s.cfg.msgCap
  /-- With no fault recorded, INFO, FAULT_IP and MSG have their construction and LOAD values (R28, R29, R41). -/
  statusClear : s.cause = .none → s.info = 0#64 ∧ s.faultIp = 0#64 ∧ s.msg = []

/-- The outcome o is the fault entry of cause c with INFO = info from s (R214): STATE, CAUSE, INFO and FAULT_IP are
written, MSG is some text of at most MSG_CAP bytes, and nothing else of s changes. (msgDraws counts the texts.) -/
def FaultsFrom (o : Host.Outcome State Fault Refusal) (c : Cause) (info : Word) (s : State) : Prop :=
  ∃ text : List Byte, text.length ≤ s.cfg.msgCap ∧
    o = .next { s with
      runState := .haltFailure
      cause := c
      info := info
      faultIp := s.faultAddr
      msg := text
      msgDraws := s.msgDraws + 1 }

/-- The outcome o is s held in its instruction (R171, R236): ip is back at the opcode, nothing else changes. -/
def HeldFrom (o : Host.Outcome State Fault Refusal) (s : State) : Prop := o = .next { s with ip := s.faultAddr }

end Sys2Proof.Machine
end

