-- ==== Sys2Proof/Certificates/Slice0/Obligations.lean ====
section
/-! DEFINITION. The statements for the provers, one def Obligations.<Name> each, from the numbered rules of spec/. The
terms they share stand first, in namespace Sys2Proof.Claims.

A statement of an instruction's result gives the WHOLE next state as an update of the state before, so what the update
does not name is unchanged: that is the instruction's frame. exec runs the execute stage, on a state whose ip already
stands behind the instruction (00_scope.md R15, R21). -/

namespace Sys2Proof.Claims

open Sys2Proof.Machine

/-- The byte of the low n bytes of v that lies i places after their lowest address: v[8i+7 : 8i] in little-endian order,
R9's value of BYTE_ORDER (R50, R54, R57). -/
def byteOf (o : ByteOrder) (n : Nat) (v : Word) (i : Nat) : Byte := v.extractLsb' (8 * o.place n i) 8

/-- The value of the n bytes from a on: Σ_{i<n} c[a + i] · 2^(8i) in little-endian order (R53, R56). -/
def valueAt (o : ByteOrder) (c : Memory) (a n : Nat) : Nat :=
  ((List.range n).map fun i => (cellGet c (a + i)).toNat * 2 ^ (8 * o.place n i)).sum

/-- The n bytes from a on are the low n bytes of v (R54, R57), and every other byte is as in c. -/
def BytesStored (o : ByteOrder) (c c' : Memory) (a n : Nat) (v : Word) : Prop :=
  ∀ x, cellGet c' x = if a ≤ x ∧ x < a + n then byteOf o n v (x - a) else cellGet c x

/-- The bytes for which p holds are now marked as written, and the other marks are as in w. -/
def Marked (w w' : Marks) (p : Nat → Prop) : Prop := ∀ x, (p x → cellGet w' x = 1#1) ∧ (¬p x → cellGet w' x = cellGet w x)

/-- The 8 bytes from a on hold the Word v. -/
def WordAt (o : ByteOrder) (c : Memory) (a : Nat) (v : Word) : Prop := ∀ i, i < 8 → cellGet c (a + i) = byteOf o 8 v i

/-- CS_UNWRITTEN_READ lets n Call Stack bytes from a on be read: it is content, R9's value, or each of them has been
written since construction (D39). -/
def Readable (s : State) (a n : Nat) : Prop :=
  s.cfg.csUnwrittenRead = .content ∨ ∀ i, i < n → cellGet s.csWritten (a + i) = 1#1

/-- The size field ss of s = 2^ss (R81). -/
def ss : Size → Byte
  | .s1 => 0#8
  | .s2 => 1#8
  | .s4 => 2#8
  | .s8 => 3#8

/-- The Word k places below the top (R33), for k < sp. -/
def below (s : State) (k : Nat) : Word := cellGet s.os (s.sp.toNat - 1 - k)

/-- The state with one more Word on the Operand Stack (R31). -/
def withPushed (v : Word) (s : State) : State := { s with os := cellSet s.os s.sp.toNat v, sp := s.sp + 1#64 }

/-- The bytes of an operand of n bytes, in address order. -/
def operandBytes (o : ByteOrder) (n : Nat) (v : Word) : List Byte := (List.range n).map (byteOf o n v)

/-- An F0 instruction's encoding in R84's table: one byte, which decodes to it (R83). -/
def EncodedAsOne (i : Instr) (op : Byte) : Prop :=
  ∀ p : Params, p.decodeTable = decodeTable → encode p i = [op] ∧ decode p [op] = .ok i []

/-- The encoding in R84's table of an instruction with an immediate of n bytes: the opcode, then those bytes (R83). -/
def EncodedWith (n : Nat) (i : Instr) (op : Byte) (operand : Word) : Prop :=
  ∀ p : Params, p.decodeTable = decodeTable →
    encode p i = op :: operandBytes p.byteOrder n operand ∧
      decode p (op :: operandBytes p.byteOrder n operand) = .ok i []

/-- An FW instruction's encoding (R83). -/
def EncodedWithWord (i : Instr) (op : Byte) (operand : Word) : Prop := EncodedWith 8 i op operand

/-- With sp = 0 a binary operator's first Pop raises; with sp = 1 the second does and the popped Word is lost
(44_arithmetic.md, common corner case). -/
def BinaryUnderflows (i : Instr) : Prop :=
  (∀ s : State, s.sp.toNat = 0 → FaultsFrom (exec i s) .stackUnderflow 0#64 s) ∧
  (∀ s : State, s.sp.toNat = 1 → FaultsFrom (exec i s) .stackUnderflow 0#64 { s with sp := 0#64 })

/-- With sp = 0 the one Pop raises. -/
def PopUnderflows (i : Instr) : Prop :=
  ∀ s : State, s.sp.toNat = 0 → FaultsFrom (exec i s) .stackUnderflow 0#64 s

/-- A binary operator: its encoding; b is the top and a the Word below it, both are popped and f a b is pushed (R16);
its underflows. good says for which operands it has a result. -/
def BinaryRule (i : Instr) (op : Byte) (good : Nat → Nat → Prop) (f : Nat → Nat → Nat) : Prop :=
  EncodedAsOne i op ∧ BinaryUnderflows i ∧
  ∀ s : State, 2 ≤ s.sp.toNat → s.sp.toNat ≤ s.cfg.osCap → good (below s 1).toNat (below s 0).toNat →
    exec i s = .next { s with
      sp := s.sp - 1#64
      os := cellSet s.os (s.sp.toNat - 2) (BitVec.ofNat 64 (f (below s 1).toNat (below s 0).toNat)) }

/-- A unary operator: its encoding, its result in place of its operand, its underflow. -/
def UnaryRule (i : Instr) (op : Byte) (f : Nat → Nat) : Prop :=
  EncodedAsOne i op ∧ PopUnderflows i ∧
  ∀ s : State, 1 ≤ s.sp.toNat → s.sp.toNat ≤ s.cfg.osCap →
    exec i s = .next { s with os := cellSet s.os (s.sp.toNat - 1) (BitVec.ofNat 64 (f (below s 0).toNat)) }

/-- A binary operator's own fault, raised after both pops: its cause, its INFO as a function of the right operand, and
for which right operands. -/
def OperandFaults (i : Instr) (c : Cause) (info : Word → Word) (bad : Word → Prop) : Prop :=
  ∀ s : State, 2 ≤ s.sp.toNat → bad (below s 0) → FaultsFrom (exec i s) c (info (below s 0)) { s with sp := s.sp - 2#64 }

/-- The immediate of an instruction whose opcode byte lies in Memory but whose n immediate bytes do not all lie there:
the fetch raises OutOfBounds at the first immediate byte (R82). -/
def ImmediateFetchFaults (op : Byte) (n : Nat) : Prop :=
  ∀ s : State, s.cfg.wf = true → s.cfg.decodeTable = decodeTable → s.runState = .running →
    s.ip.toNat < s.cfg.memCap → cellGet s.mem s.ip.toNat = op → s.ip.toNat + 1 + n > s.cfg.memCap →
    FaultsFrom (step s) .outOfBounds (s.ip + 1#64) { s with faultAddr := s.ip, ip := s.ip + 1#64 }

/-- The bytes a fetch at ip can read: up to nine, as far as Memory reaches. -/
def bytesAtIp (s : State) : List Byte := cellsRead s.mem s.ip.toNat (min 9 (s.cfg.memCap - s.ip.toNat))

/-- The byte values R89 lists. -/
abbrev illegalByte (n : Nat) : Prop :=
  (0x03 ≤ n ∧ n ≤ 0x0F) ∨ (0x1C ≤ n ∧ n ≤ 0x1F) ∨ (0x28 ≤ n ∧ n ≤ 0x2F) ∨ (0x33 ≤ n ∧ n ≤ 0x3F) ∨
  (0x46 ≤ n ∧ n ≤ 0x4F) ∨ (0x56 ≤ n ∧ n ≤ 0x5F) ∨ (0x66 ≤ n ∧ n ≤ 0x6F) ∨ (0x74 ≤ n ∧ n ≤ 0x7F) ∨
  (0x83 ≤ n ∧ n ≤ 0xCF) ∨ (0xD2 ≤ n ∧ n ≤ 0xFF)

/-- Push a list of Words in order (R31). -/
def pushAll : List Word → State → Res Unit
  | [], s => .ok () s
  | v :: vs, s => (push v s).bind fun _ t => pushAll vs t

/-- Pop n Words, the first popped first (R32). -/
def popAll : Nat → State → Res (List Word)
  | 0, s => .ok [] s
  | n + 1, s => (pop s).bind fun v t => (popAll n t).bind fun vs u => .ok (v :: vs) u

/-- The text of v in base 10 (R172): "0" for 0, else its digits, most significant first. -/
def decimalText (v : Word) : List Byte :=
  if v.toNat = 0 then [0x30#8] else (Nat.digits 10 v.toNat).reverse.map fun d => BitVec.ofNat 8 (0x30 + d)

/-- The number STATE_ORDINAL gives a run state (R9, R26). -/
def ordinalOf (o : StateOrdinals) : RunState → Word
  | .running => o.running
  | .haltSuccess => o.haltSuccess
  | .haltFailure => o.haltFailure
  | .uninitialized => o.uninitialized
  | .unknown => o.unknown

/-- The run state POP_RES adopts at R9's values of STATE_ORDINAL (R101). -/
def adopts (n : Nat) : RunState :=
  if n = 0 then .running
  else if n = 1 then .haltSuccess
  else if n = 2 then .haltFailure
  else if n = 3 then .uninitialized
  else .unknown

/-- The frame of R190 at base: arguments, arg_num, local_size and return_address in their places. -/
def FrameAt (o : ByteOrder) (c : Memory) (base : Nat) (n l : Word) (args : Nat → Word) (r : Word) : Prop :=
  (∀ i, i < n.toNat → WordAt o c (base + 8 * i) (args i)) ∧
  WordAt o c (base + 8 * n.toNat) n ∧
  WordAt o c (base + 8 * n.toNat + 8 + l.toNat) l ∧
  WordAt o c (base + 8 * n.toNat + 16 + l.toNat) r

/-- FS(n, L) (R190). -/
def frameBytes (n l : Word) : Nat := 8 * n.toNat + l.toNat + 24

/-- The local bytes of the frame of R190 at base. -/
def InLocals (base : Nat) (n l : Word) (a : Nat) : Prop :=
  base + 8 * n.toNat + 8 ≤ a ∧ a < base + 8 * n.toNat + 8 + l.toNat

/-- The bytes of that frame other than its locals: those PushFrame writes (R192). -/
def InFrameFields (base : Nat) (n l : Word) (a : Nat) : Prop :=
  base ≤ a ∧ a < base + frameBytes n l ∧ ¬InLocals base n l a

/-- The Function Descriptor (n, l, c) at address d (R191). -/
def DescriptorAt (s : State) (d n l c : Word) : Prop :=
  WordAt s.cfg.byteOrder s.mem d.toNat n ∧ WordAt s.cfg.byteOrder s.mem (d.toNat + 8) l ∧
    WordAt s.cfg.byteOrder s.mem (d.toNat + 16) c

/-- CALL completes (R192 to R194): the descriptor lies in Memory, the frame fits, and the arguments are there. -/
def CallCompletes : Prop :=
  ∀ (s : State) (d n l c : Word), StateInv s → d.toNat + 24 ≤ s.cfg.memCap → DescriptorAt s d n l c →
    s.fp.toNat + frameBytes n l ≤ s.cfg.csCap → n.toNat ≤ s.sp.toNat →
    ∃ (cs' : Memory) (w' : Marks),
      exec (.call d) s = .next { s with
        ip := c
        sp := s.sp - n
        fp := BitVec.ofNat 64 (s.fp.toNat + frameBytes n l)
        cs := cs'
        csWritten := w' } ∧
      FrameAt s.cfg.byteOrder cs' s.fp.toNat n l (fun i => cellGet s.os (s.sp.toNat - n.toNat + i)) s.ip ∧
      (∀ a, ¬InFrameFields s.fp.toNat n l a → cellGet cs' a = cellGet s.cs a) ∧
      Marked s.csWritten w' (InFrameFields s.fp.toNat n l)

/-- CALL's descriptor does not lie in Memory: OutOfBounds at the first Word that does not fit (R194). -/
def CallDescriptorFaults : Prop :=
  ∀ (s : State) (d : Word), StateInv s →
    (d.toNat + 8 > s.cfg.memCap → FaultsFrom (exec (.call d) s) .outOfBounds d s) ∧
    (d.toNat + 8 ≤ s.cfg.memCap → d.toNat + 16 > s.cfg.memCap →
      FaultsFrom (exec (.call d) s) .outOfBounds (d + 8#64) s) ∧
    (d.toNat + 16 ≤ s.cfg.memCap → d.toNat + 24 > s.cfg.memCap →
      FaultsFrom (exec (.call d) s) .outOfBounds (d + 16#64) s)

/-- CALL's frame does not fit: CallStackOverflow, nothing popped or written (R192, D21). -/
def CallFrameFaults : Prop :=
  ∀ (s : State) (d n l c : Word), StateInv s → d.toNat + 24 ≤ s.cfg.memCap → DescriptorAt s d n l c →
    s.fp.toNat + frameBytes n l > s.cfg.csCap →
    FaultsFrom (exec (.call d) s) .callStackOverflow (BitVec.ofNat 64 (frameBytes n l)) s

/-- CALL finds too few arguments: StackUnderflow after the sp Words there are were popped, the i-th of them written to
slot n − 1 − i, and fp unchanged (R192, R194). -/
def CallArgumentFaults : Prop :=
  ∀ (s : State) (d n l c : Word), StateInv s → d.toNat + 24 ≤ s.cfg.memCap → DescriptorAt s d n l c →
    s.fp.toNat + frameBytes n l ≤ s.cfg.csCap → s.sp.toNat < n.toNat →
    ∃ (cs' : Memory) (w' : Marks),
      FaultsFrom (exec (.call d) s) .stackUnderflow 0#64 { s with sp := 0#64, cs := cs', csWritten := w' } ∧
      (∀ i, i < s.sp.toNat →
        WordAt s.cfg.byteOrder cs' (s.fp.toNat + 8 * (n.toNat - 1 - i)) (cellGet s.os (s.sp.toNat - 1 - i))) ∧
      (∀ a, (a < s.fp.toNat + 8 * (n.toNat - s.sp.toNat) ∨ s.fp.toNat + 8 * n.toNat ≤ a) →
        cellGet cs' a = cellGet s.cs a) ∧
      Marked s.csWritten w' fun a =>
        s.fp.toNat + 8 * (n.toNat - s.sp.toNat) ≤ a ∧ a < s.fp.toNat + 8 * n.toNat

/-- The Operand Stack cells an instruction may write, by index: the one a push gives its Word, or the two SWAP
exchanges (R31, R34). -/
def WritesOs (i : Instr) (s : State) (x : Nat) : Prop :=
  match i with
  | .loadConst _ _ | .load _ _ | .loadFrame _ _ | .dup _ | .inNum | .inChar => x = s.sp.toNat
  | .neg | .bitNot => x = s.sp.toNat - 1
  | .add | .sub | .mul | .div | .mod | .bitAnd | .bitOr | .bitXor | .shl | .shr
  | .cmpEq | .cmpNe | .cmpLt | .cmpLe | .cmpGt | .cmpGe => x = s.sp.toNat - 2
  | .swap k => x = s.sp.toNat - 1 ∨ x = s.sp.toNat - 1 - k.toNat
  | .done | .popRes | .abort | .store _ _ | .storeFrame _ _ | .pop | .outNum | .outChar | .jmp _ | .jz _ | .jnz _
  | .call _ | .ret => False

/-- The Memory bytes an instruction may write, by address: STORE.s its s bytes (R112). -/
def WritesMem (i : Instr) (x : Nat) : Prop := ∃ n a, i = .store n a ∧ a.toNat ≤ x ∧ x < a.toNat + n.bytes

/-- The Call Stack bytes an instruction may write, by address: STORE_FRAME.s the s bytes at fp − off (R121), CALL the
frame from fp on of the size its descriptor gives, but for the locals (R192). -/
def WritesCs (i : Instr) (s : State) (x : Nat) : Prop :=
  (∃ n off, i = .storeFrame n off ∧ s.fp.toNat - off.toNat ≤ x ∧ x < s.fp.toNat - off.toNat + n.bytes) ∨
  ∃ d n l c, i = .call d ∧ DescriptorAt s d n l c ∧ InFrameFields s.fp.toNat n l x

/-- The instructions that push or pop (R25). -/
def MovesSp (i : Instr) : Prop := i ≠ .done ∧ i ≠ .abort ∧ i ≠ .ret ∧ ∀ k, i ≠ .swap k ∧ i ≠ .jmp k

/-- Two states that agree in everything but the Operand Stack cells at and above sp (R33). -/
def AgreeBelowSp (s t : State) : Prop :=
  t = { s with os := t.os } ∧ ∀ i, i < s.sp.toNat → cellGet t.os i = cellGet s.os i

end Sys2Proof.Claims

open Sys2Proof Sys2Proof.Machine Sys2Proof.Claims

/-! ### Encoding and decoding -/

/-- R91: the twelve encodings of its table, at R9's values of the parameters, decode to the instructions they are listed
for, and those encode to them. -/
def Obligations.SpecExampleEncodings : Prop :=
  ∀ p ∈ ([(.loadConst .s1 0x2A#64, [0x10#8, 0x2A#8]),
      (.loadConst .s2 0x1234#64, [0x11#8, 0x34#8, 0x12#8]),
      (.loadConst .s4 0xDEADBEEF#64, [0x12#8, 0xEF#8, 0xBE#8, 0xAD#8, 0xDE#8]),
      (.loadConst .s8 1#64, [0x13#8, 0x01#8, 0#8, 0#8, 0#8, 0#8, 0#8, 0#8, 0#8]),
      (.load .s4 0x100#64, [0x16#8, 0x00#8, 0x01#8, 0#8, 0#8, 0#8, 0#8, 0#8, 0#8]),
      (.store .s1 0x40#64, [0x18#8, 0x40#8, 0#8, 0#8, 0#8, 0#8, 0#8, 0#8, 0#8]),
      (.loadFrame .s8 32#64, [0x23#8, 0x20#8, 0#8, 0#8, 0#8, 0#8, 0#8, 0#8, 0#8]),
      (.dup 0#64, [0x31#8, 0#8, 0#8, 0#8, 0#8, 0#8, 0#8, 0#8, 0#8]),
      (.add, [0x40#8]),
      (.jz 0x2D#64, [0x81#8, 0x2D#8, 0#8, 0#8, 0#8, 0#8, 0#8, 0#8, 0#8]),
      (.call 0x80#64, [0xD0#8, 0x80#8, 0#8, 0#8, 0#8, 0#8, 0#8, 0#8, 0#8]),
      (.ret, [0xD1#8])] : List (Instr × List Byte)),
    decode initialParams p.2 = .ok p.1 [] ∧ encode initialParams p.1 = p.2 ∧ p.1.length = p.2.length

/-- Decoding an encoded well-formed instruction gives it back, with the bytes that follow it, whatever they are: for
either byte order and every admissible decode table that has the instruction (R9, D3). R84's table is one, and has them
all (notes/assumptions/10.md). -/
def Obligations.DecodeOfEncode : Prop :=
  decodeTable.wf = true ∧ (∀ i : Instr, decodeTable.has i = true) ∧
  ∀ (p : Params) (i : Instr) (rest : List Byte), p.decodeTable.wf = true → p.decodeTable.has i = true → i.wf = true →
    decode p (encode p i ++ rest) = .ok i rest

/-- The other direction: what decodes is well-formed, and its encoding is the bytes read; so no two byte strings of the
same length decode to one instruction, and an instruction's length is the count of the bytes read. -/
def Obligations.EncodeOfDecode : Prop :=
  ∀ (p : Params) (bytes rest : List Byte) (i : Instr), p.decodeTable.wf = true → decode p bytes = .ok i rest →
    i.wf = true ∧ encode p i ++ rest = bytes ∧ bytes.length = i.length + rest.length

/-- R81: in the opcodes 0x10 to 0x1B and 0x20 to 0x27 the low two bits give s = 2^ss, and every one of them decodes. -/
def Obligations.SizeQualifierSelectsWidth : Prop :=
  ∀ (p : Params) (op : Byte) (operand : List Byte), p.decodeTable = decodeTable →
    (0x10 ≤ op.toNat ∧ op.toNat ≤ 0x1B) ∨ (0x20 ≤ op.toNat ∧ op.toNat ≤ 0x27) → 8 ≤ operand.length →
    ∃ i rest, decode p (op :: operand) = .ok i rest ∧ i.size.bytes = 2 ^ (op.toNat % 4)

/-- R89: the bytes it lists, 203 values, are exactly those without a row; fetching one raises UnknownOpcode with
INFO = the byte, after ip has advanced past it. -/
def Obligations.IllegalBytesFault : Prop :=
  (∀ op : Byte, lookupOpcode decodeTable op = none ↔ illegalByte op.toNat) ∧
  ((List.range 256).filter fun n => (lookupOpcode decodeTable (BitVec.ofNat 8 n)).isNone).length = 203 ∧
  ∀ s : State, s.cfg.decodeTable = decodeTable → s.runState = .running → s.ip.toNat < s.cfg.memCap →
    illegalByte (cellGet s.mem s.ip.toNat).toNat →
    FaultsFrom (step s) .unknownOpcode ((cellGet s.mem s.ip.toNat).setWidth 64)
      { s with faultAddr := s.ip, ip := s.ip + 1#64 }

/-- R80 and R82: a step of a running engine decodes the bytes at ip and runs the instruction they hold, with FAULT_ADDR
the opcode's address and ip behind the instruction; with no opcode byte in Memory it raises OutOfBounds(ip) and leaves
ip; an illegal opcode raises UnknownOpcode(op) with ip advanced by one; an immediate that does not lie in Memory raises
OutOfBounds at its first byte, where ip is left. -/
def Obligations.StepRunsTheDecodedInstruction : Prop :=
  ∀ s : State, s.cfg.wf = true → s.runState = .running →
    (∀ i rest, decode s.cfg (bytesAtIp s) = .ok i rest →
      i.wf = true ∧ step s = exec i { s with faultAddr := s.ip, ip := s.ip + BitVec.ofNat 64 i.length }) ∧
    (decode s.cfg (bytesAtIp s) = .noOpcode → FaultsFrom (step s) .outOfBounds s.ip { s with faultAddr := s.ip }) ∧
    (∀ op, decode s.cfg (bytesAtIp s) = .unknownOpcode op →
      FaultsFrom (step s) .unknownOpcode (op.setWidth 64) { s with faultAddr := s.ip, ip := s.ip + 1#64 }) ∧
    (∀ row, decode s.cfg (bytesAtIp s) = .truncated row →
      FaultsFrom (step s) .outOfBounds (s.ip + 1#64) { s with faultAddr := s.ip, ip := s.ip + 1#64 })

/-! ### Construction, the host's commands, the invariant -/

/-- R242: what CONSTRUCT leaves, for every choice of the parameters, MEM_INIT and CS_INIT; no Call Stack byte is written
yet (D39; the marks csWritten are the model's, notes/assumptions/17.md). -/
def Obligations.ConstructionState : Prop :=
  ∀ (cfg : Params) (memInit csInit : Memory), ∃ s : State, s = State.construct cfg memInit csInit ∧
    s.cfg = cfg ∧ s.ip = 0#64 ∧ s.sp = 0#64 ∧ s.fp = 0#64 ∧ s.runState = .uninitialized ∧ s.cause = .none ∧
    s.info = 0#64 ∧ s.faultIp = 0#64 ∧ s.msg = [] ∧ s.mem = memInit ∧ s.cs = csInit ∧
    s.csWritten = [] ∧ s.out = [] ∧ s.inPos = 0

/-- The reset state, and every construction in the ranges of R9, meets the invariant. The reset state's capacities and
buffers are the model's choice (notes/assumptions/2.md, 3.md). -/
def Obligations.ConstructionMeetsInvariant : Prop :=
  StateInv State.reset ∧
  ∀ (cfg : Params) (memInit csInit : Memory), cfg.wf = true →
    Memory.wf memInit = true → cellsBelow cfg.memCap memInit = true →
    Memory.wf csInit = true → cellsBelow cfg.csCap csInit = true → StateInv (State.construct cfg memInit csInit)

/-- The invariant of Safety.lean is kept by every step, of a running and of a stopped engine: canonical buffers within
their capacities, sp ≤ OS_CAP (R22), fp ≤ CS_CAP (R23), MSG within MSG_CAP (R29), no status without a fault. The canonical form is the
model's (notes/assumptions/3.md), and so are the marks csWritten (17.md). -/
def Obligations.StepKeepsInvariant : Prop :=
  ∀ s t : State, StateInv s → step s = .next t → StateInv t

/-- R243: LOAD copies the program to address 0 and resets the registers and the status, leaving the other Memory bytes
and everything else; a program longer than Memory is refused and changes nothing. The command queue and the port's
replies are the model's (notes/assumptions/8.md). -/
def Obligations.LoadCommand : Prop :=
  ∀ (s : State) (p : List Byte) (rest : List HostCmd), s.runState ≠ .running → s.hostCmds = .load p :: rest →
    (p.length > s.cfg.memCap →
      step s = .next { s with hostCmds := rest, replies := s.replies ++ [.loadRefused] }) ∧
    (p.length ≤ s.cfg.memCap → Memory.wf s.mem = true →
      ∃ m' : Memory,
        step s = .next { s with
          hostCmds := rest, replies := s.replies ++ [.loaded]
          mem := m', ip := 0#64, sp := 0#64, fp := 0#64
          runState := .uninitialized, cause := .none, info := 0#64, faultIp := 0#64, msg := [] } ∧
        ∀ a, cellGet m' a = if h : a < p.length then p[a] else cellGet s.mem a)

/-- R244: CLEAR makes every Memory byte 0 and changes nothing else, and a second CLEAR changes nothing more. -/
def Obligations.ClearCommand : Prop :=
  ∀ (s : State) (rest : List HostCmd), s.runState ≠ .running → s.hostCmds = .clear :: rest →
    ∃ m' : Memory, step s = .next { s with hostCmds := rest, mem := m' } ∧ (∀ a, cellGet m' a = 0#8) ∧
      hostClear (hostClear s) = hostClear s

/-- R245: RUN sets STATE to RUNNING and writes nothing else, whatever ended the run before; execution then goes on at
the current ip. With no command a stopped engine keeps all its state (R226). -/
def Obligations.RunCommandAndIdle : Prop :=
  ∀ s : State, s.runState ≠ .running →
    (∀ rest, s.hostCmds = .run :: rest → step s = .next { s with hostCmds := rest, runState := .running }) ∧
    (s.hostCmds = [] → step s = .next s)

/-- R233, R234: STATUS and REGS read the status and the registers, without side effect. TEARDOWN leaves no state (R248;
notes/assumptions/9.md). -/
def Obligations.ReadPortsAndTeardown : Prop :=
  ∀ (s : State) (rest : List HostCmd), s.runState ≠ .running →
    (s.hostCmds = .status :: rest →
      step s = .next { s with
        hostCmds := rest
        replies := s.replies ++ [.status s.runState s.cause s.info s.faultIp s.msg] }) ∧
    (s.hostCmds = .regs :: rest →
      step s = .next { s with hostCmds := rest, replies := s.replies ++ [.regs s.ip s.sp s.fp] }) ∧
    (s.hostCmds = .teardown :: rest → step s = .fault .tornDown)

/-- R246: after CONSTRUCT, CLEAR and RUN, with no LOAD, the engine executes the zero byte at 0, which is DONE, and halts
in HALT_SUCCESS at once. -/
def Obligations.RunAfterClearHaltsAtOnce : Prop :=
  ∀ (cfg : Params) (memInit csInit : Memory), cfg.wf = true → cfg.decodeTable = decodeTable →
    ∃ t : State,
      Host.Core.run Sys2Proof.core 3 { State.construct cfg memInit csInit with hostCmds := [.clear, .run] } = .next t ∧
      t.runState = .haltSuccess ∧ t.ip = 1#64 ∧ t.cause = .none ∧ ∀ a, cellGet t.mem a = 0#8

/-! ### Bytes, buffers and stacks -/

/-- R50: in little-endian order, R9's value of BYTE_ORDER, byte i of encode(w) is w[8i+7 : 8i] and decode(e) is the
little-endian sum, and decode(encode(w)) = w. That these hold of the byte orders the model admits, and that the other
order is the same bytes from the other end, is the model's choice (DESIGN CHOICE, notes/assumptions/10.md). -/
def Obligations.WordCodec : Prop :=
  initialParams.byteOrder = .little ∧
  (∀ w : Word, ∀ i, i < 8 → (bytesOfWord .little 8 w)[i]? = some (w.extractLsb' (8 * i) 8)) ∧
  (∀ e : List Byte, e.length = 8 →
    (wordOfBytes .little e).toNat = ((List.range 8).map fun i => (e.getD i 0#8).toNat * 2 ^ (8 * i)).sum) ∧
  ∀ (o : ByteOrder) (w : Word), (bytesOfWord o 8 w).length = 8 ∧ wordOfBytes o (bytesOfWord o 8 w) = w ∧
    bytesOfWord .big 8 w = (bytesOfWord .little 8 w).reverse

/-- R53, R54, R56, R57: the four accessors. Beyond the capacity, in the natural numbers, each raises OutOfBounds(addr)
and changes nothing; otherwise a read gives the value of the bytes, little-endian at R9's value of BYTE_ORDER and
zero-extended, and a write stores the low n bytes and changes no other byte. Readable holds at R9's value of
CS_UNWRITTEN_READ; that a Call Stack write marks its bytes in csWritten is the model's choice (DESIGN CHOICE,
notes/assumptions/17.md). -/
def Obligations.AccessorContracts : Prop :=
  ∀ (s : State) (addr v : Word) (n : Size), Memory.wf s.mem = true → Memory.wf s.cs = true →
    cellsWf s.csWritten = true →
    (addr.toNat + n.bytes > s.cfg.memCap →
      memRead addr n s = .raise .outOfBounds addr s ∧ memWrite addr n v s = .raise .outOfBounds addr s) ∧
    (addr.toNat + n.bytes > s.cfg.csCap →
      csRead addr n s = .raise .outOfBounds addr s ∧ csWrite addr n v s = .raise .outOfBounds addr s) ∧
    (addr.toNat + n.bytes ≤ s.cfg.memCap →
      (∃ r : Word, memRead addr n s = .ok r s ∧ r.toNat = valueAt s.cfg.byteOrder s.mem addr.toNat n.bytes) ∧
      ∃ m' : Memory, memWrite addr n v s = .ok () { s with mem := m' } ∧
        BytesStored s.cfg.byteOrder s.mem m' addr.toNat n.bytes v) ∧
    (addr.toNat + n.bytes ≤ s.cfg.csCap →
      (Readable s addr.toNat n.bytes → ∃ r : Word, csRead addr n s = .ok r s ∧
        r.toNat = valueAt s.cfg.byteOrder s.cs addr.toNat n.bytes) ∧
      ∃ (c' : Memory) (w' : Marks), csWrite addr n v s = .ok () { s with cs := c', csWritten := w' } ∧
        BytesStored s.cfg.byteOrder s.cs c' addr.toNat n.bytes v ∧
        Marked s.csWritten w' fun x => addr.toNat ≤ x ∧ x < addr.toNat + n.bytes)

/-- R52: a read of n bytes at a, after a write of m bytes of v at w, gives for each byte it covers the byte the write
put there, or the earlier byte where the write did not reach; and a 1-byte read at w of an 8-byte value written there
gives, in little-endian order, its low byte. -/
def Obligations.MixedWidthReads : Prop :=
  ∀ (s t : State) (w a v : Word) (m n : Size), Memory.wf s.mem = true → memWrite w m v s = .ok () t →
    a.toNat + n.bytes ≤ s.cfg.memCap →
    ∃ r : Word, memRead a n t = .ok r t ∧ r.toNat < 2 ^ (8 * n.bytes) ∧
      (∀ i, i < n.bytes → byteOf s.cfg.byteOrder n.bytes r i =
        if w.toNat ≤ a.toNat + i ∧ a.toNat + i < w.toNat + m.bytes
        then byteOf s.cfg.byteOrder m.bytes v (a.toNat + i - w.toNat) else cellGet s.mem (a.toNat + i)) ∧
      (s.cfg.byteOrder = .little → m = .s8 → n = .s1 → a = w → r.toNat = v.toNat % 256)

/-- How the three buffers hold their cells: setting a cell of a canonical buffer keeps the form and changes that cell
alone, and canonical buffers that read alike at every index are equal data. -/
def Obligations.CanonicalBuffers : Prop :=
  ∀ (w : Nat) (c d : List (Nat × BitVec w)), cellsWf c = true → cellsWf d = true →
    (∀ a v, cellsWf (cellSet c a v) = true ∧ ∀ x, cellGet (cellSet c a v) x = if x = a then v else cellGet c x) ∧
    ((∀ x, cellGet c x = cellGet d x) → c = d)

/-- R31 to R34: Push, Pop, Peek and Swap, each with its fault and with the cells it changes. -/
def Obligations.StackPrimitives : Prop :=
  ∀ s : State, StateInv s →
    (∀ v, (s.sp.toNat = s.cfg.osCap → push v s = .raise .stackOverflow s.sp s) ∧
      (s.sp.toNat ≠ s.cfg.osCap →
        ∃ os' : StackCells, push v s = .ok () { s with os := os', sp := s.sp + 1#64 } ∧
          (s.sp + 1#64).toNat = s.sp.toNat + 1 ∧
          ∀ i, cellGet os' i = if i = s.sp.toNat then v else cellGet s.os i)) ∧
    (s.sp.toNat = 0 → pop s = .raise .stackUnderflow 0#64 s) ∧
    (1 ≤ s.sp.toNat → pop s = .ok (below s 0) { s with sp := s.sp - 1#64 }) ∧
    ∀ k : Word,
      (s.sp.toNat ≤ k.toNat →
        peek k s = .raise .stackUnderflow k s ∧ swapTop k s = .raise .stackUnderflow k s) ∧
      (k.toNat < s.sp.toNat → peek k s = .ok (below s k.toNat) s ∧
        ∃ os' : StackCells, swapTop k s = .ok () { s with os := os' } ∧
          ∀ i, cellGet os' i =
            if i = s.sp.toNat - 1 then below s k.toNat
            else if i = s.sp.toNat - 1 - k.toNat then below s 0 else cellGet s.os i)

/-- R35: pushes that do not exceed capacity, then as many pops, return the values in last-in-first-out order and restore
the depth and every cell below it. -/
def Obligations.StackIsLastInFirstOut : Prop :=
  ∀ (s : State) (vs : List Word), StateInv s → s.sp.toNat + vs.length ≤ s.cfg.osCap →
    ∃ os' : StackCells,
      (pushAll vs s).bind (fun _ t => popAll vs.length t) = .ok vs.reverse { s with os := os' } ∧
      ∀ i, i < s.sp.toNat → cellGet os' i = cellGet s.os i

/-- R33: the Operand Stack cells at and above sp are unobservable. Two states that agree in all else step alike, and
agree in all else again, the output trace and the status among it. -/
def Obligations.StaleStackCellsUnobservable : Prop :=
  ∀ s t : State, StateInv s → StateInv t → AgreeBelowSp s t →
    (∃ s' t' : State, step s = .next s' ∧ step t = .next t' ∧ AgreeBelowSp s' t') ∨
    ∃ f : Fault, step s = .fault f ∧ step t = .fault f

/-! ### Control family -/

/-- R100 and R102: DONE halts in HALT_SUCCESS and writes nothing else; ABORT always raises Abort(0). -/
def Obligations.DoneAndAbort : Prop :=
  EncodedAsOne .done 0x00#8 ∧ EncodedAsOne .abort 0x02#8 ∧
  ∀ s : State, exec .done s = .next { s with runState := .haltSuccess } ∧ FaultsFrom (exec .abort s) .abort 0#64 s

/-- R101: POP_RES pops a Word and adopts the run state whose ordinal it is, else UNKNOWN, and writes nothing else: for
every numbering STATE_ORDINAL may give (notes/assumptions/10.md), and at R9's values for 0, 1, 2, 3, 4 and any other
Word. -/
def Obligations.PopResAdoptsTheRunState : Prop :=
  EncodedAsOne .popRes 0x01#8 ∧ PopUnderflows .popRes ∧
  ∀ s : State, 1 ≤ s.sp.toNat → s.cfg.stateOrdinals.wf = true →
    ∃ r : RunState, exec .popRes s = .next { s with sp := s.sp - 1#64, runState := r } ∧
      (∀ q, below s 0 = ordinalOf s.cfg.stateOrdinals q → r = q) ∧
      ((∀ q, below s 0 ≠ ordinalOf s.cfg.stateOrdinals q) → r = .unknown) ∧
      (s.cfg.stateOrdinals = stateOrdinals → r = adopts (below s 0).toNat)

/-! ### Load and store -/

/-- R110: LOAD_CONST.s pushes its constant, zero-extended; StackOverflow when the stack is full; OutOfBounds when the
immediate does not lie in Memory. -/
def Obligations.LoadConstRule : Prop :=
  ∀ n : Size, ImmediateFetchFaults (0x10#8 + ss n) n.bytes ∧
    ∀ (imm : Word), imm.toNat < 2 ^ (8 * n.bytes) →
      EncodedWith n.bytes (.loadConst n imm) (0x10#8 + ss n) imm ∧
      ∀ s : State,
        (s.sp.toNat ≠ s.cfg.osCap → exec (.loadConst n imm) s = .next (withPushed imm s)) ∧
        (s.sp.toNat = s.cfg.osCap → FaultsFrom (exec (.loadConst n imm) s) .stackOverflow s.sp s)

/-- R111: LOAD.s pushes s bytes of Memory, zero-extended; a bad address raises OutOfBounds(addr) whatever the stack
holds; then a full stack raises StackOverflow. -/
def Obligations.LoadRule : Prop :=
  ∀ (n : Size) (addr : Word), EncodedWithWord (.load n addr) (0x14#8 + ss n) addr ∧
    ImmediateFetchFaults (0x14#8 + ss n) 8 ∧
    ∀ s : State,
      (addr.toNat + n.bytes > s.cfg.memCap → FaultsFrom (exec (.load n addr) s) .outOfBounds addr s) ∧
      (addr.toNat + n.bytes ≤ s.cfg.memCap → s.sp.toNat = s.cfg.osCap →
        FaultsFrom (exec (.load n addr) s) .stackOverflow s.sp s) ∧
      (addr.toNat + n.bytes ≤ s.cfg.memCap → s.sp.toNat ≠ s.cfg.osCap →
        exec (.load n addr) s = .next (withPushed (BitVec.ofNat 64 (valueAt s.cfg.byteOrder s.mem addr.toNat n.bytes)) s))

/-- R112: STORE.s pops a Word and writes its low s bytes at addr, little-endian, and no other byte; a bad address raises
OutOfBounds(addr) before the pop; then an empty stack raises StackUnderflow. -/
def Obligations.StoreRule : Prop :=
  ∀ (n : Size) (addr : Word), EncodedWithWord (.store n addr) (0x18#8 + ss n) addr ∧
    ∀ s : State,
      (addr.toNat + n.bytes > s.cfg.memCap → FaultsFrom (exec (.store n addr) s) .outOfBounds addr s) ∧
      (addr.toNat + n.bytes ≤ s.cfg.memCap → s.sp.toNat = 0 →
        FaultsFrom (exec (.store n addr) s) .stackUnderflow 0#64 s) ∧
      (addr.toNat + n.bytes ≤ s.cfg.memCap → 1 ≤ s.sp.toNat → Memory.wf s.mem = true →
        ∃ m' : Memory, exec (.store n addr) s = .next { s with sp := s.sp - 1#64, mem := m' } ∧
          BytesStored s.cfg.byteOrder s.mem m' addr.toNat n.bytes (below s 0))

/-- R113: any LOAD or STORE whose address is at or above the capacity ends in HALT_FAILURE with OutOfBounds whatever the
stacks hold, and so does one below it whose last byte lies at or beyond the capacity. -/
def Obligations.BoundsScenario : Prop :=
  ∀ (n : Size) (addr : Word) (s : State), (s.cfg.memCap ≤ addr.toNat ∨ s.cfg.memCap ≤ addr.toNat + n.bytes - 1) →
    ∀ i ∈ [Instr.load n addr, Instr.store n addr], ∃ t : State, exec i s = .next t ∧ t.runState = .haltFailure ∧
      t.cause = .outOfBounds ∧ t.info = addr ∧ t.os = s.os ∧ t.sp = s.sp ∧ t.mem = s.mem

/-- R67: a STORE into the bytes at which the next fetch reads is seen by that fetch. A stored opcode byte of a one-byte
instruction is the instruction the next step runs. -/
def Obligations.StoreSeenByTheNextFetch : Prop :=
  ∀ (s : State) (i : Instr) (op : Byte), StateInv s → s.runState = .running → s.ip.toNat < s.cfg.memCap →
    1 ≤ s.sp.toNat → decode s.cfg [op] = .ok i [] → (below s 0).setWidth 8 = op →
    ∃ t : State, exec (.store .s1 s.ip) s = .next t ∧
      step t = exec i { t with faultAddr := s.ip, ip := s.ip + 1#64 }

/-! ### Frame-relative load and store -/

/-- R120: LOAD_FRAME.s pushes the s bytes at fp − off; off > fp, or bytes beyond the Call Stack, raise OutOfBounds with
the address as INFO; then a full stack raises StackOverflow. Readable holds at R9's value of CS_UNWRITTEN_READ. -/
def Obligations.LoadFrameRule : Prop :=
  ∀ (n : Size) (off : Word), EncodedWithWord (.loadFrame n off) (0x20#8 + ss n) off ∧
    ∀ s : State,
      (off.toNat > s.fp.toNat → FaultsFrom (exec (.loadFrame n off) s) .outOfBounds (s.fp - off) s) ∧
      (off.toNat ≤ s.fp.toNat → s.fp.toNat - off.toNat + n.bytes > s.cfg.csCap →
        FaultsFrom (exec (.loadFrame n off) s) .outOfBounds (s.fp - off) s) ∧
      (off.toNat ≤ s.fp.toNat → s.fp.toNat - off.toNat + n.bytes ≤ s.cfg.csCap →
        Readable s (s.fp.toNat - off.toNat) n.bytes → s.sp.toNat = s.cfg.osCap →
        FaultsFrom (exec (.loadFrame n off) s) .stackOverflow s.sp s) ∧
      (off.toNat ≤ s.fp.toNat → s.fp.toNat - off.toNat + n.bytes ≤ s.cfg.csCap →
        Readable s (s.fp.toNat - off.toNat) n.bytes → s.sp.toNat ≠ s.cfg.osCap →
        exec (.loadFrame n off) s = .next (withPushed
          (BitVec.ofNat 64 (valueAt s.cfg.byteOrder s.cs (s.fp.toNat - off.toNat) n.bytes)) s))

/-- R121: STORE_FRAME.s pops a Word and writes its low s bytes at fp − off of the Call Stack, and no other byte; the
address checks come before the pop. What it does to the marks csWritten is the model's choice (DESIGN CHOICE,
notes/assumptions/17.md). -/
def Obligations.StoreFrameRule : Prop :=
  ∀ (n : Size) (off : Word), EncodedWithWord (.storeFrame n off) (0x24#8 + ss n) off ∧
    ∀ s : State,
      (off.toNat > s.fp.toNat → FaultsFrom (exec (.storeFrame n off) s) .outOfBounds (s.fp - off) s) ∧
      (off.toNat ≤ s.fp.toNat → s.fp.toNat - off.toNat + n.bytes > s.cfg.csCap →
        FaultsFrom (exec (.storeFrame n off) s) .outOfBounds (s.fp - off) s) ∧
      (off.toNat ≤ s.fp.toNat → s.fp.toNat - off.toNat + n.bytes ≤ s.cfg.csCap → s.sp.toNat = 0 →
        FaultsFrom (exec (.storeFrame n off) s) .stackUnderflow 0#64 s) ∧
      (off.toNat ≤ s.fp.toNat → s.fp.toNat - off.toNat + n.bytes ≤ s.cfg.csCap → 1 ≤ s.sp.toNat →
        Memory.wf s.cs = true → cellsWf s.csWritten = true →
        ∃ (c' : Memory) (w' : Marks),
          exec (.storeFrame n off) s = .next { s with sp := s.sp - 1#64, cs := c', csWritten := w' } ∧
          BytesStored s.cfg.byteOrder s.cs c' (s.fp.toNat - off.toNat) n.bytes (below s 0) ∧
          Marked s.csWritten w' fun x =>
            s.fp.toNat - off.toNat ≤ x ∧ x < s.fp.toNat - off.toNat + n.bytes)

/-- R9, D39: what CS_UNWRITTEN_READ makes of a read of a Call Stack byte never written. Where it is fault, such a read
stops in each place that reads the Call Stack: csRead, LOAD_FRAME, and RETURN at each of its three fields; where it is
content, R9's value, no instruction ends the run. That the stop is the model's own, and no entry into HALT_FAILURE, is a
DESIGN CHOICE (notes/assumptions/17.md). -/
def Obligations.UnwrittenCallStackReads : Prop :=
  (∀ (s : State) (addr : Word) (n : Size), addr.toNat + n.bytes ≤ s.cfg.csCap → ¬Readable s addr.toNat n.bytes →
    csRead addr n s = .stop (.unwrittenCallStackRead addr)) ∧
  (∀ (s : State) (n : Size) (off : Word), off.toNat ≤ s.fp.toNat →
    s.fp.toNat - off.toNat + n.bytes ≤ s.cfg.csCap → ¬Readable s (s.fp.toNat - off.toNat) n.bytes →
    exec (.loadFrame n off) s = .fault (.unwrittenCallStackRead (s.fp - off))) ∧
  (∀ s : State, s.fp.toNat ≤ s.cfg.csCap → 8 ≤ s.fp.toNat →
    (¬Readable s (s.fp.toNat - 8) 8 → exec .ret s = .fault (.unwrittenCallStackRead (s.fp - 8#64))) ∧
    (Readable s (s.fp.toNat - 8) 8 → 16 ≤ s.fp.toNat →
      (¬Readable s (s.fp.toNat - 16) 8 → exec .ret s = .fault (.unwrittenCallStackRead (s.fp - 16#64))) ∧
      ∀ l : Word, Readable s (s.fp.toNat - 16) 8 → WordAt s.cfg.byteOrder s.cs (s.fp.toNat - 16) l →
        24 + l.toNat ≤ s.fp.toNat → ¬Readable s (s.fp.toNat - 24 - l.toNat) 8 →
        exec .ret s = .fault (.unwrittenCallStackRead (s.fp - 24#64 - l)))) ∧
  ∀ (i : Instr) (s : State), s.cfg.csUnwrittenRead = .content → ∃ t : State, exec i s = .next t

/-- R122: the offsets of a frame's parts. With the current frame (n, L) below fp, LOAD_FRAME at the offset the table
gives for a part pushes that part. -/
def Obligations.FrameOffsets : Prop :=
  ∀ (s : State) (base : Nat) (n l : Word) (args : Nat → Word) (r : Word), StateInv s →
    s.fp.toNat = base + frameBytes n l → FrameAt s.cfg.byteOrder s.cs base n l args r →
    Readable s base (frameBytes n l) → s.sp.toNat < s.cfg.osCap →
    (∀ i, i < n.toNat →
      exec (.loadFrame .s8 (BitVec.ofNat 64 (24 + l.toNat + 8 * (n.toNat - i)))) s = .next (withPushed (args i) s)) ∧
    exec (.loadFrame .s8 (BitVec.ofNat 64 (24 + l.toNat))) s = .next (withPushed n s) ∧
    (∀ j, j < l.toNat →
      exec (.loadFrame .s1 (BitVec.ofNat 64 (16 + l.toNat - j))) s =
        .next (withPushed ((cellGet s.cs (s.fp.toNat - 16 - l.toNat + j)).setWidth 64) s)) ∧
    exec (.loadFrame .s8 16#64) s = .next (withPushed l s) ∧
    exec (.loadFrame .s8 8#64) s = .next (withPushed r s)

/-! ### Stack manipulation -/

/-- R130, R131, R132: POP drops the top; DUP pushes a copy of the Word k below the top; SWAP exchanges the two and
changes no other cell. k ≥ sp raises StackUnderflow(k), before the push of DUP is checked. -/
def Obligations.StackManipulationRules : Prop :=
  EncodedAsOne .pop 0x30#8 ∧ PopUnderflows .pop ∧
  (∀ s : State, 1 ≤ s.sp.toNat → exec .pop s = .next { s with sp := s.sp - 1#64 }) ∧
  ∀ k : Word, EncodedWithWord (.dup k) 0x31#8 k ∧ EncodedWithWord (.swap k) 0x32#8 k ∧
    ∀ s : State,
      (s.sp.toNat ≤ k.toNat → FaultsFrom (exec (.dup k) s) .stackUnderflow k s ∧
        FaultsFrom (exec (.swap k) s) .stackUnderflow k s) ∧
      (k.toNat < s.sp.toNat → s.sp.toNat = s.cfg.osCap → FaultsFrom (exec (.dup k) s) .stackOverflow s.sp s) ∧
      (k.toNat < s.sp.toNat → s.sp.toNat ≠ s.cfg.osCap →
        exec (.dup k) s = .next (withPushed (below s k.toNat) s)) ∧
      (k.toNat < s.sp.toNat → cellsWf s.os = true →
        ∃ os' : StackCells, exec (.swap k) s = .next { s with os := os' } ∧
          ∀ i, cellGet os' i =
            if i = s.sp.toNat - 1 then below s k.toNat
            else if i = s.sp.toNat - 1 - k.toNat then below s 0 else cellGet s.os i)

/-! ### Arithmetic, bitwise, comparison -/

/-- R140, R141, R142, R145: sum, difference (left minus right) and product modulo 2^64, and two's-complement negation. -/
def Obligations.ArithmeticRules : Prop :=
  BinaryRule .add 0x40#8 (fun _ _ => True) (fun a b => (a + b) % 2 ^ 64) ∧
  BinaryRule .sub 0x41#8 (fun _ _ => True) (fun a b => (2 ^ 64 + a - b) % 2 ^ 64) ∧
  BinaryRule .mul 0x42#8 (fun _ _ => True) (fun a b => (a * b) % 2 ^ 64) ∧
  UnaryRule .neg 0x45#8 (fun n => (2 ^ 64 - n) % 2 ^ 64)

/-- R143, R144: unsigned quotient and remainder of left by right; a right operand of 0 raises DivideByZero(0), with both
operands popped. -/
def Obligations.DivisionRules : Prop :=
  BinaryRule .div 0x43#8 (fun _ b => b ≠ 0) (fun a b => a / b) ∧
  BinaryRule .mod 0x44#8 (fun _ b => b ≠ 0) (fun a b => a - b * (a / b)) ∧
  OperandFaults .div .divideByZero (fun _ => 0#64) (fun b => b = 0#64) ∧
  OperandFaults .mod .divideByZero (fun _ => 0#64) (fun b => b = 0#64)

/-- R150 to R153: bitwise conjunction, disjunction, exclusive or and complement. -/
def Obligations.BitwiseRules : Prop :=
  BinaryRule .bitAnd 0x50#8 (fun _ _ => True) (fun a b => a &&& b) ∧
  BinaryRule .bitOr 0x51#8 (fun _ _ => True) (fun a b => a ||| b) ∧
  BinaryRule .bitXor 0x52#8 (fun _ _ => True) (fun a b => a ^^^ b) ∧
  UnaryRule .bitNot 0x53#8 (fun n => 2 ^ 64 - 1 - n)

/-- R154, R155: logical shifts of the left operand by the right one; an amount of 64 or more raises
ShiftOutOfRange(amount), with both operands popped. -/
def Obligations.ShiftRules : Prop :=
  BinaryRule .shl 0x54#8 (fun _ b => b < 64) (fun a b => (a * 2 ^ b) % 2 ^ 64) ∧
  BinaryRule .shr 0x55#8 (fun _ b => b < 64) (fun a b => a / 2 ^ b) ∧
  OperandFaults .shl .shiftOutOfRange (fun b => b) (fun b => 64 ≤ b.toNat) ∧
  OperandFaults .shr .shiftOutOfRange (fun b => b) (fun b => 64 ≤ b.toNat)

/-- R160 to R165: each comparison of the left with the right operand, unsigned, pushes 1 when it holds and 0 when not. -/
def Obligations.ComparisonRules : Prop :=
  BinaryRule .cmpEq 0x60#8 (fun _ _ => True) (fun a b => if a = b then 1 else 0) ∧
  BinaryRule .cmpNe 0x61#8 (fun _ _ => True) (fun a b => if a ≠ b then 1 else 0) ∧
  BinaryRule .cmpLt 0x62#8 (fun _ _ => True) (fun a b => if a < b then 1 else 0) ∧
  BinaryRule .cmpLe 0x63#8 (fun _ _ => True) (fun a b => if a ≤ b then 1 else 0) ∧
  BinaryRule .cmpGt 0x64#8 (fun _ _ => True) (fun a b => if a > b then 1 else 0) ∧
  BinaryRule .cmpGe 0x65#8 (fun _ _ => True) (fun a b => if a ≥ b then 1 else 0)

/-! ### Input and output -/

/-- R172, R173: OUT_NUM emits the decimal text of the popped Word and the suffix, OUT_CHAR its low byte. The host accepts
output when outReady holds (notes/assumptions/7.md). -/
def Obligations.OutputRules : Prop :=
  EncodedAsOne .outNum 0x70#8 ∧ EncodedAsOne .outChar 0x71#8 ∧ PopUnderflows .outNum ∧ PopUnderflows .outChar ∧
  ∀ s : State, 1 ≤ s.sp.toNat → s.outReady = true →
    exec .outNum s = .next { s with
      sp := s.sp - 1#64
      out := s.out ++ (decimalText (below s 0) ++ s.cfg.outNumSuffix) } ∧
    exec .outChar s = .next { s with sp := s.sp - 1#64, out := s.out ++ [(below s 0).extractLsb' 0 8] }

/-- R174, R175: IN_NUM and IN_CHAR take the next Word the host supplied and push it; a full stack raises StackOverflow
with the value already consumed. The host's values stand in the field input (notes/assumptions/6.md). -/
def Obligations.InputRules : Prop :=
  EncodedAsOne .inNum 0x72#8 ∧ EncodedAsOne .inChar 0x73#8 ∧
  ∀ i ∈ [Instr.inNum, Instr.inChar], ∀ (s : State) (v : Word) (rest : List Word), s.input = v :: rest →
    (s.sp.toNat ≠ s.cfg.osCap →
      exec i s = .next (withPushed v { s with input := rest, inPos := s.inPos + 1 })) ∧
    (s.sp.toNat = s.cfg.osCap →
      FaultsFrom (exec i s) .stackOverflow s.sp { s with input := rest, inPos := s.inPos + 1 })

/-- The model's form of the stalls of R170, R171 and R236 (DESIGN CHOICE, notes/assumptions/6.md and 7.md): an input
instruction with no value supplied, and an output instruction while the host accepts no output, changes nothing; ip
goes back to its opcode and the engine is still in the run state it was in. -/
def Obligations.HeldWhileTheHostIsNotReady : Prop :=
  ∀ s : State,
    (s.input = [] → HeldFrom (exec .inNum s) s ∧ HeldFrom (exec .inChar s) s) ∧
    (1 ≤ s.sp.toNat → s.outReady = false → HeldFrom (exec .outNum s) s ∧ HeldFrom (exec .outChar s) s)

/-! ### Jumps, CALL and RETURN -/

/-- R180, R181, R182: JMP writes ip; JZ and JNZ pop a condition and write ip when it is zero, or not zero. A target at
or above MEM_CAP faults at the next fetch only. -/
def Obligations.JumpRules : Prop :=
  ∀ target : Word, EncodedWithWord (.jmp target) 0x80#8 target ∧ EncodedWithWord (.jz target) 0x81#8 target ∧
    EncodedWithWord (.jnz target) 0x82#8 target ∧ PopUnderflows (.jz target) ∧ PopUnderflows (.jnz target) ∧
    ∀ s : State,
      exec (.jmp target) s = .next { s with ip := target } ∧
      (1 ≤ s.sp.toNat →
        exec (.jz target) s = .next { s with
          sp := s.sp - 1#64, ip := if (below s 0).toNat = 0 then target else s.ip } ∧
        exec (.jnz target) s = .next { s with
          sp := s.sp - 1#64, ip := if (below s 0).toNat = 0 then s.ip else target }) ∧
      (s.runState = .running → s.cfg.memCap ≤ target.toNat →
        FaultsFrom (step { s with ip := target }) .outOfBounds target { s with ip := target, faultAddr := target })

/-- R192, R193, R194: CALL in every case: it completes, its descriptor does not lie in Memory, its frame does not fit,
or arguments are missing. What it does to the marks csWritten is the model's choice (DESIGN CHOICE,
notes/assumptions/17.md). -/
def Obligations.CallRule : Prop :=
  (∀ d : Word, EncodedWithWord (.call d) 0xD0#8 d) ∧
  CallCompletes ∧ CallDescriptorFaults ∧ CallFrameFaults ∧ CallArgumentFaults

/-- R196, R197: RETURN reads return_address, local_size and arg_num below fp, each checked to be fully present, and
restores ip and fp; the Operand Stack and every Call Stack byte stay as they are. Readable holds at R9's value of
CS_UNWRITTEN_READ. -/
def Obligations.ReturnRule : Prop :=
  EncodedAsOne .ret 0xD1#8 ∧
  ∀ s : State, StateInv s →
    (s.fp.toNat < 8 ∨ (s.fp.toNat < 16 ∧ Readable s (s.fp.toNat - 8) 8) →
      FaultsFrom (exec .ret s) .callStackUnderflow s.fp s) ∧
    ∀ r l : Word, 16 ≤ s.fp.toNat → WordAt s.cfg.byteOrder s.cs (s.fp.toNat - 8) r →
      WordAt s.cfg.byteOrder s.cs (s.fp.toNat - 16) l → Readable s (s.fp.toNat - 16) 16 →
      (s.fp.toNat < 24 + l.toNat → FaultsFrom (exec .ret s) .callStackUnderflow s.fp s) ∧
      ∀ n : Word, 24 + l.toNat ≤ s.fp.toNat → WordAt s.cfg.byteOrder s.cs (s.fp.toNat - 24 - l.toNat) n →
        Readable s (s.fp.toNat - 24 - l.toNat) 8 →
        (s.fp.toNat < 24 + l.toNat + 8 * n.toNat → FaultsFrom (exec .ret s) .callStackUnderflow s.fp s) ∧
        (24 + l.toNat + 8 * n.toNat ≤ s.fp.toNat →
          exec .ret s = .next { s with ip := r, fp := BitVec.ofNat 64 (s.fp.toNat - 24 - l.toNat - 8 * n.toNat) })

/-- From R194 and R197, for every arg_num and local_size (R199 is the case 1 and 0): CALL removes its arguments and
nothing else from the Operand Stack, and a RETURN from any later state with fp as CALL left it and the frame's trailer
intact restores ip to the byte after CALL's immediate and fp to the caller's, and changes nothing else. The engine's
parameters are the same in that state, and the bytes CALL wrote are still marked so (notes/assumptions/17.md). -/
def Obligations.CallThenReturn : Prop :=
  ∀ (s : State) (d n l c : Word), StateInv s → d.toNat + 24 ≤ s.cfg.memCap → DescriptorAt s d n l c →
    s.fp.toNat + frameBytes n l ≤ s.cfg.csCap → n.toNat ≤ s.sp.toNat →
    ∃ t : State, exec (.call d) s = .next t ∧ t.ip = c ∧ t.os = s.os ∧ t.sp.toNat = s.sp.toNat - n.toNat ∧
      ∀ u : State, StateInv u → u.cfg = s.cfg → u.fp = t.fp →
        (∀ a, cellGet t.csWritten a = 1#1 → cellGet u.csWritten a = 1#1) →
        (∀ a, (s.fp.toNat + 8 * n.toNat ≤ a ∧ a < s.fp.toNat + 8 * n.toNat + 8) ∨
            (t.fp.toNat - 16 ≤ a ∧ a < t.fp.toNat) → cellGet u.cs a = cellGet t.cs a) →
        exec .ret u = .next { u with ip := s.ip, fp := s.fp }

/-! ### Whole-machine rules -/

/-- R214: raise C(info) writes STATE, CAUSE, INFO, FAULT_IP and MSG, and nothing else; the engine then fetches no
further instruction: until the host gives a command no step changes anything. -/
def Obligations.FaultEntryStopsTheEngine : Prop :=
  ∀ (c : Cause) (info : Word) (s : State), FaultsFrom (.next (takeFault c info s)) c info s ∧
    (s.hostCmds = [] → ∀ k, Host.Core.run Sys2Proof.core k (takeFault c info s) = .next (takeFault c info s))

/-- CAUSE, INFO, FAULT_IP and MSG change in a step only by a fault, which leaves HALT_FAILURE, a cause other than NONE
and the address of the instruction's opcode, or by LOAD, which clears them (R27, R28, R29). -/
def Obligations.StatusWrittenOnlyByFaultOrLoad : Prop :=
  ∀ s t : State, s.cfg.wf = true → step s = .next t →
    (t.cause = s.cause ∧ t.info = s.info ∧ t.faultIp = s.faultIp ∧ t.msg = s.msg) ∨
    (s.runState = .running ∧ t.runState = .haltFailure ∧ t.cause ≠ .none ∧ t.faultIp = s.ip) ∨
    (s.runState ≠ .running ∧ (∃ p rest, s.hostCmds = .load p :: rest) ∧
      t.cause = .none ∧ t.info = 0#64 ∧ t.faultIp = 0#64 ∧ t.msg = [])

/-- A step after which a running engine is stopped ran DONE, and left HALT_SUCCESS; or ran POP_RES, and left the state
whose ordinal it popped; or took a fault, of the fetch, the decoding or the instruction, and left HALT_FAILURE, a cause
and in FAULT_IP the address at which the step fetched (R26, R213, R215). -/
def Obligations.RunningEndsOnlyByDonePopResOrFault : Prop :=
  ∀ s t : State, s.cfg.wf = true → s.runState = .running → step s = .next t → t.runState ≠ .running →
    ((∃ rest, decode s.cfg (bytesAtIp s) = .ok .done rest) ∧ t.runState = .haltSuccess) ∨
    ((∃ rest, decode s.cfg (bytesAtIp s) = .ok .popRes rest) ∧ 1 ≤ s.sp.toNat ∧
      ∀ q, below s 0 = ordinalOf s.cfg.stateOrdinals q → t.runState = q) ∨
    (t.runState = .haltFailure ∧ t.cause ≠ .none ∧ t.faultIp = s.ip)

/-- What each instruction writes (R24, R25, R36, R38, R40). It answers a next state, but for a read that CS_UNWRITTEN_READ
= fault (R9, D39) forbids. It keeps the parameters, and the model's fields for the latch and the host. It writes the
three buffers in the cells its rule names and in no other; the trace is only appended to; ip is put back by an input or
output instruction only, when the host is not ready for it. STATE changes only by DONE, POP_RES or a fault, and CAUSE,
INFO, FAULT_IP and MSG only by a fault. The model's choices here, DESIGN CHOICE each: msgDraws and the text in MSG
(notes/assumptions/4.md), the latch (5.md), the held instruction and the host's fields (6.md, 7.md, 8.md), and the stop
unwrittenCallStackRead and the marks csWritten (17.md). -/
def Obligations.InstructionsWriteOnlyTheirOwn : Prop :=
  ∀ (i : Instr) (s : State), s.cfg.wf = true →
    ((∃ t : State, exec i s = .next t) ∨
      (s.cfg.csUnwrittenRead = .fault ∧ (i = .ret ∨ ∃ n off, i = .loadFrame n off) ∧
        ∃ a, exec i s = .fault (.unwrittenCallStackRead a))) ∧
    ∀ t : State, exec i s = .next t →
      (t.cfg = s.cfg ∧ t.faultAddr = s.faultAddr ∧ t.outReady = s.outReady ∧ t.hostCmds = s.hostCmds ∧
        t.replies = s.replies) ∧
      (∀ x, cellGet t.mem x ≠ cellGet s.mem x → WritesMem i x) ∧
      (∀ x, cellGet t.os x ≠ cellGet s.os x → WritesOs i s x) ∧
      (∀ x, cellGet t.cs x ≠ cellGet s.cs x → WritesCs i s x) ∧
      (∀ x, cellGet t.csWritten x ≠ cellGet s.csWritten x → WritesCs i s x) ∧
      (t.fp ≠ s.fp → i = .ret ∨ ∃ d, i = .call d) ∧
      (t.ip ≠ s.ip → i = .ret ∨ (∃ d, i = .call d ∨ i = .jmp d ∨ i = .jz d ∨ i = .jnz d) ∨
        (t.ip = s.faultAddr ∧ (i = .outNum ∨ i = .outChar ∨ i = .inNum ∨ i = .inChar))) ∧
      (t.sp ≠ s.sp → MovesSp i) ∧
      (s.out <+: t.out ∧ (t.out ≠ s.out → i = .outNum ∨ i = .outChar)) ∧
      (t.inPos ≠ s.inPos ∨ t.input ≠ s.input → i = .inNum ∨ i = .inChar) ∧
      ((t.cause = s.cause ∧ t.info = s.info ∧ t.faultIp = s.faultIp ∧ t.msg = s.msg ∧ t.msgDraws = s.msgDraws ∧
          (t.runState = s.runState ∨ (i = .done ∧ t.runState = .haltSuccess) ∨ i = .popRes)) ∨
        (t.runState = .haltFailure ∧ t.cause ≠ .none ∧ t.faultIp = s.faultAddr ∧ t.msg.length ≤ s.cfg.msgCap))
end

