-- ==== Sys2Proof/Laws/Cells.lean ====
section
/-! SUPPORT. The laws of a buffer's cells: read after write, and that every write keeps the canonical form. -/

namespace Sys2Proof.Machine

variable {w : Nat}

theorem cellGet_cons (b : Nat) (x : BitVec w) (rest : List (Nat × BitVec w)) (a : Nat) :
    cellGet ((b, x) :: rest) a = if a = b then x else cellGet rest a := rfl

theorem cellsWfFrom_cons (lo a : Nat) (v : BitVec w) (rest : List (Nat × BitVec w)) :
    cellsWfFrom lo ((a, v) :: rest) = true ↔ lo ≤ a ∧ v ≠ 0#w ∧ cellsWfFrom (a + 1) rest = true := by
  simp [cellsWfFrom, and_assoc]

theorem cellsWfFrom_mono {lo lo' : Nat} {c : List (Nat × BitVec w)} (h : cellsWfFrom lo c = true) (hle : lo' ≤ lo) :
    cellsWfFrom lo' c = true := by
  cases c with
  | nil => rfl
  | cons p rest =>
    obtain ⟨a, v⟩ := p
    rw [cellsWfFrom_cons] at h ⊢
    exact ⟨hle.trans h.1, h.2⟩

/-- Below its first index a canonical buffer holds 0. -/
theorem cellGet_eq_zero_of_lt {lo : Nat} {c : List (Nat × BitVec w)} (h : cellsWfFrom lo c = true) {a : Nat}
    (ha : a < lo) : cellGet c a = 0#w := by
  induction c generalizing lo with
  | nil => rfl
  | cons p rest ih =>
    obtain ⟨b, x⟩ := p
    rw [cellsWfFrom_cons] at h
    rw [cellGet_cons, if_neg (by omega)]
    exact ih h.2.2 (by omega)

theorem cellGet_cellSet_other (c : List (Nat × BitVec w)) {a a' : Nat} (v : BitVec w) (h : a' ≠ a) :
    cellGet (cellSet c a v) a' = cellGet c a' := by
  induction c with
  | nil => by_cases hv : v = 0#w <;> simp [cellSet, cellGet, hv, h]
  | cons p rest ih =>
    obtain ⟨b, x⟩ := p
    by_cases hlt : a < b
    · by_cases hv : v = 0#w <;> simp [cellSet, cellGet, hv, hlt, h]
    · by_cases heq : a = b
      · subst heq
        by_cases hv : v = 0#w <;> simp [cellSet, cellGet, hv, h]
      · simp [cellSet, cellGet, hlt, heq, ih]

theorem cellGet_cellSet_same_from {lo : Nat} {c : List (Nat × BitVec w)} (h : cellsWfFrom lo c = true) (a : Nat)
    (v : BitVec w) : cellGet (cellSet c a v) a = v := by
  induction c generalizing lo with
  | nil =>
    by_cases hv : v = 0#w
    · simp [cellSet, cellGet, hv]
    · simp [cellSet, cellGet, hv]
  | cons p rest ih =>
    obtain ⟨b, x⟩ := p
    rw [cellsWfFrom_cons] at h
    by_cases hlt : a < b
    · by_cases hv : v = 0#w
      · have hr := cellGet_eq_zero_of_lt h.2.2 (a := a) (by omega)
        have hne : a ≠ b := by omega
        simpa [cellSet, cellGet, hv, hlt, hne] using hr
      · simp [cellSet, cellGet, hv, hlt]
    · by_cases heq : a = b
      · subst heq
        by_cases hv : v = 0#w
        · have hr := cellGet_eq_zero_of_lt h.2.2 (a := a) (by omega)
          simpa [cellSet, hv] using hr
        · simp [cellSet, cellGet, hv]
      · simp [cellSet, cellGet, hlt, heq, ih h.2.2]

/-- A cell just set holds the value set. -/
theorem cellGet_cellSet_same {c : List (Nat × BitVec w)} (h : cellsWf c = true) (a : Nat) (v : BitVec w) :
    cellGet (cellSet c a v) a = v := cellGet_cellSet_same_from h a v

theorem cellGet_cellSet {c : List (Nat × BitVec w)} (h : cellsWf c = true) (a a' : Nat) (v : BitVec w) :
    cellGet (cellSet c a v) a' = if a' = a then v else cellGet c a' := by
  by_cases ha : a' = a
  · subst ha; simp [cellGet_cellSet_same h]
  · simp [ha, cellGet_cellSet_other c v ha]

theorem cellSet_wfFrom {lo : Nat} {c : List (Nat × BitVec w)} (h : cellsWfFrom lo c = true) {a : Nat} (ha : lo ≤ a)
    (v : BitVec w) : cellsWfFrom lo (cellSet c a v) = true := by
  induction c generalizing lo with
  | nil =>
    by_cases hv : v = 0#w
    · simp [cellSet, hv, cellsWfFrom]
    · simp [cellSet, hv, cellsWfFrom, ha]
  | cons p rest ih =>
    obtain ⟨b, x⟩ := p
    have h' := h
    rw [cellsWfFrom_cons] at h
    by_cases hlt : a < b
    · by_cases hv : v = 0#w
      · simpa [cellSet, hv, hlt] using h'
      · simp only [cellSet, hlt, hv, if_true, if_false, cellsWfFrom_cons]
        exact ⟨ha, hv, by omega, h.2.1, h.2.2⟩
    · by_cases heq : a = b
      · subst heq
        by_cases hv : v = 0#w
        · simpa [cellSet, hv] using cellsWfFrom_mono h.2.2 (by omega)
        · simp only [cellSet, lt_irrefl, hv, if_true, if_false, cellsWfFrom_cons]
          exact ⟨ha, hv, h.2.2⟩
      · simp only [cellSet, hlt, heq, if_false, cellsWfFrom_cons]
        exact ⟨h.1, h.2.1, ih h.2.2 (by omega)⟩

/-- Setting a cell keeps the canonical form. -/
theorem cellSet_wf {c : List (Nat × BitVec w)} (h : cellsWf c = true) (a : Nat) (v : BitVec w) :
    cellsWf (cellSet c a v) = true := cellSet_wfFrom h (Nat.zero_le a) v

/-- Setting a cell below a capacity keeps the cells below it. -/
theorem cellSet_below {cap : Nat} {c : List (Nat × BitVec w)} (h : cellsBelow cap c = true) {a : Nat} (ha : a < cap)
    (v : BitVec w) : cellsBelow cap (cellSet c a v) = true := by
  induction c with
  | nil => by_cases hv : v = 0#w <;> simp [cellSet, cellsBelow, hv, ha]
  | cons p rest ih =>
    obtain ⟨b, x⟩ := p
    have hb : b < cap ∧ cellsBelow cap rest = true := by simpa [cellsBelow] using h
    have ih' := ih hb.2
    simp only [cellsBelow] at ih' hb ⊢
    by_cases hlt : a < b
    · by_cases hv : v = 0#w <;> simp [cellSet, hv, hlt, ha, hb.1] <;> simpa using hb.2
    · by_cases heq : a = b
      · subst heq
        by_cases hv : v = 0#w
        · simpa [cellSet, hv] using hb.2
        · simp [cellSet, hv, ha]; simpa using hb.2
      · simp only [cellSet, hlt, heq, if_false, List.all_cons, ih', hb.1, decide_true, Bool.and_self]

/-- Writing a run of cells keeps the canonical form. -/
theorem cellsWrite_wf {c : List (Nat × BitVec w)} (h : cellsWf c = true) (a : Nat) (vs : List (BitVec w)) :
    cellsWf (cellsWrite c a vs) = true := by
  induction vs generalizing c a with
  | nil => exact h
  | cons v vs ih => exact ih (cellSet_wf h a v) (a + 1)

/-- Writing a run of cells below a capacity keeps the cells below it. -/
theorem cellsWrite_below {cap : Nat} {c : List (Nat × BitVec w)} (h : cellsBelow cap c = true) {a : Nat}
    {vs : List (BitVec w)} (ha : a + vs.length ≤ cap) : cellsBelow cap (cellsWrite c a vs) = true := by
  induction vs generalizing c a with
  | nil => exact h
  | cons v vs ih =>
    simp only [List.length_cons] at ha
    exact ih (cellSet_below h (by omega) v) (by omega)

/-- Outside the cells written nothing changes. -/
theorem cellGet_cellsWrite_outside (c : List (Nat × BitVec w)) {a a' : Nat} (vs : List (BitVec w))
    (h : a' < a ∨ a + vs.length ≤ a') : cellGet (cellsWrite c a vs) a' = cellGet c a' := by
  induction vs generalizing c a with
  | nil => rfl
  | cons v vs ih =>
    simp only [List.length_cons] at h
    rw [cellsWrite, ih (cellSet c a v) (by omega), cellGet_cellSet_other c v (by omega)]

/-- Inside the cells written each holds its value. -/
theorem cellGet_cellsWrite_inside {c : List (Nat × BitVec w)} (h : cellsWf c = true) (a : Nat) (vs : List (BitVec w))
    {k : Nat} (hk : k < vs.length) : cellGet (cellsWrite c a vs) (a + k) = vs[k] := by
  induction vs generalizing c a k with
  | nil => simp at hk
  | cons v vs ih =>
    rw [cellsWrite]
    cases k with
    | zero =>
      rw [cellGet_cellsWrite_outside _ _ (by omega)]
      simpa using cellGet_cellSet_same h a v
    | succ k =>
      simp only [List.length_cons] at hk
      have := ih (cellSet_wf h a v) (a + 1) (k := k) (by omega)
      simpa [Nat.add_assoc, Nat.add_comm, Nat.add_left_comm] using this

theorem cellGet_cellsWrite {c : List (Nat × BitVec w)} (h : cellsWf c = true) (a a' : Nat) (vs : List (BitVec w)) :
    cellGet (cellsWrite c a vs) a' =
      if hk : a ≤ a' ∧ a' < a + vs.length then vs[a' - a]'(by omega) else cellGet c a' := by
  by_cases hk : a ≤ a' ∧ a' < a + vs.length
  · have := cellGet_cellsWrite_inside h a vs (k := a' - a) (by omega)
    rw [show a + (a' - a) = a' by omega] at this
    simp [hk, this]
  · rw [dif_neg hk, cellGet_cellsWrite_outside c vs (by omega)]

@[simp] theorem cellsRead_length (c : List (Nat × BitVec w)) (a n : Nat) : (cellsRead c a n).length = n := by
  induction n generalizing a with
  | zero => rfl
  | succ n ih => simp [cellsRead, ih]

theorem cellsRead_getElem (c : List (Nat × BitVec w)) (a n k : Nat) (hk : k < (cellsRead c a n).length) :
    (cellsRead c a n)[k] = cellGet c (a + k) := by
  induction n generalizing a k with
  | zero => simp at hk
  | succ n ih =>
    cases k with
    | zero => simp [cellsRead]
    | succ k =>
      simp only [cellsRead, List.getElem_cons_succ]
      rw [ih]
      congr 1
      omega

/-- What is read depends only on the cells read. -/
theorem cellsRead_congr {c d : List (Nat × BitVec w)} {a n : Nat}
    (h : ∀ k, k < n → cellGet c (a + k) = cellGet d (a + k)) : cellsRead c a n = cellsRead d a n := by
  apply List.ext_getElem
  · simp
  · intro k hk hk'
    rw [cellsRead_getElem, cellsRead_getElem]
    exact h k (by simpa using hk)

/-- Reading the cells just written gives the values written. -/
theorem cellsRead_cellsWrite_same {c : List (Nat × BitVec w)} (h : cellsWf c = true) (a : Nat) (vs : List (BitVec w)) :
    cellsRead (cellsWrite c a vs) a vs.length = vs := by
  apply List.ext_getElem
  · simp
  · intro k hk hk'
    rw [cellsRead_getElem, cellGet_cellsWrite_inside h a vs hk']

/-- Reading cells apart from those written gives what it gave before. -/
theorem cellsRead_cellsWrite_apart (c : List (Nat × BitVec w)) {a b n : Nat} (vs : List (BitVec w))
    (h : b + n ≤ a ∨ a + vs.length ≤ b) : cellsRead (cellsWrite c a vs) b n = cellsRead c b n :=
  cellsRead_congr fun k hk => cellGet_cellsWrite_outside c vs (by omega)

/-- A longer read is the shorter one and the rest. -/
theorem cellsRead_append (c : List (Nat × BitVec w)) (a m n : Nat) :
    cellsRead c a (m + n) = cellsRead c a m ++ cellsRead c (a + m) n := by
  induction m generalizing a with
  | zero => simp [cellsRead]
  | succ m ih =>
    rw [show m + 1 + n = (m + n) + 1 by omega]
    simp [cellsRead, ih, Nat.add_assoc, Nat.add_comm 1 m]

end Sys2Proof.Machine
end

