-- ==== Sys2Proof/Laws/Codec.lean ====
section
/-! SUPPORT. The laws of the Word Codec (20_memory.md R50). -/

namespace Sys2Proof

@[simp] theorem leBytes_length (n v : Nat) : (leBytes n v).length = n := by
  induction n generalizing v with
  | zero => rfl
  | succ n ih => simp [leBytes, ih]

@[simp] theorem bytesOfWord_length (o : ByteOrder) (n : Nat) (w : Word) : (bytesOfWord o n w).length = n := by
  cases o <;> simp [bytesOfWord]

theorem leValue_leBytes (n v : Nat) : leValue (leBytes n v) = v % 2 ^ (8 * n) := by
  induction n generalizing v with
  | zero => simp [leBytes, leValue, Nat.mod_one]
  | succ n ih =>
    rw [leBytes, leValue, ih, BitVec.toNat_ofNat, show 8 * (n + 1) = 8 + 8 * n by ring, Nat.pow_add, Nat.mod_mul]

theorem leValue_lt (bs : List Byte) : leValue bs < 2 ^ (8 * bs.length) := by
  induction bs with
  | nil => simp [leValue]
  | cons b bs ih =>
    have hb := b.isLt
    rw [leValue, List.length_cons, show 8 * (bs.length + 1) = 8 * bs.length + 8 by ring, Nat.pow_add]
    omega

theorem leBytes_leValue (bs : List Byte) : leBytes bs.length (leValue bs) = bs := by
  induction bs with
  | nil => rfl
  | cons b bs ih =>
    have hb := b.isLt
    rw [List.length_cons, leBytes, leValue]
    have h1 : (b.toNat + 256 * leValue bs) / 256 = leValue bs := by omega
    have h2 : BitVec.ofNat 8 (b.toNat + 256 * leValue bs) = b := by
      apply BitVec.eq_of_toNat_eq
      rw [BitVec.toNat_ofNat]
      omega
    rw [h1, h2, ih]

theorem leValue_lt_word {bs : List Byte} (h : bs.length ≤ 8) : leValue bs < 2 ^ 64 :=
  lt_of_lt_of_le (leValue_lt bs) (Nat.pow_le_pow_right (by omega) (by omega))

theorem wordOfBytes_little_toNat (bs : List Byte) (h : bs.length ≤ 8) :
    (wordOfBytes .little bs).toNat = leValue bs := by
  rw [wordOfBytes, BitVec.toNat_ofNat, Nat.mod_eq_of_lt (leValue_lt_word h)]

/-- A Word read big-endian is the Word read little-endian from the other end. -/
theorem wordOfBytes_big (bs : List Byte) : wordOfBytes .big bs = wordOfBytes .little bs.reverse := rfl

theorem wordOfBytes_lt (o : ByteOrder) (bs : List Byte) (h : bs.length ≤ 8) :
    (wordOfBytes o bs).toNat < 2 ^ (8 * bs.length) := by
  cases o with
  | little => rw [wordOfBytes_little_toNat bs h]; exact leValue_lt bs
  | big =>
    rw [wordOfBytes_big, wordOfBytes_little_toNat _ (by simpa using h)]
    simpa using leValue_lt bs.reverse

/-- One byte is the same in either order. -/
theorem wordOfBytes_one (o : ByteOrder) (b : Byte) : wordOfBytes o [b] = b.setWidth 64 := by
  have h : wordOfBytes .little [b] = b.setWidth 64 := by
    apply BitVec.eq_of_toNat_eq
    have := b.isLt
    rw [wordOfBytes_little_toNat _ (by simp), BitVec.toNat_setWidth]
    simp only [leValue]
    omega
  cases o <;> exact h

/-- A Word's low n bytes, put together again. -/
theorem wordOfBytes_bytesOfWord (o : ByteOrder) (n : Nat) (w : Word) :
    wordOfBytes o (bytesOfWord o n w) = BitVec.ofNat 64 (w.toNat % 2 ^ (8 * n)) := by
  have hl : wordOfBytes .little (leBytes n w.toNat) = BitVec.ofNat 64 (w.toNat % 2 ^ (8 * n)) := by
    rw [wordOfBytes, leValue_leBytes]
  cases o with
  | little => exact hl
  | big => rw [wordOfBytes_big, bytesOfWord, List.reverse_reverse, hl]

/-- The codec's round trip (R50). -/
theorem wordOfBytes_bytesOfWord_eight (o : ByteOrder) (w : Word) : wordOfBytes o (bytesOfWord o 8 w) = w := by
  rw [wordOfBytes_bytesOfWord o 8 w]
  apply BitVec.eq_of_toNat_eq
  have := w.isLt
  rw [BitVec.toNat_ofNat]
  omega

/-- The other round trip: the bytes of the Word that at most eight bytes make are those bytes. -/
theorem bytesOfWord_wordOfBytes (o : ByteOrder) (bs : List Byte) (h : bs.length ≤ 8) :
    bytesOfWord o bs.length (wordOfBytes o bs) = bs := by
  cases o with
  | little => rw [bytesOfWord, wordOfBytes_little_toNat bs h, leBytes_leValue]
  | big =>
    rw [bytesOfWord, wordOfBytes_big, wordOfBytes_little_toNat _ (by simpa using h), ← List.length_reverse,
      leBytes_leValue, List.reverse_reverse]

theorem leBytes_getElem (n v k : Nat) (hk : k < (leBytes n v).length) :
    (leBytes n v)[k] = BitVec.ofNat 8 (v / 2 ^ (8 * k)) := by
  induction n generalizing v k with
  | zero => simp [leBytes] at hk
  | succ n ih =>
    cases k with
    | zero => simp [leBytes]
    | succ k =>
      simp only [leBytes, List.getElem_cons_succ]
      rw [ih, Nat.div_div_eq_div_mul, show 8 * (k + 1) = 8 + 8 * k by ring, Nat.pow_add]

/-- The byte k places after a value's lowest address is the byte its order puts there. -/
theorem bytesOfWord_getElem (o : ByteOrder) (n : Nat) (w : Word) (k : Nat) (hk : k < (bytesOfWord o n w).length) :
    (bytesOfWord o n w)[k] = w.extractLsb' (8 * o.place n k) 8 := by
  have h : ∀ j (hj : j < (leBytes n w.toNat).length), (leBytes n w.toNat)[j] = w.extractLsb' (8 * j) 8 := by
    intro j hj
    rw [leBytes_getElem]
    apply BitVec.eq_of_toNat_eq
    simp [BitVec.extractLsb'_toNat, Nat.shiftRight_eq_div_pow]
  cases o with
  | little => exact h k (by simpa using hk)
  | big =>
    simp only [bytesOfWord, List.getElem_reverse]
    rw [h]
    simp [ByteOrder.place]

theorem Size.bytes_pos (n : Size) : 0 < n.bytes := by cases n <;> decide

theorem Size.bytes_le (n : Size) : n.bytes ≤ 8 := by cases n <;> decide

end Sys2Proof
end

