-- ==== Sys2Proof/Laws/Ops.lean ====
section
/-! SUPPORT. One lemma per shared operation: everything it can answer. -/

namespace Sys2Proof.Machine

@[simp] theorem Res.bind_ok {α β : Type} (v : α) (s : State) (k : α → State → Res β) :
    (Res.ok v s).bind k = k v s := rfl
@[simp] theorem Res.bind_raise {α β : Type} (c : Cause) (info : Word) (s : State) (k : α → State → Res β) :
    (Res.raise c info s).bind k = .raise c info s := rfl
@[simp] theorem Res.bind_hold {α β : Type} (k : α → State → Res β) : (Res.hold : Res α).bind k = .hold := rfl
@[simp] theorem Res.bind_stop {α β : Type} (f : Fault) (k : α → State → Res β) :
    (Res.stop f : Res α).bind k = .stop f := rfl

@[simp] theorem finish_ok (s t : State) : finish s (.ok () t) = .next t := rfl
@[simp] theorem finish_raise (s t : State) (c : Cause) (info : Word) :
    finish s (.raise c info t) = .next (takeFault c info t) := rfl
@[simp] theorem finish_hold (s : State) : finish s .hold = .next (holdAt s) := rfl

@[simp] theorem finish_stop (s : State) (f : Fault) : finish s (.stop f) = .fault f := rfl

theorem checkBounds_cases (cap : Nat) (addr : Word) (n : Size) (s : State) :
    (addr.toNat + n.bytes ≤ cap ∧ checkBounds cap addr n s = .ok () s) ∨
      (addr.toNat + n.bytes > cap ∧ checkBounds cap addr n s = .raise .outOfBounds addr s) := by
  by_cases h : addr.toNat + n.bytes > cap
  · exact .inr ⟨h, by simp [checkBounds, h]⟩
  · exact .inl ⟨by omega, by simp [checkBounds, h]⟩

theorem memRead_cases (addr : Word) (n : Size) (s : State) :
    (addr.toNat + n.bytes ≤ s.cfg.memCap ∧
      memRead addr n s = .ok (wordOfBytes s.cfg.byteOrder (cellsRead s.mem addr.toNat n.bytes)) s) ∨
    (addr.toNat + n.bytes > s.cfg.memCap ∧ memRead addr n s = .raise .outOfBounds addr s) := by
  rcases checkBounds_cases s.cfg.memCap addr n s with ⟨h, e⟩ | ⟨h, e⟩ <;> simp [memRead, h, e]

theorem memWrite_cases (addr : Word) (n : Size) (v : Word) (s : State) :
    (addr.toNat + n.bytes ≤ s.cfg.memCap ∧
      memWrite addr n v s = .ok () { s with mem := cellsWrite s.mem addr.toNat (bytesOfWord s.cfg.byteOrder n.bytes v) }) ∨
    (addr.toNat + n.bytes > s.cfg.memCap ∧ memWrite addr n v s = .raise .outOfBounds addr s) := by
  rcases checkBounds_cases s.cfg.memCap addr n s with ⟨h, e⟩ | ⟨h, e⟩ <;> simp [memWrite, h, e]

theorem allWritten_iff (s : State) (a n : Nat) :
    allWritten s a n = true ↔ ∀ i, i < n → cellGet s.csWritten (a + i) = 1#1 := by
  simp only [allWritten, List.all_eq_true, beq_iff_eq]
  constructor
  · intro h i hi
    have hi' : i < (cellsRead s.csWritten a n).length := by simpa using hi
    rw [← cellsRead_getElem s.csWritten a n i hi']
    exact h _ (List.getElem_mem hi')
  · intro h b hb
    obtain ⟨i, hi, rfl⟩ := List.getElem_of_mem hb
    rw [cellsRead_getElem]
    exact h i (by simpa using hi)

theorem checkWritten_cases (addr : Word) (n : Size) (s : State) :
    ((s.cfg.csUnwrittenRead = .content ∨ allWritten s addr.toNat n.bytes = true) ∧ checkWritten addr n s = .ok () s) ∨
      (s.cfg.csUnwrittenRead = .fault ∧ allWritten s addr.toNat n.bytes = false ∧
        checkWritten addr n s = .stop (.unwrittenCallStackRead addr)) := by
  cases h : s.cfg.csUnwrittenRead <;> cases hw : allWritten s addr.toNat n.bytes <;> simp [checkWritten, h, hw]

theorem csRead_cases (addr : Word) (n : Size) (s : State) :
    (addr.toNat + n.bytes ≤ s.cfg.csCap ∧
      (s.cfg.csUnwrittenRead = .content ∨ allWritten s addr.toNat n.bytes = true) ∧
      csRead addr n s = .ok (wordOfBytes s.cfg.byteOrder (cellsRead s.cs addr.toNat n.bytes)) s) ∨
    (addr.toNat + n.bytes > s.cfg.csCap ∧ csRead addr n s = .raise .outOfBounds addr s) ∨
    (addr.toNat + n.bytes ≤ s.cfg.csCap ∧ s.cfg.csUnwrittenRead = .fault ∧
      allWritten s addr.toNat n.bytes = false ∧ csRead addr n s = .stop (.unwrittenCallStackRead addr)) := by
  rcases checkBounds_cases s.cfg.csCap addr n s with ⟨h, e⟩ | ⟨h, e⟩
  · rcases checkWritten_cases addr n s with ⟨hw, ew⟩ | ⟨hf, hw, ew⟩
    · exact .inl ⟨h, hw, by simp [csRead, e, ew]⟩
    · exact .inr (.inr ⟨h, hf, hw, by simp [csRead, e, ew]⟩)
  · exact .inr (.inl ⟨h, by simp [csRead, e]⟩)

theorem csWrite_cases (addr : Word) (n : Size) (v : Word) (s : State) :
    (addr.toNat + n.bytes ≤ s.cfg.csCap ∧ csWrite addr n v s = .ok () (csStored addr.toNat n v s)) ∨
    (addr.toNat + n.bytes > s.cfg.csCap ∧ csWrite addr n v s = .raise .outOfBounds addr s) := by
  rcases checkBounds_cases s.cfg.csCap addr n s with ⟨h, e⟩ | ⟨h, e⟩ <;> simp [csWrite, h, e]

theorem push_cases (v : Word) (s : State) :
    (s.sp.toNat ≠ s.cfg.osCap ∧ push v s = .ok () (pushed v s)) ∨
      (s.sp.toNat = s.cfg.osCap ∧ push v s = .raise .stackOverflow s.sp s) := by
  by_cases h : s.sp.toNat = s.cfg.osCap
  · exact .inr ⟨h, by simp [push, h]⟩
  · exact .inl ⟨h, by simp [push, h]⟩

theorem pop_cases (s : State) :
    (s.sp ≠ 0#64 ∧ pop s = .ok (stackAt s 0#64) (popped s)) ∨ (s.sp = 0#64 ∧ pop s = .raise .stackUnderflow 0#64 s) := by
  by_cases h : s.sp = 0#64
  · exact .inr ⟨h, by simp [pop, h]⟩
  · exact .inl ⟨h, by simp [pop, h]⟩

theorem peek_cases (k : Word) (s : State) :
    (k.toNat < s.sp.toNat ∧ peek k s = .ok (stackAt s k) s) ∨
      (s.sp.toNat ≤ k.toNat ∧ peek k s = .raise .stackUnderflow k s) := by
  by_cases h : s.sp.toNat ≤ k.toNat
  · exact .inr ⟨h, by simp [peek, h]⟩
  · exact .inl ⟨by omega, by simp [peek, h]⟩

theorem swapTop_cases (k : Word) (s : State) :
    (k.toNat < s.sp.toNat ∧ swapTop k s = .ok () { s with
      os := cellSet (cellSet s.os (s.sp - 1#64).toNat (stackAt s k)) (s.sp - 1#64 - k).toNat (stackAt s 0#64) }) ∨
      (s.sp.toNat ≤ k.toNat ∧ swapTop k s = .raise .stackUnderflow k s) := by
  by_cases h : s.sp.toNat ≤ k.toNat
  · exact .inr ⟨h, by simp [swapTop, h]⟩
  · exact .inl ⟨by omega, by simp [swapTop, h]⟩

theorem emit_cases (bytes : List Byte) (s : State) :
    (s.outReady = true ∧ emit bytes s = .ok () { s with out := s.out ++ bytes }) ∨
      (s.outReady = false ∧ emit bytes s = .hold) := by
  cases h : s.outReady <;> simp [emit, h]

theorem takeInput_cases (s : State) :
    (∃ v rest, s.input = v :: rest ∧ takeInput s = .ok v { s with input := rest, inPos := s.inPos + 1 }) ∨
      (s.input = [] ∧ takeInput s = .hold) := by
  cases h : s.input with
  | nil => exact .inr ⟨rfl, by simp [takeInput, h]⟩
  | cons v rest => exact .inl ⟨v, rest, rfl, by simp [takeInput, h]⟩

/-! ### The Word at a stack index, in the natural numbers -/

theorem toNat_sub_one {a : Word} (h : a ≠ 0#64) : (a - 1#64).toNat = a.toNat - 1 := by
  have h0 : a.toNat ≠ 0 := fun e => h (BitVec.eq_of_toNat_eq (by simpa using e))
  bv_omega

theorem toNat_sub_of_le {a b : Word} (h : b.toNat ≤ a.toNat) : (a - b).toNat = a.toNat - b.toNat := by
  bv_omega

theorem toNat_add_of_lt {a : Word} {n : Nat} (h : a.toNat + n < 2 ^ 64) : (a + BitVec.ofNat 64 n).toNat = a.toNat + n := by
  bv_omega

/-- The Word k below the top lies at index sp − 1 − k. -/
theorem stackAt_eq {s : State} {k : Word} (h : k.toNat < s.sp.toNat) :
    stackAt s k = cellGet s.os (s.sp.toNat - 1 - k.toNat) := by
  have : (s.sp - 1#64 - k).toNat = s.sp.toNat - 1 - k.toNat := by bv_omega
  rw [stackAt, this]

/-- A byte after n bytes of a Word were written: one of them, or the byte before. -/
theorem cellGet_stored {c : Memory} (h : Memory.wf c = true) (o : ByteOrder) (a n : Nat) (v : Word) (x : Nat) :
    cellGet (cellsWrite c a (bytesOfWord o n v)) x =
      if a ≤ x ∧ x < a + n then v.extractLsb' (8 * o.place n (x - a)) 8 else cellGet c x := by
  rw [cellGet_cellsWrite h]
  simp only [bytesOfWord_length]
  split
  · rw [bytesOfWord_getElem]
  · rfl

/-- A mark after n bytes were marked: 1, or the mark before. -/
theorem cellGet_marked {c : Marks} (h : cellsWf c = true) (a n x : Nat) :
    cellGet (cellsWrite c a (List.replicate n 1#1)) x = if a ≤ x ∧ x < a + n then 1#1 else cellGet c x := by
  rw [cellGet_cellsWrite h]
  simp only [List.length_replicate]
  split
  · rw [List.getElem_replicate]
  · rfl

/-! ### The canonical form -/

/-- Every write to Memory keeps its canonical form. -/
theorem memWrite_keeps_wf {addr : Word} {n : Size} {v : Word} {s t : State} (hs : Memory.wf s.mem = true)
    (h : memWrite addr n v s = .ok () t) : Memory.wf t.mem = true := by
  rcases memWrite_cases addr n v s with ⟨_, e⟩ | ⟨_, e⟩
  · rw [e, Res.ok.injEq] at h
    rw [← h.2]
    exact cellsWrite_wf hs _ _
  · simp [e] at h

/-- Every write to the Call Stack keeps its canonical form, and that of its marks. -/
theorem csWrite_keeps_wf {addr : Word} {n : Size} {v : Word} {s t : State} (hs : Memory.wf s.cs = true)
    (hw : cellsWf s.csWritten = true) (h : csWrite addr n v s = .ok () t) :
    Memory.wf t.cs = true ∧ cellsWf t.csWritten = true := by
  rcases csWrite_cases addr n v s with ⟨_, e⟩ | ⟨_, e⟩
  · rw [e, Res.ok.injEq] at h
    rw [← h.2]
    exact ⟨cellsWrite_wf hs _ _, cellsWrite_wf hw _ _⟩
  · simp [e] at h

/-- The Operand Stack's writes keep its canonical form. -/
theorem pushed_keeps_wf {v : Word} {s : State} (hs : cellsWf s.os = true) : cellsWf (pushed v s).os = true :=
  cellSet_wf hs _ _

/-- The reset state's buffers have the canonical form. -/
theorem reset_buffers_wf :
    Memory.wf State.reset.mem = true ∧ Memory.wf State.reset.cs = true ∧ cellsWf State.reset.csWritten = true ∧
      cellsWf State.reset.os = true := by decide

end Sys2Proof.Machine
end

