-- ==== Sys2Proof/Laws/Operands.lean ====
section
/-! SUPPORT. What the operand forms do, one lemma per case of the stack's depth. -/

namespace Sys2Proof.Machine

theorem pop_of_zero {s : State} (h : s.sp.toNat = 0) : pop s = .raise .stackUnderflow 0#64 s := by
  have h0 : s.sp = 0#64 := BitVec.eq_of_toNat_eq (by simpa using h)
  simp [pop, h0]

theorem pop_of_pos {s : State} (h : 1 ≤ s.sp.toNat) : pop s = .ok (cellGet s.os (s.sp.toNat - 1)) (popped s) := by
  have h0 : s.sp ≠ 0#64 := fun e => by simp [e] at h
  rw [pop, if_neg h0, stackAt_eq (by simp; omega)]
  rfl

theorem push_of_room {s : State} (v : Word) (h : s.sp.toNat ≠ s.cfg.osCap) : push v s = .ok () (pushed v s) := by
  simp [push, h]

theorem push_of_full {s : State} (v : Word) (h : s.sp.toNat = s.cfg.osCap) :
    push v s = .raise .stackOverflow s.sp s := by
  simp [push, h]

theorem unary_of_pos {s : State} (f : Word → State → Res Unit) (h : 1 ≤ s.sp.toNat) :
    unary f s = f (cellGet s.os (s.sp.toNat - 1)) (popped s) := by
  rw [unary, pop_of_pos h, Res.bind_ok]

theorem unary_of_zero {s : State} (f : Word → State → Res Unit) (h : s.sp.toNat = 0) :
    unary f s = .raise .stackUnderflow 0#64 s := by
  rw [unary, pop_of_zero h, Res.bind_raise]

/-- With two Words or more: the right operand is the top, the left one the Word below it, and both are gone. -/
theorem binary_of_two {s : State} (f : Word → Word → State → Res Unit) (h : 2 ≤ s.sp.toNat) :
    binary f s =
      f (cellGet s.os (s.sp.toNat - 2)) (cellGet s.os (s.sp.toNat - 1)) { s with sp := s.sp - 2#64 } := by
  have h1 : (s.sp - 1#64).toNat = s.sp.toNat - 1 := by bv_omega
  have h2 : s.sp - 1#64 - 1#64 = s.sp - 2#64 := by bv_omega
  have h3 : s.sp.toNat - 1 - 1 = s.sp.toNat - 2 := by omega
  rw [binary, pop_of_pos (by omega), Res.bind_ok, pop_of_pos (by simp only [popped]; omega)]
  simp only [Res.bind_ok, popped, h1, h2, h3]

/-- With one Word: it is popped, then the second pop raises. -/
theorem binary_of_one {s : State} (f : Word → Word → State → Res Unit) (h : s.sp.toNat = 1) :
    binary f s = .raise .stackUnderflow 0#64 { s with sp := 0#64 } := by
  have h1 : (popped s).sp.toNat = 0 := by simp only [popped]; bv_omega
  have h2 : s.sp - 1#64 = 0#64 := by bv_omega
  rw [binary, pop_of_pos (by omega), Res.bind_ok, pop_of_zero h1, Res.bind_raise]
  simp only [popped, h2]

theorem binary_of_zero {s : State} (f : Word → Word → State → Res Unit) (h : s.sp.toNat = 0) :
    binary f s = .raise .stackUnderflow 0#64 s := by
  rw [binary, pop_of_zero h, Res.bind_raise]

theorem frameAddr_cases (off : Word) (s : State) :
    (off.toNat ≤ s.fp.toNat ∧ (s.fp - off).toNat = s.fp.toNat - off.toNat ∧ frameAddr off s = .ok (s.fp - off) s) ∨
      (off.toNat > s.fp.toNat ∧ frameAddr off s = .raise .outOfBounds (s.fp - off) s) := by
  by_cases h : off.toNat > s.fp.toNat
  · exact .inr ⟨h, by rw [frameAddr, if_pos h]⟩
  · exact .inl ⟨by omega, toNat_sub_of_le (by omega), by rw [frameAddr, if_neg h]⟩

/-- A constant that fits its width is pushed as it is. -/
theorem constOperand_of_lt {n : Size} {imm : Word} (h : imm.toNat < 2 ^ (8 * n.bytes)) : constOperand n imm = imm := by
  apply BitVec.eq_of_toNat_eq
  have hm : (2 ^ (8 * n.bytes) - 1) % 2 ^ 64 = 2 ^ (8 * n.bytes) - 1 := by cases n <;> decide
  rw [constOperand, BitVec.toNat_and, BitVec.toNat_ofNat, hm, Nat.and_two_pow_sub_one_eq_mod, Nat.mod_eq_of_lt h]

end Sys2Proof.Machine
end

