-- ==== Sys2Proof/Laws/CallReturn.lean ====
section
/-! SUPPORT. What the argument loop of PushFrame does, with arguments enough and with too few. -/

namespace Sys2Proof.Machine

theorem csWrite_of_fits {s : State} {a : Nat} (v : Word) (h : a + 8 ≤ s.cfg.csCap) (hc : s.cfg.csCap < 2 ^ 64) :
    csWrite (BitVec.ofNat 64 a) .s8 v s = .ok () (csStored a .s8 v s) := by
  have ha : (BitVec.ofNat 64 a).toNat = a := by rw [BitVec.toNat_ofNat, Nat.mod_eq_of_lt (by omega)]
  rcases csWrite_cases (BitVec.ofNat 64 a) .s8 v s with ⟨_, e⟩ | ⟨h3, _⟩
  · rw [e, ha]
  · simp [Size.bytes, ha] at h3; omega

/-- With the arguments there, slot i gets the i-th of the top k Words, counted from the deepest; no other byte of the
Call Stack changes. -/
theorem popArgs_of_enough (base k : Nat) (s : State) (hk : k ≤ s.sp.toNat) (hb : base + 8 * k ≤ s.cfg.csCap)
    (hc : s.cfg.csCap < 2 ^ 64) (hwf : Memory.wf s.cs = true) (hwr : cellsWf s.csWritten = true) :
    ∃ (cs' : Memory) (wr' : Marks),
      popArgs base k s = .ok () { s with sp := s.sp - BitVec.ofNat 64 k, cs := cs', csWritten := wr' } ∧
      Memory.wf cs' = true ∧ cellsWf wr' = true ∧
      (∀ i j, i < k → j < 8 → cellGet cs' (base + 8 * i + j) =
        (cellGet s.os (s.sp.toNat - k + i)).extractLsb' (8 * s.cfg.byteOrder.place 8 j) 8) ∧
      (∀ a, (a < base ∨ base + 8 * k ≤ a) → cellGet cs' a = cellGet s.cs a) ∧
      ∀ a, cellGet wr' a = if base ≤ a ∧ a < base + 8 * k then 1#1 else cellGet s.csWritten a := by
  induction k generalizing s with
  | zero =>
    exact ⟨s.cs, s.csWritten, by simp [popArgs], hwf, hwr, by simp, by simp, fun a => by rw [if_neg (by omega)]⟩
  | succ k ih =>
    have e1 : (s.sp - 1#64).toNat = s.sp.toNat - 1 := by bv_omega
    rw [popArgs, pop_of_pos (by omega), Res.bind_ok,
      csWrite_of_fits _ (by simp only [popped]; omega) (by exact hc), Res.bind_ok]
    obtain ⟨cs', wr', h1, h2, h3, h4, h5, h6⟩ := ih (csStored (base + 8 * k) .s8 (cellGet s.os (s.sp.toNat - 1)) (popped s))
      (by simp only [csStored, popped, e1]; omega) (by simp only [csStored, popped]; omega) hc
      (cellsWrite_wf hwf _ _) (cellsWrite_wf hwr _ _)
    have hw := cellGet_stored hwf s.cfg.byteOrder (base + 8 * k) 8 (cellGet s.os (s.sp.toNat - 1))
    have hm := cellGet_marked hwr (base + 8 * k) 8
    simp only [csStored, popped, e1, Size.bytes] at h1 h4 h5 h6
    refine ⟨cs', wr', ?_, h2, h3, fun i j hi hj => ?_, fun a ha => ?_, fun a => ?_⟩
    · have : s.sp - 1#64 - BitVec.ofNat 64 k = s.sp - BitVec.ofNat 64 (k + 1) := by bv_omega
      rw [this] at h1
      exact h1
    · by_cases hik : i < k
      · rw [h4 i j hik hj, show s.sp.toNat - 1 - k + i = s.sp.toNat - (k + 1) + i by omega]
      · obtain rfl : i = k := by omega
        rw [h5 _ (by omega), hw, if_pos (by omega), show s.sp.toNat - (i + 1) + i = s.sp.toNat - 1 by omega,
          show base + 8 * i + j - (base + 8 * i) = j by omega]
    · rw [h5 a (by omega), hw, if_neg (by omega)]
    · rw [h6 a, hm]
      split_ifs <;> first | rfl | omega

/-- With too few, every Word there is is popped into its slot, from the top slot down, and then the pop raises. -/
theorem popArgs_of_short (base k : Nat) (s : State) (hk : s.sp.toNat < k) (hb : base + 8 * k ≤ s.cfg.csCap)
    (hc : s.cfg.csCap < 2 ^ 64) (hwf : Memory.wf s.cs = true) (hwr : cellsWf s.csWritten = true) :
    ∃ (cs' : Memory) (wr' : Marks),
      popArgs base k s = .raise .stackUnderflow 0#64 { s with sp := 0#64, cs := cs', csWritten := wr' } ∧
      (∀ i j, i < s.sp.toNat → j < 8 → cellGet cs' (base + 8 * (k - 1 - i) + j) =
        (cellGet s.os (s.sp.toNat - 1 - i)).extractLsb' (8 * s.cfg.byteOrder.place 8 j) 8) ∧
      (∀ a, (a < base + 8 * (k - s.sp.toNat) ∨ base + 8 * k ≤ a) → cellGet cs' a = cellGet s.cs a) ∧
      ∀ a, cellGet wr' a =
        if base + 8 * (k - s.sp.toNat) ≤ a ∧ a < base + 8 * k then 1#1 else cellGet s.csWritten a := by
  induction k generalizing s with
  | zero => omega
  | succ k ih =>
    by_cases hz : s.sp.toNat = 0
    · have h0 : s.sp = 0#64 := BitVec.eq_of_toNat_eq (by simpa using hz)
      exact ⟨s.cs, s.csWritten, by rw [popArgs, pop_of_zero hz, Res.bind_raise, ← h0], by omega, by simp,
        fun a => by rw [if_neg (by omega)]⟩
    have e1 : (s.sp - 1#64).toNat = s.sp.toNat - 1 := by bv_omega
    rw [popArgs, pop_of_pos (by omega), Res.bind_ok,
      csWrite_of_fits _ (by simp only [popped]; omega) (by exact hc), Res.bind_ok]
    obtain ⟨cs', wr', h1, h4, h5, h6⟩ := ih (csStored (base + 8 * k) .s8 (cellGet s.os (s.sp.toNat - 1)) (popped s))
      (by simp only [csStored, popped, e1]; omega) (by simp only [csStored, popped]; omega) hc
      (cellsWrite_wf hwf _ _) (cellsWrite_wf hwr _ _)
    have hw := cellGet_stored hwf s.cfg.byteOrder (base + 8 * k) 8 (cellGet s.os (s.sp.toNat - 1))
    have hm := cellGet_marked hwr (base + 8 * k) 8
    simp only [csStored, popped, e1, Size.bytes] at h1 h4 h5 h6
    refine ⟨cs', wr', h1, fun i j hi hj => ?_, fun a ha => ?_, fun a => ?_⟩
    · cases i with
      | zero =>
        rw [h5 _ (by omega), hw, if_pos (by omega), show base + 8 * (k + 1 - 1 - 0) + j - (base + 8 * k) = j by omega]
        rfl
      | succ i =>
        rw [show k + 1 - 1 - (i + 1) = k - 1 - i by omega, h4 i j (by omega) hj,
          show s.sp.toNat - 1 - 1 - i = s.sp.toNat - 1 - (i + 1) by omega]
    · rw [h5 a (by omega), hw, if_neg (by omega)]
    · rw [h6 a, hm]
      split_ifs <;> first | rfl | omega

end Sys2Proof.Machine
end

