-- ==== Sys2Proof/Laws/Decode.lean ====
section
/-! SUPPORT. The laws of an admissible decode table: which row an opcode byte and an instruction find, and what the
instruction of a row is. -/

namespace Sys2Proof

/-- R84's table is admissible. -/
theorem decodeTable_wf : decodeTable.wf = true := by decide

/-- R84's table has every instruction. -/
theorem decodeTable_has (i : Instr) : decodeTable.has i = true := by
  cases i <;> first | rfl | (rename_i n _; cases n <;> rfl)

theorem DecodeTable.wf_iff (t : DecodeTable) : t.wf = true ↔ (∀ row ∈ t, row.wf = true) ∧ t.apart = true := by
  simp only [DecodeTable.wf, Bool.and_eq_true, List.all_eq_true]

theorem DecodeRow.wf_iff (row : DecodeRow) :
    row.wf = true ↔ (row.mnemonic.sized = true ∨ row.size = .s1) ∧ row.format = row.mnemonic.format := by
  simp only [DecodeRow.wf, Bool.and_eq_true, Bool.or_eq_true, beq_iff_eq]

theorem DecodeRow.apart_iff (a b : DecodeRow) :
    a.apart b = true ↔ a.opcode ≠ b.opcode ∧ ¬(a.mnemonic = b.mnemonic ∧ a.size = b.size) := by
  simp only [DecodeRow.apart, Bool.and_eq_true, Bool.not_eq_true', Bool.eq_false_iff, ne_eq, beq_iff_eq]

/-- Two rows of one table that are not apart are the same row. -/
theorem DecodeTable.eq_of_not_apart {t : DecodeTable} (h : t.apart = true) {a b : DecodeRow} (ha : a ∈ t) (hb : b ∈ t)
    (hn : a.opcode = b.opcode ∨ a.mnemonic = b.mnemonic ∧ a.size = b.size) : a = b := by
  induction t with
  | nil => simp at ha
  | cons r rest ih =>
    simp only [DecodeTable.apart, Bool.and_eq_true, List.all_eq_true, DecodeRow.apart_iff] at h
    rcases List.mem_cons.mp ha with rfl | ha' <;> rcases List.mem_cons.mp hb with rfl | hb'
    · rfl
    · have := h.1 b hb'; tauto
    · have := h.1 a ha'
      rcases hn with hn | ⟨hm, hs⟩
      · exact absurd hn.symm this.1
      · exact absurd ⟨hm.symm, hs.symm⟩ this.2
    · exact ih h.2 ha' hb'

/-- The row an opcode byte finds is of the table and has that byte. -/
theorem of_lookupOpcode {t : DecodeTable} {op : Byte} {row : DecodeRow} (h : lookupOpcode t op = some row) :
    row ∈ t ∧ row.opcode = op :=
  ⟨List.mem_of_find?_eq_some h, by simpa using List.find?_some h⟩

/-- The row an instruction finds is of the table and is its own. -/
theorem of_rowOf {t : DecodeTable} {i : Instr} {row : DecodeRow} (h : rowOf t i = some row) :
    row ∈ t ∧ row.mnemonic = i.mnemonic ∧ row.size = i.size :=
  ⟨List.mem_of_find?_eq_some h, by simpa using List.find?_some h⟩

/-- In an admissible table a row's opcode byte finds that row. -/
theorem lookupOpcode_of_mem {t : DecodeTable} (h : t.wf = true) {row : DecodeRow} (hr : row ∈ t) :
    lookupOpcode t row.opcode = some row := by
  cases hf : lookupOpcode t row.opcode with
  | none => exact absurd (beq_self_eq_true row.opcode) (List.find?_eq_none.mp hf row hr)
  | some r =>
    obtain ⟨hm, ho⟩ := of_lookupOpcode hf
    rw [DecodeTable.eq_of_not_apart ((DecodeTable.wf_iff t).mp h).2 hm hr (.inl ho)]

/-- In an admissible table a row's instruction finds that row. -/
theorem rowOf_of_mem {t : DecodeTable} (h : t.wf = true) {row : DecodeRow} (hr : row ∈ t) {i : Instr}
    (hm : row.mnemonic = i.mnemonic) (hs : row.size = i.size) : rowOf t i = some row := by
  cases hf : rowOf t i with
  | none => exact absurd (by simp [hm, hs]) (List.find?_eq_none.mp hf row hr)
  | some r =>
    obtain ⟨hr', hm', hs'⟩ := of_rowOf hf
    rw [DecodeTable.eq_of_not_apart ((DecodeTable.wf_iff t).mp h).2 hr' hr
      (.inr ⟨hm'.trans hm.symm, hs'.trans hs.symm⟩)]

/-! ### The instruction a mnemonic makes -/

theorem assemble_mnemonic (m : Mnemonic) (s : Size) (w : Word) : (assemble m s w).mnemonic = m := by cases m <;> rfl

/-- s of the instruction: the width given to a sized mnemonic, else 1. -/
theorem assemble_size (m : Mnemonic) (s : Size) (w : Word) :
    (assemble m s w).size = if m.sized = true then s else .s1 := by cases m <;> rfl

/-- The immediate of the instruction: what the mnemonic's format fetches. -/
theorem assemble_imm (m : Mnemonic) (s : Size) (w : Word) :
    (assemble m s w).imm = (m.format.immSize s).map fun n => (n, w) := by cases m <;> rfl

theorem assemble_wf {m : Mnemonic} {s : Size} {w : Word}
    (h : ∀ n, m.format.immSize s = some n → w.toNat < 2 ^ (8 * n.bytes)) : (assemble m s w).wf = true := by
  cases m <;> first | rfl | (simp only [assemble, Instr.wf, decide_eq_true_eq]; exact h s rfl)

/-- Every instruction is what its mnemonic, its size and its immediate make. -/
theorem assemble_self (i : Instr) : assemble i.mnemonic i.size ((i.imm.map (·.2)).getD 0#64) = i := by cases i <;> rfl

/-- The width of an instruction's immediate is what its mnemonic's format fetches. -/
theorem imm_size (i : Instr) : i.imm.map (·.1) = i.mnemonic.format.immSize i.size := by cases i <;> rfl

theorem imm_fits {i : Instr} (h : i.wf = true) {n : Size} {w : Word} (hi : i.imm = some (n, w)) :
    w.toNat < 2 ^ (8 * n.bytes) := by
  cases i <;> simp only [Instr.imm, Option.some.injEq, Prod.mk.injEq, reduceCtorEq] at hi
  case loadConst => obtain ⟨rfl, rfl⟩ := hi; simpa [Instr.wf] using h
  all_goals obtain ⟨rfl, rfl⟩ := hi; exact BitVec.isLt _

/-! ### The instruction of a row -/

/-- The instruction of an admissible table's row is the row's own, fetches what the row fetches, and is well-formed when
its immediate fits. -/
theorem instr_of_mem {t : DecodeTable} (h : t.wf = true) {row : DecodeRow} (hr : row ∈ t) (w : Word) :
    (row.instr w).mnemonic = row.mnemonic ∧ (row.instr w).size = row.size ∧
      (row.instr w).imm = row.immSize.map (fun n => (n, w)) ∧
      ((∀ n, row.immSize = some n → w.toNat < 2 ^ (8 * n.bytes)) → (row.instr w).wf = true) := by
  obtain ⟨hs, hf⟩ := (DecodeRow.wf_iff row).mp (((DecodeTable.wf_iff t).mp h).1 row hr)
  rw [DecodeRow.instr, DecodeRow.immSize, hf, assemble_imm, assemble_size]
  refine ⟨assemble_mnemonic _ _ _, ?_, rfl, assemble_wf⟩
  split
  · rfl
  · exact (hs.resolve_left ‹_›).symm

/-- In an admissible table an instruction the table has finds, by its opcode byte, a row that fetches what the
instruction holds and makes it. -/
theorem lookupOpcode_of_has {t : DecodeTable} (h : t.wf = true) {i : Instr} (hi : t.has i = true) :
    ∃ row, lookupOpcode t (opcodeOf t i) = some row ∧ row.immSize = i.imm.map (·.1) ∧
      row.instr ((i.imm.map (·.2)).getD 0#64) = i := by
  obtain ⟨row, hrow⟩ := Option.isSome_iff_exists.mp hi
  obtain ⟨hr, hm, hs⟩ := of_rowOf hrow
  refine ⟨row, ?_, ?_, ?_⟩
  · rw [opcodeOf, hrow]; exact lookupOpcode_of_mem h hr
  · rw [DecodeRow.immSize, ((DecodeRow.wf_iff row).mp (((DecodeTable.wf_iff t).mp h).1 row hr)).2, hm, hs, imm_size]
  · rw [DecodeRow.instr, hm, hs, assemble_self]

/-- In an admissible table the opcode byte of a row's instruction is the row's. -/
theorem opcodeOf_instr {t : DecodeTable} (h : t.wf = true) {row : DecodeRow} (hr : row ∈ t) (w : Word) :
    opcodeOf t (row.instr w) = row.opcode := by
  obtain ⟨hm, hs, -, -⟩ := instr_of_mem h hr w
  rw [opcodeOf, rowOf_of_mem h hr hm.symm hs.symm]

end Sys2Proof
end

