-- ==== Sys2Proof/Laws/Fetch.lean ====
section
/-! SUPPORT. What a fetch does inside and beyond Memory, and what a step is. -/

namespace Sys2Proof.Machine

theorem fetchImm_cases (n : Size) (s : State) :
    (s.ip.toNat + n.bytes ≤ s.cfg.memCap ∧
      fetchImm n s = .ok (wordOfBytes s.cfg.byteOrder (cellsRead s.mem s.ip.toNat n.bytes)) (advance n.bytes s)) ∨
    (s.ip.toNat + n.bytes > s.cfg.memCap ∧ fetchImm n s = .raise .outOfBounds s.ip s) := by
  rcases memRead_cases s.ip n s with ⟨h, e⟩ | ⟨h, e⟩ <;> simp [fetchImm, h, e]

/-- With no opcode byte in Memory the fetch raises, and ip stays. -/
theorem fetchDecode_of_beyond {s : State} (h : s.cfg.memCap ≤ s.ip.toNat) :
    fetchDecode s = .raise .outOfBounds s.ip { s with faultAddr := s.ip } := by
  rcases memRead_cases s.ip .s1 { s with faultAddr := s.ip } with ⟨h2, _⟩ | ⟨_, e⟩
  · simp [Size.bytes] at h2; omega
  · rw [fetchDecode, e, Res.bind_raise]

/-- With the opcode byte in Memory: the fetch up to the execute stage, in terms of that byte. -/
theorem fetchDecode_of_within {s : State} (h : s.ip.toNat < s.cfg.memCap) :
    fetchDecode s =
      (let op := cellGet s.mem s.ip.toNat
       let t := { s with faultAddr := s.ip, ip := s.ip + 1#64 }
       match lookupOpcode s.cfg.decodeTable op with
       | none => .raise .unknownOpcode (op.setWidth 64) t
       | some row =>
         match row.immSize with
         | none => .ok (row.instr 0#64) t
         | some n => (fetchImm n t).bind fun imm u => .ok (row.instr imm) u) := by
  rcases memRead_cases s.ip .s1 { s with faultAddr := s.ip } with ⟨_, e⟩ | ⟨h2, _⟩
  · have hv : wordOfBytes s.cfg.byteOrder (cellsRead s.mem s.ip.toNat Size.s1.bytes) =
        (cellGet s.mem s.ip.toNat).setWidth 64 := wordOfBytes_one _ _
    have ht : ((cellGet s.mem s.ip.toNat).setWidth 64).truncate 8 = cellGet s.mem s.ip.toNat := by simp
    rw [fetchDecode, e, Res.bind_ok]
    simp only [hv, ht]
    rfl
  · simp [Size.bytes] at h2; omega

/-- A step of a running engine. -/
theorem step_of_running {s : State} (h : s.runState = .running) :
    step s =
      match fetchDecode s with
      | .ok i t => exec i t
      | .raise c info t => .next (takeFault c info t)
      | .hold => .next s
      | .stop f => .fault f := by
  cases hf : fetchDecode s <;> simp [step, h, hf]

/-- A step of a stopped engine with a host command. -/
theorem step_of_command {s : State} {c : HostCmd} {rest : List HostCmd} (h : s.runState ≠ .running)
    (hq : s.hostCmds = c :: rest) : step s = hostExec c { s with hostCmds := rest } := by
  rw [step, if_neg h, stoppedStep]
  rw [hq]

/-- The longer read begins with the shorter one. -/
theorem cellsRead_take {w : Nat} (c : List (Nat × BitVec w)) (a : Nat) {n k : Nat} (h : k ≤ n) :
    (cellsRead c a n).take k = cellsRead c a k := by
  obtain ⟨m, rfl⟩ := Nat.exists_eq_add_of_le h
  rw [cellsRead_append, List.take_append_of_le_length (by simp), List.take_of_length_le (by simp)]

end Sys2Proof.Machine
end

