-- ==== Sys2Proof/Laws/PerInstr.lean ====
section
/-! SUPPORT. A statement of every instruction as syntax, one lemma per constructor: its encoding has its length. -/

namespace Sys2Proof.Laws

/-- An encoding has the length of its instruction (30_encoding.md R83, R87). -/
def EncodeLength.Statement (i : Instr) : Prop := ∀ p : Params, (encode p i).length = i.length

/-- The count of a form with an immediate. -/
theorem EncodeLength.of_imm {i : Instr} {n : Size} {w : Word} (h : i.imm = some (n, w)) : EncodeLength.Statement i := by
  intro p
  simp [encode, Instr.length, h, Nat.add_comm]

theorem EncodeLength.done : EncodeLength.Statement .done := fun _ => rfl
theorem EncodeLength.popRes : EncodeLength.Statement .popRes := fun _ => rfl
theorem EncodeLength.abort : EncodeLength.Statement .abort := fun _ => rfl
theorem EncodeLength.loadConst (n : Size) (w : Word) : EncodeLength.Statement (.loadConst n w) := of_imm rfl
theorem EncodeLength.load (n : Size) (w : Word) : EncodeLength.Statement (.load n w) := of_imm rfl
theorem EncodeLength.store (n : Size) (w : Word) : EncodeLength.Statement (.store n w) := of_imm rfl
theorem EncodeLength.loadFrame (n : Size) (w : Word) : EncodeLength.Statement (.loadFrame n w) := of_imm rfl
theorem EncodeLength.storeFrame (n : Size) (w : Word) : EncodeLength.Statement (.storeFrame n w) := of_imm rfl
theorem EncodeLength.pop : EncodeLength.Statement .pop := fun _ => rfl
theorem EncodeLength.dup (w : Word) : EncodeLength.Statement (.dup w) := of_imm rfl
theorem EncodeLength.swap (w : Word) : EncodeLength.Statement (.swap w) := of_imm rfl
theorem EncodeLength.add : EncodeLength.Statement .add := fun _ => rfl
theorem EncodeLength.sub : EncodeLength.Statement .sub := fun _ => rfl
theorem EncodeLength.mul : EncodeLength.Statement .mul := fun _ => rfl
theorem EncodeLength.div : EncodeLength.Statement .div := fun _ => rfl
theorem EncodeLength.mod : EncodeLength.Statement .mod := fun _ => rfl
theorem EncodeLength.neg : EncodeLength.Statement .neg := fun _ => rfl
theorem EncodeLength.bitAnd : EncodeLength.Statement .bitAnd := fun _ => rfl
theorem EncodeLength.bitOr : EncodeLength.Statement .bitOr := fun _ => rfl
theorem EncodeLength.bitXor : EncodeLength.Statement .bitXor := fun _ => rfl
theorem EncodeLength.bitNot : EncodeLength.Statement .bitNot := fun _ => rfl
theorem EncodeLength.shl : EncodeLength.Statement .shl := fun _ => rfl
theorem EncodeLength.shr : EncodeLength.Statement .shr := fun _ => rfl
theorem EncodeLength.cmpEq : EncodeLength.Statement .cmpEq := fun _ => rfl
theorem EncodeLength.cmpNe : EncodeLength.Statement .cmpNe := fun _ => rfl
theorem EncodeLength.cmpLt : EncodeLength.Statement .cmpLt := fun _ => rfl
theorem EncodeLength.cmpLe : EncodeLength.Statement .cmpLe := fun _ => rfl
theorem EncodeLength.cmpGt : EncodeLength.Statement .cmpGt := fun _ => rfl
theorem EncodeLength.cmpGe : EncodeLength.Statement .cmpGe := fun _ => rfl
theorem EncodeLength.outNum : EncodeLength.Statement .outNum := fun _ => rfl
theorem EncodeLength.outChar : EncodeLength.Statement .outChar := fun _ => rfl
theorem EncodeLength.inNum : EncodeLength.Statement .inNum := fun _ => rfl
theorem EncodeLength.inChar : EncodeLength.Statement .inChar := fun _ => rfl
theorem EncodeLength.jmp (w : Word) : EncodeLength.Statement (.jmp w) := of_imm rfl
theorem EncodeLength.jz (w : Word) : EncodeLength.Statement (.jz w) := of_imm rfl
theorem EncodeLength.jnz (w : Word) : EncodeLength.Statement (.jnz w) := of_imm rfl
theorem EncodeLength.call (w : Word) : EncodeLength.Statement (.call w) := of_imm rfl
theorem EncodeLength.ret : EncodeLength.Statement .ret := fun _ => rfl

end Sys2Proof.Laws
end

