-- ==== Sys2Proof/Laws/State.lean ====
section
/-! SUPPORT. What each named update of the state does to each field. -/

namespace Sys2Proof.Machine

/-! ### takeFault -/

@[simp] theorem takeFault_cfg (c : Cause) (i : Word) (s : State) : (takeFault c i s).cfg = s.cfg := rfl
@[simp] theorem takeFault_ip (c : Cause) (i : Word) (s : State) : (takeFault c i s).ip = s.ip := rfl
@[simp] theorem takeFault_sp (c : Cause) (i : Word) (s : State) : (takeFault c i s).sp = s.sp := rfl
@[simp] theorem takeFault_fp (c : Cause) (i : Word) (s : State) : (takeFault c i s).fp = s.fp := rfl
@[simp] theorem takeFault_runState (c : Cause) (i : Word) (s : State) : (takeFault c i s).runState = .haltFailure := rfl
@[simp] theorem takeFault_cause (c : Cause) (i : Word) (s : State) : (takeFault c i s).cause = c := rfl
@[simp] theorem takeFault_info (c : Cause) (i : Word) (s : State) : (takeFault c i s).info = i := rfl
@[simp] theorem takeFault_faultIp (c : Cause) (i : Word) (s : State) : (takeFault c i s).faultIp = s.faultAddr := rfl
@[simp] theorem takeFault_msg (c : Cause) (i : Word) (s : State) :
    (takeFault c i s).msg = (Config.faultText s.msgDraws).take s.cfg.msgCap := rfl
@[simp] theorem takeFault_mem (c : Cause) (i : Word) (s : State) : (takeFault c i s).mem = s.mem := rfl
@[simp] theorem takeFault_os (c : Cause) (i : Word) (s : State) : (takeFault c i s).os = s.os := rfl
@[simp] theorem takeFault_cs (c : Cause) (i : Word) (s : State) : (takeFault c i s).cs = s.cs := rfl
@[simp] theorem takeFault_csWritten (c : Cause) (i : Word) (s : State) :
    (takeFault c i s).csWritten = s.csWritten := rfl
@[simp] theorem takeFault_out (c : Cause) (i : Word) (s : State) : (takeFault c i s).out = s.out := rfl
@[simp] theorem takeFault_inPos (c : Cause) (i : Word) (s : State) : (takeFault c i s).inPos = s.inPos := rfl
@[simp] theorem takeFault_faultAddr (c : Cause) (i : Word) (s : State) :
    (takeFault c i s).faultAddr = s.faultAddr := rfl
@[simp] theorem takeFault_input (c : Cause) (i : Word) (s : State) : (takeFault c i s).input = s.input := rfl
@[simp] theorem takeFault_outReady (c : Cause) (i : Word) (s : State) : (takeFault c i s).outReady = s.outReady := rfl
@[simp] theorem takeFault_hostCmds (c : Cause) (i : Word) (s : State) : (takeFault c i s).hostCmds = s.hostCmds := rfl
@[simp] theorem takeFault_replies (c : Cause) (i : Word) (s : State) : (takeFault c i s).replies = s.replies := rfl
@[simp] theorem takeFault_msgDraws (c : Cause) (i : Word) (s : State) :
    (takeFault c i s).msgDraws = s.msgDraws + 1 := rfl

/-! ### haltWith -/

@[simp] theorem haltWith_cfg (r : RunState) (s : State) : (haltWith r s).cfg = s.cfg := rfl
@[simp] theorem haltWith_ip (r : RunState) (s : State) : (haltWith r s).ip = s.ip := rfl
@[simp] theorem haltWith_sp (r : RunState) (s : State) : (haltWith r s).sp = s.sp := rfl
@[simp] theorem haltWith_fp (r : RunState) (s : State) : (haltWith r s).fp = s.fp := rfl
@[simp] theorem haltWith_runState (r : RunState) (s : State) : (haltWith r s).runState = r := rfl
@[simp] theorem haltWith_cause (r : RunState) (s : State) : (haltWith r s).cause = s.cause := rfl
@[simp] theorem haltWith_info (r : RunState) (s : State) : (haltWith r s).info = s.info := rfl
@[simp] theorem haltWith_faultIp (r : RunState) (s : State) : (haltWith r s).faultIp = s.faultIp := rfl
@[simp] theorem haltWith_msg (r : RunState) (s : State) : (haltWith r s).msg = s.msg := rfl
@[simp] theorem haltWith_mem (r : RunState) (s : State) : (haltWith r s).mem = s.mem := rfl
@[simp] theorem haltWith_os (r : RunState) (s : State) : (haltWith r s).os = s.os := rfl
@[simp] theorem haltWith_cs (r : RunState) (s : State) : (haltWith r s).cs = s.cs := rfl
@[simp] theorem haltWith_csWritten (r : RunState) (s : State) : (haltWith r s).csWritten = s.csWritten := rfl
@[simp] theorem haltWith_out (r : RunState) (s : State) : (haltWith r s).out = s.out := rfl
@[simp] theorem haltWith_inPos (r : RunState) (s : State) : (haltWith r s).inPos = s.inPos := rfl
@[simp] theorem haltWith_faultAddr (r : RunState) (s : State) : (haltWith r s).faultAddr = s.faultAddr := rfl
@[simp] theorem haltWith_input (r : RunState) (s : State) : (haltWith r s).input = s.input := rfl
@[simp] theorem haltWith_outReady (r : RunState) (s : State) : (haltWith r s).outReady = s.outReady := rfl
@[simp] theorem haltWith_hostCmds (r : RunState) (s : State) : (haltWith r s).hostCmds = s.hostCmds := rfl
@[simp] theorem haltWith_replies (r : RunState) (s : State) : (haltWith r s).replies = s.replies := rfl
@[simp] theorem haltWith_msgDraws (r : RunState) (s : State) : (haltWith r s).msgDraws = s.msgDraws := rfl

/-! ### hostRun -/

@[simp] theorem hostRun_cfg (s : State) : (hostRun s).cfg = s.cfg := rfl
@[simp] theorem hostRun_ip (s : State) : (hostRun s).ip = s.ip := rfl
@[simp] theorem hostRun_sp (s : State) : (hostRun s).sp = s.sp := rfl
@[simp] theorem hostRun_fp (s : State) : (hostRun s).fp = s.fp := rfl
@[simp] theorem hostRun_runState (s : State) : (hostRun s).runState = .running := rfl
@[simp] theorem hostRun_cause (s : State) : (hostRun s).cause = s.cause := rfl
@[simp] theorem hostRun_info (s : State) : (hostRun s).info = s.info := rfl
@[simp] theorem hostRun_faultIp (s : State) : (hostRun s).faultIp = s.faultIp := rfl
@[simp] theorem hostRun_msg (s : State) : (hostRun s).msg = s.msg := rfl
@[simp] theorem hostRun_mem (s : State) : (hostRun s).mem = s.mem := rfl
@[simp] theorem hostRun_os (s : State) : (hostRun s).os = s.os := rfl
@[simp] theorem hostRun_cs (s : State) : (hostRun s).cs = s.cs := rfl
@[simp] theorem hostRun_csWritten (s : State) : (hostRun s).csWritten = s.csWritten := rfl
@[simp] theorem hostRun_out (s : State) : (hostRun s).out = s.out := rfl
@[simp] theorem hostRun_inPos (s : State) : (hostRun s).inPos = s.inPos := rfl
@[simp] theorem hostRun_faultAddr (s : State) : (hostRun s).faultAddr = s.faultAddr := rfl
@[simp] theorem hostRun_input (s : State) : (hostRun s).input = s.input := rfl
@[simp] theorem hostRun_outReady (s : State) : (hostRun s).outReady = s.outReady := rfl
@[simp] theorem hostRun_hostCmds (s : State) : (hostRun s).hostCmds = s.hostCmds := rfl
@[simp] theorem hostRun_replies (s : State) : (hostRun s).replies = s.replies := rfl
@[simp] theorem hostRun_msgDraws (s : State) : (hostRun s).msgDraws = s.msgDraws := rfl

/-! ### holdAt -/

@[simp] theorem holdAt_cfg (s : State) : (holdAt s).cfg = s.cfg := rfl
@[simp] theorem holdAt_ip (s : State) : (holdAt s).ip = s.faultAddr := rfl
@[simp] theorem holdAt_sp (s : State) : (holdAt s).sp = s.sp := rfl
@[simp] theorem holdAt_fp (s : State) : (holdAt s).fp = s.fp := rfl
@[simp] theorem holdAt_runState (s : State) : (holdAt s).runState = s.runState := rfl
@[simp] theorem holdAt_cause (s : State) : (holdAt s).cause = s.cause := rfl
@[simp] theorem holdAt_info (s : State) : (holdAt s).info = s.info := rfl
@[simp] theorem holdAt_faultIp (s : State) : (holdAt s).faultIp = s.faultIp := rfl
@[simp] theorem holdAt_msg (s : State) : (holdAt s).msg = s.msg := rfl
@[simp] theorem holdAt_mem (s : State) : (holdAt s).mem = s.mem := rfl
@[simp] theorem holdAt_os (s : State) : (holdAt s).os = s.os := rfl
@[simp] theorem holdAt_cs (s : State) : (holdAt s).cs = s.cs := rfl
@[simp] theorem holdAt_csWritten (s : State) : (holdAt s).csWritten = s.csWritten := rfl
@[simp] theorem holdAt_out (s : State) : (holdAt s).out = s.out := rfl
@[simp] theorem holdAt_inPos (s : State) : (holdAt s).inPos = s.inPos := rfl
@[simp] theorem holdAt_faultAddr (s : State) : (holdAt s).faultAddr = s.faultAddr := rfl
@[simp] theorem holdAt_input (s : State) : (holdAt s).input = s.input := rfl
@[simp] theorem holdAt_outReady (s : State) : (holdAt s).outReady = s.outReady := rfl
@[simp] theorem holdAt_hostCmds (s : State) : (holdAt s).hostCmds = s.hostCmds := rfl
@[simp] theorem holdAt_replies (s : State) : (holdAt s).replies = s.replies := rfl
@[simp] theorem holdAt_msgDraws (s : State) : (holdAt s).msgDraws = s.msgDraws := rfl

/-! ### pushed -/

@[simp] theorem pushed_cfg (v : Word) (s : State) : (pushed v s).cfg = s.cfg := rfl
@[simp] theorem pushed_ip (v : Word) (s : State) : (pushed v s).ip = s.ip := rfl
@[simp] theorem pushed_sp (v : Word) (s : State) : (pushed v s).sp = s.sp + 1#64 := rfl
@[simp] theorem pushed_fp (v : Word) (s : State) : (pushed v s).fp = s.fp := rfl
@[simp] theorem pushed_runState (v : Word) (s : State) : (pushed v s).runState = s.runState := rfl
@[simp] theorem pushed_cause (v : Word) (s : State) : (pushed v s).cause = s.cause := rfl
@[simp] theorem pushed_info (v : Word) (s : State) : (pushed v s).info = s.info := rfl
@[simp] theorem pushed_faultIp (v : Word) (s : State) : (pushed v s).faultIp = s.faultIp := rfl
@[simp] theorem pushed_msg (v : Word) (s : State) : (pushed v s).msg = s.msg := rfl
@[simp] theorem pushed_mem (v : Word) (s : State) : (pushed v s).mem = s.mem := rfl
@[simp] theorem pushed_os (v : Word) (s : State) : (pushed v s).os = cellSet s.os s.sp.toNat v := rfl
@[simp] theorem pushed_cs (v : Word) (s : State) : (pushed v s).cs = s.cs := rfl
@[simp] theorem pushed_csWritten (v : Word) (s : State) : (pushed v s).csWritten = s.csWritten := rfl
@[simp] theorem pushed_out (v : Word) (s : State) : (pushed v s).out = s.out := rfl
@[simp] theorem pushed_inPos (v : Word) (s : State) : (pushed v s).inPos = s.inPos := rfl
@[simp] theorem pushed_faultAddr (v : Word) (s : State) : (pushed v s).faultAddr = s.faultAddr := rfl
@[simp] theorem pushed_input (v : Word) (s : State) : (pushed v s).input = s.input := rfl
@[simp] theorem pushed_outReady (v : Word) (s : State) : (pushed v s).outReady = s.outReady := rfl
@[simp] theorem pushed_hostCmds (v : Word) (s : State) : (pushed v s).hostCmds = s.hostCmds := rfl
@[simp] theorem pushed_replies (v : Word) (s : State) : (pushed v s).replies = s.replies := rfl
@[simp] theorem pushed_msgDraws (v : Word) (s : State) : (pushed v s).msgDraws = s.msgDraws := rfl

/-! ### popped -/

@[simp] theorem popped_cfg (s : State) : (popped s).cfg = s.cfg := rfl
@[simp] theorem popped_ip (s : State) : (popped s).ip = s.ip := rfl
@[simp] theorem popped_sp (s : State) : (popped s).sp = s.sp - 1#64 := rfl
@[simp] theorem popped_fp (s : State) : (popped s).fp = s.fp := rfl
@[simp] theorem popped_runState (s : State) : (popped s).runState = s.runState := rfl
@[simp] theorem popped_cause (s : State) : (popped s).cause = s.cause := rfl
@[simp] theorem popped_info (s : State) : (popped s).info = s.info := rfl
@[simp] theorem popped_faultIp (s : State) : (popped s).faultIp = s.faultIp := rfl
@[simp] theorem popped_msg (s : State) : (popped s).msg = s.msg := rfl
@[simp] theorem popped_mem (s : State) : (popped s).mem = s.mem := rfl
@[simp] theorem popped_os (s : State) : (popped s).os = s.os := rfl
@[simp] theorem popped_cs (s : State) : (popped s).cs = s.cs := rfl
@[simp] theorem popped_csWritten (s : State) : (popped s).csWritten = s.csWritten := rfl
@[simp] theorem popped_out (s : State) : (popped s).out = s.out := rfl
@[simp] theorem popped_inPos (s : State) : (popped s).inPos = s.inPos := rfl
@[simp] theorem popped_faultAddr (s : State) : (popped s).faultAddr = s.faultAddr := rfl
@[simp] theorem popped_input (s : State) : (popped s).input = s.input := rfl
@[simp] theorem popped_outReady (s : State) : (popped s).outReady = s.outReady := rfl
@[simp] theorem popped_hostCmds (s : State) : (popped s).hostCmds = s.hostCmds := rfl
@[simp] theorem popped_replies (s : State) : (popped s).replies = s.replies := rfl
@[simp] theorem popped_msgDraws (s : State) : (popped s).msgDraws = s.msgDraws := rfl

/-! ### csStored -/

@[simp] theorem csStored_cfg (a : Nat) (n : Size) (v : Word) (s : State) : (csStored a n v s).cfg = s.cfg := rfl
@[simp] theorem csStored_ip (a : Nat) (n : Size) (v : Word) (s : State) : (csStored a n v s).ip = s.ip := rfl
@[simp] theorem csStored_sp (a : Nat) (n : Size) (v : Word) (s : State) : (csStored a n v s).sp = s.sp := rfl
@[simp] theorem csStored_fp (a : Nat) (n : Size) (v : Word) (s : State) : (csStored a n v s).fp = s.fp := rfl
@[simp] theorem csStored_runState (a : Nat) (n : Size) (v : Word) (s : State) :
    (csStored a n v s).runState = s.runState := rfl
@[simp] theorem csStored_cause (a : Nat) (n : Size) (v : Word) (s : State) : (csStored a n v s).cause = s.cause := rfl
@[simp] theorem csStored_info (a : Nat) (n : Size) (v : Word) (s : State) : (csStored a n v s).info = s.info := rfl
@[simp] theorem csStored_faultIp (a : Nat) (n : Size) (v : Word) (s : State) :
    (csStored a n v s).faultIp = s.faultIp := rfl
@[simp] theorem csStored_msg (a : Nat) (n : Size) (v : Word) (s : State) : (csStored a n v s).msg = s.msg := rfl
@[simp] theorem csStored_mem (a : Nat) (n : Size) (v : Word) (s : State) : (csStored a n v s).mem = s.mem := rfl
@[simp] theorem csStored_os (a : Nat) (n : Size) (v : Word) (s : State) : (csStored a n v s).os = s.os := rfl
@[simp] theorem csStored_cs (a : Nat) (n : Size) (v : Word) (s : State) :
    (csStored a n v s).cs = cellsWrite s.cs a (bytesOfWord s.cfg.byteOrder n.bytes v) := rfl
@[simp] theorem csStored_csWritten (a : Nat) (n : Size) (v : Word) (s : State) :
    (csStored a n v s).csWritten = cellsWrite s.csWritten a (List.replicate n.bytes 1#1) := rfl
@[simp] theorem csStored_out (a : Nat) (n : Size) (v : Word) (s : State) : (csStored a n v s).out = s.out := rfl
@[simp] theorem csStored_inPos (a : Nat) (n : Size) (v : Word) (s : State) : (csStored a n v s).inPos = s.inPos := rfl
@[simp] theorem csStored_faultAddr (a : Nat) (n : Size) (v : Word) (s : State) :
    (csStored a n v s).faultAddr = s.faultAddr := rfl
@[simp] theorem csStored_input (a : Nat) (n : Size) (v : Word) (s : State) : (csStored a n v s).input = s.input := rfl
@[simp] theorem csStored_outReady (a : Nat) (n : Size) (v : Word) (s : State) :
    (csStored a n v s).outReady = s.outReady := rfl
@[simp] theorem csStored_hostCmds (a : Nat) (n : Size) (v : Word) (s : State) :
    (csStored a n v s).hostCmds = s.hostCmds := rfl
@[simp] theorem csStored_replies (a : Nat) (n : Size) (v : Word) (s : State) :
    (csStored a n v s).replies = s.replies := rfl
@[simp] theorem csStored_msgDraws (a : Nat) (n : Size) (v : Word) (s : State) :
    (csStored a n v s).msgDraws = s.msgDraws := rfl

/-! ### jumpTo -/

@[simp] theorem jumpTo_cfg (a : Word) (s : State) : (jumpTo a s).cfg = s.cfg := rfl
@[simp] theorem jumpTo_ip (a : Word) (s : State) : (jumpTo a s).ip = a := rfl
@[simp] theorem jumpTo_sp (a : Word) (s : State) : (jumpTo a s).sp = s.sp := rfl
@[simp] theorem jumpTo_fp (a : Word) (s : State) : (jumpTo a s).fp = s.fp := rfl
@[simp] theorem jumpTo_runState (a : Word) (s : State) : (jumpTo a s).runState = s.runState := rfl
@[simp] theorem jumpTo_cause (a : Word) (s : State) : (jumpTo a s).cause = s.cause := rfl
@[simp] theorem jumpTo_info (a : Word) (s : State) : (jumpTo a s).info = s.info := rfl
@[simp] theorem jumpTo_faultIp (a : Word) (s : State) : (jumpTo a s).faultIp = s.faultIp := rfl
@[simp] theorem jumpTo_msg (a : Word) (s : State) : (jumpTo a s).msg = s.msg := rfl
@[simp] theorem jumpTo_mem (a : Word) (s : State) : (jumpTo a s).mem = s.mem := rfl
@[simp] theorem jumpTo_os (a : Word) (s : State) : (jumpTo a s).os = s.os := rfl
@[simp] theorem jumpTo_cs (a : Word) (s : State) : (jumpTo a s).cs = s.cs := rfl
@[simp] theorem jumpTo_csWritten (a : Word) (s : State) : (jumpTo a s).csWritten = s.csWritten := rfl
@[simp] theorem jumpTo_out (a : Word) (s : State) : (jumpTo a s).out = s.out := rfl
@[simp] theorem jumpTo_inPos (a : Word) (s : State) : (jumpTo a s).inPos = s.inPos := rfl
@[simp] theorem jumpTo_faultAddr (a : Word) (s : State) : (jumpTo a s).faultAddr = s.faultAddr := rfl
@[simp] theorem jumpTo_input (a : Word) (s : State) : (jumpTo a s).input = s.input := rfl
@[simp] theorem jumpTo_outReady (a : Word) (s : State) : (jumpTo a s).outReady = s.outReady := rfl
@[simp] theorem jumpTo_hostCmds (a : Word) (s : State) : (jumpTo a s).hostCmds = s.hostCmds := rfl
@[simp] theorem jumpTo_replies (a : Word) (s : State) : (jumpTo a s).replies = s.replies := rfl
@[simp] theorem jumpTo_msgDraws (a : Word) (s : State) : (jumpTo a s).msgDraws = s.msgDraws := rfl

/-! ### advance -/

@[simp] theorem advance_cfg (n : Nat) (s : State) : (advance n s).cfg = s.cfg := rfl
@[simp] theorem advance_ip (n : Nat) (s : State) : (advance n s).ip = s.ip + BitVec.ofNat 64 n := rfl
@[simp] theorem advance_sp (n : Nat) (s : State) : (advance n s).sp = s.sp := rfl
@[simp] theorem advance_fp (n : Nat) (s : State) : (advance n s).fp = s.fp := rfl
@[simp] theorem advance_runState (n : Nat) (s : State) : (advance n s).runState = s.runState := rfl
@[simp] theorem advance_cause (n : Nat) (s : State) : (advance n s).cause = s.cause := rfl
@[simp] theorem advance_info (n : Nat) (s : State) : (advance n s).info = s.info := rfl
@[simp] theorem advance_faultIp (n : Nat) (s : State) : (advance n s).faultIp = s.faultIp := rfl
@[simp] theorem advance_msg (n : Nat) (s : State) : (advance n s).msg = s.msg := rfl
@[simp] theorem advance_mem (n : Nat) (s : State) : (advance n s).mem = s.mem := rfl
@[simp] theorem advance_os (n : Nat) (s : State) : (advance n s).os = s.os := rfl
@[simp] theorem advance_cs (n : Nat) (s : State) : (advance n s).cs = s.cs := rfl
@[simp] theorem advance_csWritten (n : Nat) (s : State) : (advance n s).csWritten = s.csWritten := rfl
@[simp] theorem advance_out (n : Nat) (s : State) : (advance n s).out = s.out := rfl
@[simp] theorem advance_inPos (n : Nat) (s : State) : (advance n s).inPos = s.inPos := rfl
@[simp] theorem advance_faultAddr (n : Nat) (s : State) : (advance n s).faultAddr = s.faultAddr := rfl
@[simp] theorem advance_input (n : Nat) (s : State) : (advance n s).input = s.input := rfl
@[simp] theorem advance_outReady (n : Nat) (s : State) : (advance n s).outReady = s.outReady := rfl
@[simp] theorem advance_hostCmds (n : Nat) (s : State) : (advance n s).hostCmds = s.hostCmds := rfl
@[simp] theorem advance_replies (n : Nat) (s : State) : (advance n s).replies = s.replies := rfl
@[simp] theorem advance_msgDraws (n : Nat) (s : State) : (advance n s).msgDraws = s.msgDraws := rfl

/-! ### placeAtIp -/

@[simp] theorem placeAtIp_cfg (b : List Byte) (s : State) : (placeAtIp b s).cfg = s.cfg := rfl
@[simp] theorem placeAtIp_ip (b : List Byte) (s : State) : (placeAtIp b s).ip = s.ip := rfl
@[simp] theorem placeAtIp_sp (b : List Byte) (s : State) : (placeAtIp b s).sp = s.sp := rfl
@[simp] theorem placeAtIp_fp (b : List Byte) (s : State) : (placeAtIp b s).fp = s.fp := rfl
@[simp] theorem placeAtIp_runState (b : List Byte) (s : State) : (placeAtIp b s).runState = s.runState := rfl
@[simp] theorem placeAtIp_cause (b : List Byte) (s : State) : (placeAtIp b s).cause = s.cause := rfl
@[simp] theorem placeAtIp_info (b : List Byte) (s : State) : (placeAtIp b s).info = s.info := rfl
@[simp] theorem placeAtIp_faultIp (b : List Byte) (s : State) : (placeAtIp b s).faultIp = s.faultIp := rfl
@[simp] theorem placeAtIp_msg (b : List Byte) (s : State) : (placeAtIp b s).msg = s.msg := rfl
@[simp] theorem placeAtIp_mem (b : List Byte) (s : State) :
    (placeAtIp b s).mem = cellsWrite s.mem s.ip.toNat (b.take (s.cfg.memCap - s.ip.toNat)) := rfl
@[simp] theorem placeAtIp_os (b : List Byte) (s : State) : (placeAtIp b s).os = s.os := rfl
@[simp] theorem placeAtIp_cs (b : List Byte) (s : State) : (placeAtIp b s).cs = s.cs := rfl
@[simp] theorem placeAtIp_csWritten (b : List Byte) (s : State) : (placeAtIp b s).csWritten = s.csWritten := rfl
@[simp] theorem placeAtIp_out (b : List Byte) (s : State) : (placeAtIp b s).out = s.out := rfl
@[simp] theorem placeAtIp_inPos (b : List Byte) (s : State) : (placeAtIp b s).inPos = s.inPos := rfl
@[simp] theorem placeAtIp_faultAddr (b : List Byte) (s : State) : (placeAtIp b s).faultAddr = s.faultAddr := rfl
@[simp] theorem placeAtIp_input (b : List Byte) (s : State) : (placeAtIp b s).input = s.input := rfl
@[simp] theorem placeAtIp_outReady (b : List Byte) (s : State) : (placeAtIp b s).outReady = s.outReady := rfl
@[simp] theorem placeAtIp_hostCmds (b : List Byte) (s : State) : (placeAtIp b s).hostCmds = s.hostCmds := rfl
@[simp] theorem placeAtIp_replies (b : List Byte) (s : State) : (placeAtIp b s).replies = s.replies := rfl
@[simp] theorem placeAtIp_msgDraws (b : List Byte) (s : State) : (placeAtIp b s).msgDraws = s.msgDraws := rfl

/-! ### answer -/

@[simp] theorem answer_cfg (r : HostReply) (s : State) : (answer r s).cfg = s.cfg := rfl
@[simp] theorem answer_ip (r : HostReply) (s : State) : (answer r s).ip = s.ip := rfl
@[simp] theorem answer_sp (r : HostReply) (s : State) : (answer r s).sp = s.sp := rfl
@[simp] theorem answer_fp (r : HostReply) (s : State) : (answer r s).fp = s.fp := rfl
@[simp] theorem answer_runState (r : HostReply) (s : State) : (answer r s).runState = s.runState := rfl
@[simp] theorem answer_cause (r : HostReply) (s : State) : (answer r s).cause = s.cause := rfl
@[simp] theorem answer_info (r : HostReply) (s : State) : (answer r s).info = s.info := rfl
@[simp] theorem answer_faultIp (r : HostReply) (s : State) : (answer r s).faultIp = s.faultIp := rfl
@[simp] theorem answer_msg (r : HostReply) (s : State) : (answer r s).msg = s.msg := rfl
@[simp] theorem answer_mem (r : HostReply) (s : State) : (answer r s).mem = s.mem := rfl
@[simp] theorem answer_os (r : HostReply) (s : State) : (answer r s).os = s.os := rfl
@[simp] theorem answer_cs (r : HostReply) (s : State) : (answer r s).cs = s.cs := rfl
@[simp] theorem answer_csWritten (r : HostReply) (s : State) : (answer r s).csWritten = s.csWritten := rfl
@[simp] theorem answer_out (r : HostReply) (s : State) : (answer r s).out = s.out := rfl
@[simp] theorem answer_inPos (r : HostReply) (s : State) : (answer r s).inPos = s.inPos := rfl
@[simp] theorem answer_faultAddr (r : HostReply) (s : State) : (answer r s).faultAddr = s.faultAddr := rfl
@[simp] theorem answer_input (r : HostReply) (s : State) : (answer r s).input = s.input := rfl
@[simp] theorem answer_outReady (r : HostReply) (s : State) : (answer r s).outReady = s.outReady := rfl
@[simp] theorem answer_hostCmds (r : HostReply) (s : State) : (answer r s).hostCmds = s.hostCmds := rfl
@[simp] theorem answer_replies (r : HostReply) (s : State) : (answer r s).replies = s.replies ++ [r] := rfl
@[simp] theorem answer_msgDraws (r : HostReply) (s : State) : (answer r s).msgDraws = s.msgDraws := rfl

/-! ### hostClear -/

@[simp] theorem hostClear_cfg (s : State) : (hostClear s).cfg = s.cfg := rfl
@[simp] theorem hostClear_ip (s : State) : (hostClear s).ip = s.ip := rfl
@[simp] theorem hostClear_sp (s : State) : (hostClear s).sp = s.sp := rfl
@[simp] theorem hostClear_fp (s : State) : (hostClear s).fp = s.fp := rfl
@[simp] theorem hostClear_runState (s : State) : (hostClear s).runState = s.runState := rfl
@[simp] theorem hostClear_cause (s : State) : (hostClear s).cause = s.cause := rfl
@[simp] theorem hostClear_info (s : State) : (hostClear s).info = s.info := rfl
@[simp] theorem hostClear_faultIp (s : State) : (hostClear s).faultIp = s.faultIp := rfl
@[simp] theorem hostClear_msg (s : State) : (hostClear s).msg = s.msg := rfl
@[simp] theorem hostClear_mem (s : State) : (hostClear s).mem = [] := rfl
@[simp] theorem hostClear_os (s : State) : (hostClear s).os = s.os := rfl
@[simp] theorem hostClear_cs (s : State) : (hostClear s).cs = s.cs := rfl
@[simp] theorem hostClear_csWritten (s : State) : (hostClear s).csWritten = s.csWritten := rfl
@[simp] theorem hostClear_out (s : State) : (hostClear s).out = s.out := rfl
@[simp] theorem hostClear_inPos (s : State) : (hostClear s).inPos = s.inPos := rfl
@[simp] theorem hostClear_faultAddr (s : State) : (hostClear s).faultAddr = s.faultAddr := rfl
@[simp] theorem hostClear_input (s : State) : (hostClear s).input = s.input := rfl
@[simp] theorem hostClear_outReady (s : State) : (hostClear s).outReady = s.outReady := rfl
@[simp] theorem hostClear_hostCmds (s : State) : (hostClear s).hostCmds = s.hostCmds := rfl
@[simp] theorem hostClear_replies (s : State) : (hostClear s).replies = s.replies := rfl
@[simp] theorem hostClear_msgDraws (s : State) : (hostClear s).msgDraws = s.msgDraws := rfl

/-! ### hostStatus -/

@[simp] theorem hostStatus_cfg (s : State) : (hostStatus s).cfg = s.cfg := rfl
@[simp] theorem hostStatus_ip (s : State) : (hostStatus s).ip = s.ip := rfl
@[simp] theorem hostStatus_sp (s : State) : (hostStatus s).sp = s.sp := rfl
@[simp] theorem hostStatus_fp (s : State) : (hostStatus s).fp = s.fp := rfl
@[simp] theorem hostStatus_runState (s : State) : (hostStatus s).runState = s.runState := rfl
@[simp] theorem hostStatus_cause (s : State) : (hostStatus s).cause = s.cause := rfl
@[simp] theorem hostStatus_info (s : State) : (hostStatus s).info = s.info := rfl
@[simp] theorem hostStatus_faultIp (s : State) : (hostStatus s).faultIp = s.faultIp := rfl
@[simp] theorem hostStatus_msg (s : State) : (hostStatus s).msg = s.msg := rfl
@[simp] theorem hostStatus_mem (s : State) : (hostStatus s).mem = s.mem := rfl
@[simp] theorem hostStatus_os (s : State) : (hostStatus s).os = s.os := rfl
@[simp] theorem hostStatus_cs (s : State) : (hostStatus s).cs = s.cs := rfl
@[simp] theorem hostStatus_csWritten (s : State) : (hostStatus s).csWritten = s.csWritten := rfl
@[simp] theorem hostStatus_out (s : State) : (hostStatus s).out = s.out := rfl
@[simp] theorem hostStatus_inPos (s : State) : (hostStatus s).inPos = s.inPos := rfl
@[simp] theorem hostStatus_faultAddr (s : State) : (hostStatus s).faultAddr = s.faultAddr := rfl
@[simp] theorem hostStatus_input (s : State) : (hostStatus s).input = s.input := rfl
@[simp] theorem hostStatus_outReady (s : State) : (hostStatus s).outReady = s.outReady := rfl
@[simp] theorem hostStatus_hostCmds (s : State) : (hostStatus s).hostCmds = s.hostCmds := rfl
@[simp] theorem hostStatus_replies (s : State) :
    (hostStatus s).replies = s.replies ++ [.status s.runState s.cause s.info s.faultIp s.msg] := rfl
@[simp] theorem hostStatus_msgDraws (s : State) : (hostStatus s).msgDraws = s.msgDraws := rfl

/-! ### hostRegs -/

@[simp] theorem hostRegs_cfg (s : State) : (hostRegs s).cfg = s.cfg := rfl
@[simp] theorem hostRegs_ip (s : State) : (hostRegs s).ip = s.ip := rfl
@[simp] theorem hostRegs_sp (s : State) : (hostRegs s).sp = s.sp := rfl
@[simp] theorem hostRegs_fp (s : State) : (hostRegs s).fp = s.fp := rfl
@[simp] theorem hostRegs_runState (s : State) : (hostRegs s).runState = s.runState := rfl
@[simp] theorem hostRegs_cause (s : State) : (hostRegs s).cause = s.cause := rfl
@[simp] theorem hostRegs_info (s : State) : (hostRegs s).info = s.info := rfl
@[simp] theorem hostRegs_faultIp (s : State) : (hostRegs s).faultIp = s.faultIp := rfl
@[simp] theorem hostRegs_msg (s : State) : (hostRegs s).msg = s.msg := rfl
@[simp] theorem hostRegs_mem (s : State) : (hostRegs s).mem = s.mem := rfl
@[simp] theorem hostRegs_os (s : State) : (hostRegs s).os = s.os := rfl
@[simp] theorem hostRegs_cs (s : State) : (hostRegs s).cs = s.cs := rfl
@[simp] theorem hostRegs_csWritten (s : State) : (hostRegs s).csWritten = s.csWritten := rfl
@[simp] theorem hostRegs_out (s : State) : (hostRegs s).out = s.out := rfl
@[simp] theorem hostRegs_inPos (s : State) : (hostRegs s).inPos = s.inPos := rfl
@[simp] theorem hostRegs_faultAddr (s : State) : (hostRegs s).faultAddr = s.faultAddr := rfl
@[simp] theorem hostRegs_input (s : State) : (hostRegs s).input = s.input := rfl
@[simp] theorem hostRegs_outReady (s : State) : (hostRegs s).outReady = s.outReady := rfl
@[simp] theorem hostRegs_hostCmds (s : State) : (hostRegs s).hostCmds = s.hostCmds := rfl
@[simp] theorem hostRegs_replies (s : State) : (hostRegs s).replies = s.replies ++ [.regs s.ip s.sp s.fp] := rfl
@[simp] theorem hostRegs_msgDraws (s : State) : (hostRegs s).msgDraws = s.msgDraws := rfl

end Sys2Proof.Machine
end

