-- ==== Sys2Proof/Tests/Slice0.lean ====
section
/-! SUPPORT. The model's own tests. Expected results are the spec's: 30_encoding.md R84 and R91 for the words, and the
vectors T<n> of 95_test_vectors.md, each named at its test. The witnesses at the end meet the hypotheses of the
statements of Certificates/Slice0/Obligations.lean. -/

namespace Sys2Proof.Tests

open Sys2Proof.Machine

/-! ### WellFormed refuses a constant wider than its field, and nothing else -/

theorem test_wf_refuses_wide_constants :
    (Instr.loadConst .s1 0x100).wf = false ∧ (Instr.loadConst .s2 0x10000).wf = false ∧
      (Instr.loadConst .s4 0x100000000).wf = false := by decide

theorem test_wf_accepts_the_widest_constants :
    (Instr.loadConst .s1 0xFF).wf = true ∧ (Instr.loadConst .s2 0xFFFF).wf = true ∧
      (Instr.loadConst .s4 0xFFFFFFFF).wf = true ∧ (Instr.loadConst .s8 0xFFFFFFFFFFFFFFFF).wf = true := by decide

/-! ### Decoding, every constructor: words written out from R84 and R83 -/

/-- The immediate 0x0807060504030201, least significant byte first. -/
def immBytes : List Byte := [1, 2, 3, 4, 5, 6, 7, 8]

theorem test_decode_control :
    decode initialParams [0x00, 9] = .ok .done [9] ∧
      decode initialParams [0x01, 9] = .ok .popRes [9] ∧
      decode initialParams [0x02, 9] = .ok .abort [9] := by decide

theorem test_decode_arithmetic :
    decode initialParams [0x40, 9] = .ok .add [9] ∧
      decode initialParams [0x41, 9] = .ok .sub [9] ∧
      decode initialParams [0x42, 9] = .ok .mul [9] ∧
      decode initialParams [0x43, 9] = .ok .div [9] ∧
      decode initialParams [0x44, 9] = .ok .mod [9] ∧
      decode initialParams [0x45, 9] = .ok .neg [9] := by decide

theorem test_decode_bitwise :
    decode initialParams [0x50, 9] = .ok .bitAnd [9] ∧
      decode initialParams [0x51, 9] = .ok .bitOr [9] ∧
      decode initialParams [0x52, 9] = .ok .bitXor [9] ∧
      decode initialParams [0x53, 9] = .ok .bitNot [9] ∧
      decode initialParams [0x54, 9] = .ok .shl [9] ∧
      decode initialParams [0x55, 9] = .ok .shr [9] := by decide

theorem test_decode_comparison :
    decode initialParams [0x60, 9] = .ok .cmpEq [9] ∧
      decode initialParams [0x61, 9] = .ok .cmpNe [9] ∧
      decode initialParams [0x62, 9] = .ok .cmpLt [9] ∧
      decode initialParams [0x63, 9] = .ok .cmpLe [9] ∧
      decode initialParams [0x64, 9] = .ok .cmpGt [9] ∧
      decode initialParams [0x65, 9] = .ok .cmpGe [9] := by decide

theorem test_decode_io :
    decode initialParams [0x70, 9] = .ok .outNum [9] ∧
      decode initialParams [0x71, 9] = .ok .outChar [9] ∧
      decode initialParams [0x72, 9] = .ok .inNum [9] ∧
      decode initialParams [0x73, 9] = .ok .inChar [9] := by decide

theorem test_decode_pop_and_return :
    decode initialParams [0x30, 9] = .ok .pop [9] ∧
      decode initialParams [0xD1, 9] = .ok .ret [9] := by decide

theorem test_decode_load_const :
    decode initialParams (0x10 :: immBytes) = .ok (.loadConst .s1 0x01) [2, 3, 4, 5, 6, 7, 8] ∧
      decode initialParams (0x11 :: immBytes) = .ok (.loadConst .s2 0x0201) [3, 4, 5, 6, 7, 8] ∧
      decode initialParams (0x12 :: immBytes) = .ok (.loadConst .s4 0x04030201) [5, 6, 7, 8] ∧
      decode initialParams (0x13 :: immBytes) = .ok (.loadConst .s8 0x0807060504030201) [] := by decide

theorem test_decode_load :
    decode initialParams (0x14 :: immBytes) = .ok (.load .s1 0x0807060504030201) [] ∧
      decode initialParams (0x15 :: immBytes) = .ok (.load .s2 0x0807060504030201) [] ∧
      decode initialParams (0x16 :: immBytes) = .ok (.load .s4 0x0807060504030201) [] ∧
      decode initialParams (0x17 :: immBytes) = .ok (.load .s8 0x0807060504030201) [] := by decide

theorem test_decode_store :
    decode initialParams (0x18 :: immBytes) = .ok (.store .s1 0x0807060504030201) [] ∧
      decode initialParams (0x19 :: immBytes) = .ok (.store .s2 0x0807060504030201) [] ∧
      decode initialParams (0x1A :: immBytes) = .ok (.store .s4 0x0807060504030201) [] ∧
      decode initialParams (0x1B :: immBytes) = .ok (.store .s8 0x0807060504030201) [] := by decide

theorem test_decode_load_frame :
    decode initialParams (0x20 :: immBytes) = .ok (.loadFrame .s1 0x0807060504030201) [] ∧
      decode initialParams (0x21 :: immBytes) = .ok (.loadFrame .s2 0x0807060504030201) [] ∧
      decode initialParams (0x22 :: immBytes) = .ok (.loadFrame .s4 0x0807060504030201) [] ∧
      decode initialParams (0x23 :: immBytes) = .ok (.loadFrame .s8 0x0807060504030201) [] := by decide

theorem test_decode_store_frame :
    decode initialParams (0x24 :: immBytes) = .ok (.storeFrame .s1 0x0807060504030201) [] ∧
      decode initialParams (0x25 :: immBytes) = .ok (.storeFrame .s2 0x0807060504030201) [] ∧
      decode initialParams (0x26 :: immBytes) = .ok (.storeFrame .s4 0x0807060504030201) [] ∧
      decode initialParams (0x27 :: immBytes) = .ok (.storeFrame .s8 0x0807060504030201) [] := by decide

theorem test_decode_word_forms :
    decode initialParams (0x31 :: immBytes) = .ok (.dup 0x0807060504030201) [] ∧
      decode initialParams (0x32 :: immBytes) = .ok (.swap 0x0807060504030201) [] ∧
      decode initialParams (0x80 :: immBytes) = .ok (.jmp 0x0807060504030201) [] ∧
      decode initialParams (0x81 :: immBytes) = .ok (.jz 0x0807060504030201) [] ∧
      decode initialParams (0x82 :: immBytes) = .ok (.jnz 0x0807060504030201) [] ∧
      decode initialParams (0xD0 :: immBytes) = .ok (.call 0x0807060504030201) [] := by decide

theorem test_decode_rejects_by_name :
    decode initialParams [] = .noOpcode ∧ decode initialParams [0x1C, 0] = .unknownOpcode 0x1C ∧
      decode initialParams [0xFF] = .unknownOpcode 0xFF ∧
      decode initialParams [0x11, 5] = .truncated ⟨0x11, .loadConst, .s2, .fc⟩ ∧
      decode initialParams [0x80, 0, 0, 0, 0, 0, 0, 0] = .truncated ⟨0x80, .jmp, .s1, .fw⟩ := by decide

/-- BYTE_ORDER = BE: the same bytes, the first one most significant (D1). -/
theorem test_decode_big_endian :
    decode { initialParams with byteOrder := .big } (0x11 :: immBytes) = .ok (.loadConst .s2 0x0102) [3, 4, 5, 6, 7, 8] ∧
      encode { initialParams with byteOrder := .big } (.jmp 0x2D) = [0x80, 0, 0, 0, 0, 0, 0, 0, 0x2D] := by decide

/-- R84's table, with ADD at the byte 0x03. -/
def movedAdd : DecodeTable := decodeTable.map fun row => if row.mnemonic = .add then { row with opcode := 0x03 } else row

/-- Another DECODE_TABLE renumbers the decoder and the encoder alike. -/
theorem test_decode_other_table :
    decode { initialParams with decodeTable := movedAdd } [0x03] = .ok .add [] ∧
      decode { initialParams with decodeTable := movedAdd } [0x40] = .unknownOpcode 0x40 ∧
      encode { initialParams with decodeTable := movedAdd } .add = [0x03] := by decide

/-- R84's table, with the width in opcode[3:2] and the operation in opcode[1:0] of LOAD_CONST, LOAD and STORE. -/
def movedField : DecodeTable :=
  decodeTable.drop 12 ++
    [⟨0x10, .loadConst, .s1, .fc⟩, ⟨0x14, .loadConst, .s2, .fc⟩, ⟨0x18, .loadConst, .s4, .fc⟩, ⟨0x1C, .loadConst, .s8, .fc⟩,
     ⟨0x11, .load, .s1, .fw⟩, ⟨0x15, .load, .s2, .fw⟩, ⟨0x19, .load, .s4, .fw⟩, ⟨0x1D, .load, .s8, .fw⟩,
     ⟨0x12, .store, .s1, .fw⟩, ⟨0x16, .store, .s2, .fw⟩, ⟨0x1A, .store, .s4, .fw⟩, ⟨0x1E, .store, .s8, .fw⟩]

/-- D3 is the table's: another sub-field of the opcode selects the width. -/
theorem test_decode_other_size_field :
    decode { initialParams with decodeTable := movedField } (0x14 :: immBytes) =
        .ok (.loadConst .s2 0x0201) [3, 4, 5, 6, 7, 8] ∧
      decode { initialParams with decodeTable := movedField } (0x1E :: immBytes) = .ok (.store .s8 0x0807060504030201) [] ∧
      encode { initialParams with decodeTable := movedField } (.load .s4 1) = [0x19, 1, 0, 0, 0, 0, 0, 0, 0] := by decide

/-- A table that gives one byte to two instructions, two bytes to one, a width to a mnemonic that has none, or a format
R83 does not give, is refused. -/
theorem test_table_wf_refuses :
    DecodeTable.wf (decodeTable ++ [⟨0x03, .done, .s1, .f0⟩]) = false ∧
      DecodeTable.wf [⟨0x00, .done, .s1, .f0⟩, ⟨0x00, .abort, .s1, .f0⟩] = false ∧
      DecodeTable.wf [⟨0x00, .done, .s2, .f0⟩] = false ∧ DecodeTable.wf [⟨0x00, .done, .s1, .fw⟩] = false := by decide

/-- A table may lack an instruction: no byte decodes to it. -/
theorem test_table_without_done :
    DecodeTable.wf [⟨0x00, .abort, .s1, .f0⟩] = true ∧ DecodeTable.has [⟨0x00, .abort, .s1, .f0⟩] .done = false ∧
      DecodeTable.has [⟨0x00, .abort, .s1, .f0⟩] .abort = true := by decide

/-- The table's numbering: byte k holds bits 8k+7 down to 8k. A row given by its opcode byte alone has operand 0. -/
theorem test_table_word :
    decodeTableWord 72 (0xD0 + 256 * 0x80) = some (.call 0x80) ∧ decodeTableWord 8 0x81 = some (.jz 0) ∧
      decodeTableWord 24 0x123411 = some (.loadConst .s2 0x1234) ∧ decodeTableWord 8 0x03 = none := by decide

/-! ### One step: the vectors of 95_test_vectors.md -/

/-- The start state of a vector: the bytes at address a, ip there, the Words on the Operand Stack, bottom first. -/
def startAt (a : Nat) (bytes : List Byte) (words : List Word) : State :=
  { State.reset with
    ip := BitVec.ofNat 64 a, sp := BitVec.ofNat 64 words.length, runState := .running
    mem := cellsWrite [] a bytes, os := cellsWrite [] 0 words }

/-- What a function reads of the state after one step. -/
def after {α : Type} (s : State) (f : State → α) : Option α :=
  match step s with
  | .next t => some (f t)
  | _ => none

/-- The Operand Stack, bottom first. -/
def stackOf (s : State) : List Word := cellsRead s.os 0 s.sp.toNat

/-- The Call Stack's cells. -/
def csOf (s : State) : List (Nat × Byte) := s.cs

/-- STATE, ip and OS after one step. -/
def runs (s : State) : Option (RunState × Word × List Word) := after s fun t => (t.runState, t.ip, stackOf t)

/-- CAUSE, INFO, FAULT_IP, ip and OS after one step that ends in HALT_FAILURE. -/
def fails (s : State) : Option (Cause × Word × Word × Word × List Word) :=
  match step s with
  | .next t => if t.runState = .haltFailure then some (t.cause, t.info, t.faultIp, t.ip, stackOf t) else none
  | _ => none

/-- T2. -/
theorem test_done_leaves_stacks :
    runs (startAt 0 [0] [1, 2]) =
    some (.haltSuccess, 1, [1, 2]) := by decide

/-- T6. -/
theorem test_pop_res_uninitialized :
    runs (startAt 0 [1] [3]) =
    some (.uninitialized, 1, []) := by decide

/-- T8. -/
theorem test_pop_res_unknown :
    runs (startAt 0 [1] [5]) =
    some (.unknown, 1, []) := by decide

/-- T11. -/
theorem test_abort :
    fails (startAt 0 [2] [9]) =
    some (.abort, 0, 0, 1, [9]) := by decide

/-- T21. -/
theorem test_load_const_four_bytes :
    runs (startAt 0 [0x12, 0xEF, 0xBE, 0xAD, 0xDE] []) =
    some (.running, 5, [0xDEADBEEF]) := by decide

/-- T23. -/
theorem test_load_const_full :
    fails { startAt 0 [0x10, 7] [1, 2] with cfg := { initialParams with osCap := 2 } } =
    some (.stackOverflow, 2, 0, 2, [1, 2]) := by decide

/-- T26. -/
theorem test_load_four_bytes :
    runs { startAt 0 [0x16, 0x80, 0, 0, 0, 0, 0, 0, 0] [] with
      mem := [(0, 0x16), (1, 0x80), (0x80, 0x78), (0x81, 0x56), (0x82, 0x34), (0x83, 0x12), (0x84, 0xF0),
        (0x85, 0xDE), (0x86, 0xBC), (0x87, 0x9A)] } =
    some (.running, 9, [0x12345678]) := by decide

/-- T31. -/
theorem test_load_no_wrap :
    fails (startAt 0 [0x17, 0xFF, 0xFF, 0xFF, 0xFF, 0xFF, 0xFF, 0xFF, 0xFF] []) =
    some (.outOfBounds, 0xFFFFFFFFFFFFFFFF, 0, 9, []) := by decide

/-- T34. -/
theorem test_store_low_bytes :
    after (startAt 0 [0x19, 0x40, 0, 0, 0, 0, 0, 0, 0] [0xAABBCCDD])
      (fun t => (t.runState, t.ip, stackOf t, cellsRead t.mem 0x40 2)) =
    some (.running, 9, [], [0xDD, 0xCC]) := by decide

/-- T38. -/
theorem test_store_checks_address_first :
    fails (startAt 0 [0x18, 0, 1, 0, 0, 0, 0, 0, 0] []) =
    some (.outOfBounds, 0x100, 0, 9, []) := by decide

/-- T45. -/
theorem test_load_frame_stale_bytes :
    runs { startAt 0 [0x21, 0, 0, 0, 0, 0, 0, 0, 0] [] with
      fp := 0
      cs := [(0, 0x34), (1, 0x12)] } =
    some (.running, 9, [0x1234]) := by decide

/-- T44. -/
theorem test_load_frame_below_zero :
    fails { startAt 0 [0x23, 0x21, 0, 0, 0, 0, 0, 0, 0] [] with
      fp := 32
      cs := [(0, 5), (8, 1), (0x18, 0x12)] } =
    some (.outOfBounds, 0xFFFFFFFFFFFFFFFF, 0, 9, []) := by decide

/-- T51. -/
theorem test_store_frame_one_byte :
    after { startAt 0 [0x24, 8, 0, 0, 0, 0, 0, 0, 0] [0x1FF] with
      fp := 32
      cs := [(0, 5), (8, 1), (0x18, 0x12)] }
      (fun t => (t.runState, t.ip, stackOf t, csOf t)) =
    some (.running, 9, [], [(0, 5), (8, 1), (0x18, 0xFF)]) := by decide

/-- T52. -/
theorem test_store_frame_checks_address_first :
    fails { startAt 0 [0x27, 0x29, 0, 0, 0, 0, 0, 0, 0] [] with fp := 40 } =
    some (.outOfBounds, 0xFFFFFFFFFFFFFFFF, 0, 9, []) := by decide

/-- T55. -/
theorem test_pop :
    runs (startAt 0 [0x30] [1, 2]) =
    some (.running, 1, [1]) := by decide

/-- T58. -/
theorem test_dup_two_below :
    runs (startAt 0 [0x31, 2, 0, 0, 0, 0, 0, 0, 0] [0xA, 0x14, 0x1E]) =
    some (.running, 9, [0xA, 0x14, 0x1E, 0xA]) := by decide

/-- T62. -/
theorem test_dup_underflow_before_overflow :
    fails { startAt 0 [0x31, 5, 0, 0, 0, 0, 0, 0, 0] [1, 2] with
      cfg := { initialParams with
      osCap := 2 } } =
    some (.stackUnderflow, 5, 0, 9, [1, 2]) := by decide

/-- T65. -/
theorem test_swap_ends :
    runs (startAt 0 [0x32, 2, 0, 0, 0, 0, 0, 0, 0] [0xA, 0x14, 0x1E]) =
    some (.running, 9, [0x1E, 0x14, 0xA]) := by decide

/-- T68. -/
theorem test_swap_underflow :
    fails (startAt 0 [0x32, 3, 0, 0, 0, 0, 0, 0, 0] [1, 2, 3]) =
    some (.stackUnderflow, 3, 0, 9, [1, 2, 3]) := by decide

/-- T70. -/
theorem test_add_wraps :
    runs (startAt 0 [0x40] [0xFFFFFFFFFFFFFFFF, 1]) =
    some (.running, 1, [0]) := by decide

/-- T71. -/
theorem test_add_loses_popped_operand :
    fails (startAt 0 [0x40] [5]) =
    some (.stackUnderflow, 0, 0, 1, []) := by decide

/-- T74. -/
theorem test_sub_operand_order :
    runs (startAt 0 [0x41] [3, 0xA]) =
    some (.running, 1, [0xFFFFFFFFFFFFFFF9]) := by decide

/-- T79. -/
theorem test_mul_wraps :
    runs (startAt 0 [0x42] [0xFFFFFFFFFFFFFFFF, 0xFFFFFFFFFFFFFFFF]) =
    some (.running, 1, [1]) := by decide

/-- T81. -/
theorem test_div_operand_order :
    runs (startAt 0 [0x43] [7, 2]) =
    some (.running, 1, [3]) := by decide

/-- T85. -/
theorem test_div_by_zero :
    fails (startAt 0 [0x43] [7, 0]) =
    some (.divideByZero, 0, 0, 1, []) := by decide

/-- T88. -/
theorem test_mod_operand_order :
    runs (startAt 0 [0x44] [2, 7]) =
    some (.running, 1, [2]) := by decide

/-- T91. -/
theorem test_mod_by_zero :
    fails (startAt 0 [0x44] [7, 0]) =
    some (.divideByZero, 0, 0, 1, []) := by decide

/-- T92. -/
theorem test_neg :
    runs (startAt 0 [0x45] [5]) =
    some (.running, 1, [0xFFFFFFFFFFFFFFFB]) := by decide

/-- T97. -/
theorem test_and :
    runs (startAt 0 [0x50] [0xF0F0, 0xFF00]) =
    some (.running, 1, [0xF000]) := by decide

/-- T99. -/
theorem test_or :
    runs (startAt 0 [0x51] [0xF0F0, 0xFF00]) =
    some (.running, 1, [0xFFF0]) := by decide

/-- T101. -/
theorem test_xor :
    runs (startAt 0 [0x52] [0xF0F0, 0xFF00]) =
    some (.running, 1, [0xFF0]) := by decide

/-- T103. -/
theorem test_not :
    runs (startAt 0 [0x53] [0xFF]) =
    some (.running, 1, [0xFFFFFFFFFFFFFF00]) := by decide

/-- T107. -/
theorem test_shl_operand_order :
    runs (startAt 0 [0x54] [4, 1]) =
    some (.running, 1, [8]) := by decide

/-- T111. -/
theorem test_shl_by_64 :
    fails (startAt 0 [0x54] [1, 0x40]) =
    some (.shiftOutOfRange, 0x40, 0, 1, []) := by decide

/-- T113. -/
theorem test_shr_operand_order :
    runs (startAt 0 [0x55] [0x80, 3]) =
    some (.running, 1, [0x10]) := by decide

/-- T116. -/
theorem test_shr_by_64 :
    fails (startAt 0 [0x55] [0x8000000000000000, 0x40]) =
    some (.shiftOutOfRange, 0x40, 0, 1, []) := by decide

/-- T118. -/
theorem test_eq_holds :
    runs (startAt 0 [0x60] [5, 5]) =
    some (.running, 1, [1]) := by decide

/-- T119. -/
theorem test_eq_fails :
    runs (startAt 0 [0x60] [5, 6]) =
    some (.running, 1, [0]) := by decide

/-- T120. -/
theorem test_ne_holds :
    runs (startAt 0 [0x61] [5, 6]) =
    some (.running, 1, [1]) := by decide

/-- T125. -/
theorem test_lt_unsigned :
    runs (startAt 0 [0x62] [1, 0xFFFFFFFFFFFFFFFF]) =
    some (.running, 1, [1]) := by decide

/-- T124. -/
theorem test_lt_equal :
    runs (startAt 0 [0x62] [5, 5]) =
    some (.running, 1, [0]) := by decide

/-- T127. -/
theorem test_le_equal :
    runs (startAt 0 [0x63] [5, 5]) =
    some (.running, 1, [1]) := by decide

/-- T128. -/
theorem test_le_fails :
    runs (startAt 0 [0x63] [6, 5]) =
    some (.running, 1, [0]) := by decide

/-- T131. -/
theorem test_gt_unsigned :
    runs (startAt 0 [0x64] [0xFFFFFFFFFFFFFFFF, 1]) =
    some (.running, 1, [1]) := by decide

/-- T132. -/
theorem test_gt_equal :
    runs (startAt 0 [0x64] [5, 5]) =
    some (.running, 1, [0]) := by decide

/-- T133. -/
theorem test_ge_holds :
    runs (startAt 0 [0x65] [5, 3]) =
    some (.running, 1, [1]) := by decide

/-- T134. -/
theorem test_ge_fails :
    runs (startAt 0 [0x65] [3, 5]) =
    some (.running, 1, [0]) := by decide

/-- T137. -/
theorem test_out_num_zero :
    after (startAt 0 [0x70] [0])
      (fun t => (t.runState, t.ip, stackOf t, t.out)) =
    some (.running, 1, [], [0x30]) := by decide

/-- T138. -/
theorem test_out_num_largest :
    after (startAt 0 [0x70] [0xFFFFFFFFFFFFFFFF])
      (fun t => (t.runState, t.ip, stackOf t, t.out)) =
    some (.running, 1, [], [0x31, 0x38, 0x34, 0x34, 0x36, 0x37, 0x34, 0x34, 0x30, 0x37, 0x33, 0x37, 0x30,
      0x39, 0x35, 0x35, 0x31, 0x36, 0x31, 0x35]) := by decide

/-- T143. -/
theorem test_out_char_low_byte :
    after (startAt 0 [0x71] [0x141])
      (fun t => (t.runState, t.ip, stackOf t, t.out)) =
    some (.running, 1, [], [0x41]) := by decide

/-- T145. -/
theorem test_in_num :
    runs { startAt 0 [0x72] [] with input := [0x2A] } =
    some (.running, 1, [0x2A]) := by decide

/-- The start state of T146. -/
def startT146 : State :=
  { startAt 0 [0x72] [1] with
      cfg := { initialParams with osCap := 1 }
      input := [7] }

/-- T146. -/
theorem test_in_num_full_consumes :
    fails startT146 = some (.stackOverflow, 1, 0, 1, [1]) ∧
    after startT146 (fun t => (t.inPos, t.input)) = some (1, []) := by decide

/-- T147. -/
theorem test_in_char :
    runs { startAt 0 [0x73] [] with input := [0x41] } =
    some (.running, 1, [0x41]) := by decide

/-- T149. -/
theorem test_jmp_beyond_memory :
    runs (startAt 0 [0x80, 0, 0x10, 0, 0, 0, 0, 0, 0] []) =
    some (.running, 0x1000, []) := by decide

/-- T150. -/
theorem test_jz_taken :
    runs (startAt 0x10 [0x81, 0x2D, 0, 0, 0, 0, 0, 0, 0] [0]) =
    some (.running, 0x2D, []) := by decide

/-- T151. -/
theorem test_jz_not_taken :
    runs (startAt 0x10 [0x81, 0x2D, 0, 0, 0, 0, 0, 0, 0] [3]) =
    some (.running, 0x19, []) := by decide

/-- T154. -/
theorem test_jnz_taken :
    runs (startAt 0x20 [0x82, 0, 0, 0, 0, 0, 0, 0, 0] [1]) =
    some (.running, 0, []) := by decide

/-- T155. -/
theorem test_jnz_not_taken :
    runs (startAt 0x20 [0x82, 0, 0, 0, 0, 0, 0, 0, 0] [0]) =
    some (.running, 0x29, []) := by decide

/-- The start state of T159. -/
def startT159 : State :=
  { startAt 9 [0xD0, 0x80, 0, 0, 0, 0, 0, 0, 0] [0xA, 0x14] with
      fp := 0
      mem := [(9, 0xD0), (0xA, 0x80), (0x80, 2), (0x88, 8), (0x90, 0x40)]
      cs := [(0x18, 0xAA), (0x19, 0xAA), (0x1A, 0xAA), (0x1B, 0xAA), (0x1C, 0xAA), (0x1D, 0xAA), (0x1E,
        0xAA), (0x1F, 0xAA)] }

/-- T159. -/
theorem test_call_with_locals :
    runs startT159 = some (.running, 0x40, []) ∧
    after startT159 (fun t => (t.fp, csOf t)) = some (48, [(0, 0xA), (8, 0x14), (0x10, 2), (0x18, 0xAA),
      (0x19, 0xAA), (0x1A, 0xAA), (0x1B, 0xAA), (0x1C, 0xAA), (0x1D, 0xAA), (0x1E, 0xAA), (0x1F, 0xAA),
      (0x20, 8), (0x28, 0x12)]) := by decide

/-- The start state of T164. -/
def startT164 : State :=
  { startAt 9 [0xD0, 0x80, 0, 0, 0, 0, 0, 0, 0] [7] with
      fp := 0
      mem := [(9, 0xD0), (0xA, 0x80), (0x80, 3), (0x90, 0x40)] }

/-- T164. -/
theorem test_call_missing_arguments :
    fails startT164 = some (.stackUnderflow, 0, 9, 0x12, []) ∧
    after startT164 (fun t => cellsRead t.cs 16 8) = some [7, 0, 0, 0, 0, 0, 0, 0] := by decide

/-- T166. -/
theorem test_return_over_locals :
    after { startAt 0x40 [0xD1] [] with
      fp := 48
      cs := [(0, 0xA), (8, 0x14), (0x10, 2), (0x18, 7), (0x19, 7), (0x1A, 7), (0x1B, 7), (0x1C, 7), (0x1D,
        7), (0x1E, 7), (0x1F, 7), (0x20, 8), (0x28, 0x12)] }
      (fun t => (t.runState, t.ip, stackOf t, t.fp)) =
    some (.running, 0x12, [], 0) := by decide

/-- T172. -/
theorem test_return_corrupt_local_size :
    fails { startAt 0 [0xD1] [] with
      fp := 32
      cs := [(0, 5), (8, 1), (0x10, 0xFF), (0x11, 0xFF), (0x12, 0xFF), (0x13, 0xFF), (0x14, 0xFF), (0x15,
        0xFF), (0x16, 0xFF), (0x17, 0xFF), (0x18, 0x12)] } =
    some (.callStackUnderflow, 0x20, 0, 1, []) := by decide

/-- T14. -/
theorem test_fetch_illegal_byte :
    fails (startAt 0x30 [0x1C] []) =
    some (.unknownOpcode, 0x1C, 0x30, 0x31, []) := by decide

/-- T16. -/
theorem test_fetch_beyond_memory :
    fails (startAt 0x100 [] []) =
    some (.outOfBounds, 0x100, 0x100, 0x100, []) := by decide

/-- T17. -/
theorem test_fetch_truncated_immediate :
    fails (startAt 0xF8 [0x13, 1, 0, 0, 0, 0, 0, 0] []) =
    some (.outOfBounds, 0xF9, 0xF8, 0xF9, []) := by decide

/-- withFetchWord places the instruction where the next step fetches it: LOAD_CONST.1 0x2A runs from reset. -/
theorem test_with_fetch_word :
    runs (State.reset.withFetchWord 16 0x2A10) = some (.running, 2, [0x2A]) := by decide

/-- R171: with no value supplied, IN_NUM waits: still RUNNING, ip at the opcode. -/
theorem test_in_num_waits : runs (startAt 3 [0x72] [7]) = some (.running, 3, [7]) := by decide

/-- S7: a program longer than Memory is refused. -/
theorem test_load_refused :
    after { State.reset with cfg := { initialParams with memCap := 2 }, hostCmds := [.load [1, 2, 3]] }
      (fun t => (t.replies, t.mem.length)) = some ([.loadRefused], 0) := by decide

/-! ### The other values of BYTE_ORDER, STATE_ORDINAL and CS_UNWRITTEN_READ -/

theorem test_store_big_endian :
    after { startAt 0 [0x19, 0, 0, 0, 0, 0, 0, 0, 0x40] [0xAABBCCDD] with cfg := { initialParams with byteOrder := .big } }
      (fun t => cellsRead t.mem 0x40 2) = some [0xCC, 0xDD] := by decide

theorem test_pop_res_other_ordinals :
    runs { startAt 0 [1] [0] with cfg := { initialParams with stateOrdinals := ⟨4, 3, 2, 1, 0⟩ } } =
      some (.unknown, 1, []) ∧
    runs { startAt 0 [1] [3] with cfg := { initialParams with stateOrdinals := ⟨4, 3, 2, 1, 0⟩ } } =
      some (.haltSuccess, 1, []) := by decide

/-- The parameters with CS_UNWRITTEN_READ = fault. -/
def strictParams : Params := { initialParams with csUnwrittenRead := .fault }

/-- A state under them: the Call Stack bytes 24 to 31 marked as written. -/
def strict (bytes : List Byte) (words : List Word) (fp : Word) : State :=
  { startAt 0 bytes words with cfg := strictParams, fp := fp, csWritten := cellsWrite [] 24 (List.replicate 8 1) }

/-- The stop a step ends in, if it does. -/
def stopOf (s : State) : Option Fault :=
  match step s with
  | .fault f => some f
  | _ => none

/-- D39: LOAD_FRAME.8 of the written bytes 24 to 31 runs; of the bytes 23 to 30, with one never written, it stops; beyond
the Call Stack the bounds check comes first. -/
theorem test_unwritten_load_frame :
    runs (strict [0x23, 8, 0, 0, 0, 0, 0, 0, 0] [] 32) = some (.running, 9, [0]) ∧
      stopOf (strict [0x23, 9, 0, 0, 0, 0, 0, 0, 0] [] 32) = some (.unwrittenCallStackRead 23) ∧
      fails (strict [0x23, 4, 0, 0, 0, 0, 0, 0, 0] [] 256) = some (.outOfBounds, 252, 0, 9, []) := by decide

/-- STORE_FRAME.1 at 23 marks the byte it writes, and only it. -/
theorem test_store_frame_marks :
    after (strict [0x24, 9, 0, 0, 0, 0, 0, 0, 0] [0] 32) (fun t => cellsRead t.csWritten 22 3) = some [0, 1, 1] := by decide

/-! ### Witnesses: the hypotheses of the statements can be met, clause by clause -/

open Sys2Proof.Claims

theorem initialParams_wf : initialParams.wf = true := by decide

/-- The invariant of a concrete state, from its parts. -/
theorem stateInv_of {s : State} (h : Memory.wf s.mem = true ∧ cellsBelow s.cfg.memCap s.mem = true ∧
    Memory.wf s.cs = true ∧ cellsBelow s.cfg.csCap s.cs = true ∧ cellsWf s.csWritten = true ∧
    cellsBelow s.cfg.csCap s.csWritten = true ∧ cellsWf s.os = true ∧
    cellsBelow s.cfg.osCap s.os = true ∧ s.sp.toNat ≤ s.cfg.osCap ∧ s.fp.toNat ≤ s.cfg.csCap ∧
    s.msg.length ≤ s.cfg.msgCap ∧ s.info = 0#64 ∧ s.faultIp = 0#64 ∧ s.msg = [])
    (hc : s.cfg = initialParams := by rfl) : StateInv s := by
  obtain ⟨h2, h3, h4, h5, h6, h7, h8, h9, h10, h11, h12, h13⟩ := h
  exact ⟨by rw [hc]; exact initialParams_wf, h2, h3, h4, h5, h6, h7, h8, h9, h10, h11, h12, fun _ => h13⟩

theorem wordAt_of {o : ByteOrder} {c : Memory} {a : Nat} {v : Word}
    (h : ∀ i ∈ List.range 8, cellGet c (a + i) = byteOf o 8 v i) : WordAt o c a v :=
  fun i hi => h i (List.mem_range.mpr hi)

/-- Sixteen Words: a full Operand Stack. -/
def sixteen : List Word := [1, 2, 3, 4, 5, 6, 7, 8, 9, 10, 11, 12, 13, 14, 15, 16]

/-- R84's table and two others, which have the instructions. -/
theorem witness_decode_of_encode :
    (Instr.loadConst .s1 0xFF).wf = true ∧ (Instr.loadConst .s8 0xFFFFFFFFFFFFFFFF).wf = true ∧
      initialParams.decodeTable.wf = true ∧ movedAdd.wf = true ∧
      movedField.wf = true ∧ movedField.has (.loadConst .s1 0xFF) = true ∧
      initialParams.decodeTable.has (.loadConst .s8 0xFFFFFFFFFFFFFFFF) = true := by decide

theorem witness_encode_of_decode :
    initialParams.decodeTable.wf = true ∧
      decode initialParams [0x10, 0xFF, 7] = .ok (.loadConst .s1 0xFF) [7] := by decide

/-- The parameters the encodings of R84 are stated for, in either byte order. -/
theorem witness_encodings :
    initialParams.decodeTable = decodeTable ∧ { initialParams with byteOrder := .big }.decodeTable = decodeTable :=
  ⟨rfl, rfl⟩

theorem witness_size_qualifier :
    (∀ op ∈ [0x10#8, 0x1B#8, 0x20#8, 0x27#8],
      (0x10 ≤ op.toNat ∧ op.toNat ≤ 0x1B) ∨ (0x20 ≤ op.toNat ∧ op.toNat ≤ 0x27)) ∧ 8 ≤ immBytes.length := by decide

theorem witness_illegal_bytes :
    ∀ op ∈ [0x03#8, 0x0F, 0x1C, 0x1F, 0x28, 0x2F, 0x33, 0x3F, 0x46, 0x4F, 0x56, 0x5F, 0x66, 0x6F, 0x74, 0x7F, 0x83, 0xCF,
      0xD2, 0xFF],
      (startAt 255 [op] []).cfg.decodeTable = decodeTable ∧ (startAt 255 [op] []).runState = .running ∧
        (startAt 255 [op] []).ip.toNat < 256 ∧
        illegalByte (cellGet (startAt 255 [op] []).mem (startAt 255 [op] []).ip.toNat).toNat := by decide

/-- What the decoder reads at ip. -/
def decodedAtIp (s : State) : DecodeResult := decode s.cfg (bytesAtIp s)

theorem witness_step_runs :
    (startAt 0 [0x40] []).cfg.wf = true ∧ (startAt 0 [0x40] []).runState = .running ∧
      (∃ rest, decodedAtIp (startAt 0 [0x40] []) = .ok .add rest) ∧
      (∃ rest, decodedAtIp (startAt 247 [0x80, 7] []) = .ok (.jmp 7) rest) ∧
      decodedAtIp (startAt 256 [] []) = .noOpcode ∧
      decodedAtIp (startAt 255 [0xFF] []) = .unknownOpcode 0xFF ∧
      decodedAtIp (startAt 248 [0x80] []) = .truncated ⟨0x80, .jmp, .s1, .fw⟩ := by
  exact ⟨initialParams_wf, by decide, ⟨_, rfl⟩, ⟨_, rfl⟩, by decide, by decide, by decide⟩

theorem witness_construction :
    initialParams.wf = true ∧ Memory.wf [(255, 1)] = true ∧ cellsBelow initialParams.memCap [(255, 1#8)] = true ∧
      cellsBelow initialParams.csCap [(255, 1#8)] = true := by decide

theorem witness_step_keeps_invariant :
    (StateInv (startAt 0 [0x40] sixteen) ∧ ∃ t, step (startAt 0 [0x40] sixteen) = .next t) ∧
      StateInv State.reset ∧ step State.reset = .next State.reset :=
  ⟨⟨stateInv_of (by decide), ⟨_, rfl⟩⟩, stateInv_of (by decide), rfl⟩

/-- A stopped engine with one host command. -/
def commanded (c : HostCmd) : State := { State.reset with hostCmds := [c] }

theorem witness_load_command :
    (commanded (.load (List.replicate 256 1))).runState ≠ .running ∧
      (List.replicate 256 1#8).length ≤ initialParams.memCap ∧
        (List.replicate 257 1#8).length > initialParams.memCap ∧
      Memory.wf (commanded (.load (List.replicate 256 1))).mem = true := by
  exact ⟨by decide, by rw [List.length_replicate]; decide, by rw [List.length_replicate]; decide, rfl⟩

theorem witness_host_commands :
    ∀ c ∈ [HostCmd.clear, .run, .status, .regs, .teardown],
      (commanded c).runState ≠ .running ∧ (commanded c).hostCmds = [c] := by decide

theorem witness_idle : State.reset.runState ≠ .running ∧ State.reset.hostCmds = [] := by decide

theorem witness_run_after_clear : initialParams.wf = true ∧ initialParams.decodeTable = decodeTable :=
  ⟨initialParams_wf, rfl⟩

theorem witness_word_codec : immBytes.length = 8 := by decide

theorem readable_of {s : State} {a n : Nat} (h : ∀ i ∈ List.range n, cellGet s.csWritten (a + i) = 1#1) :
    Readable s a n := .inr fun i hi => h i (List.mem_range.mpr hi)

theorem unreadable_of {s : State} {a n : Nat} (i : Nat) (hf : s.cfg.csUnwrittenRead = .fault) (hi : i < n)
    (h : cellGet s.csWritten (a + i) ≠ 1#1) : ¬Readable s a n
  | .inl hc => by rw [hf] at hc; cases hc
  | .inr hw => h (hw i hi)

/-- A Call Stack read is let through at content, and at fault when its bytes were written; and it is not. -/
theorem witness_readable :
    Readable State.reset 248 8 ∧ Readable (strict [] [] 32) 24 8 ∧ ¬Readable (strict [] [] 32) 23 8 :=
  ⟨.inl rfl, readable_of (by decide), unreadable_of 0 rfl (by decide) (by decide)⟩

theorem witness_accessors :
    Memory.wf State.reset.mem = true ∧ Memory.wf State.reset.cs = true ∧ cellsWf State.reset.csWritten = true ∧
      (249#64).toNat + Size.s8.bytes > State.reset.cfg.memCap ∧
        (249#64).toNat + Size.s8.bytes > State.reset.cfg.csCap ∧
      (248#64).toNat + Size.s8.bytes ≤ State.reset.cfg.memCap ∧
      (248#64).toNat + Size.s8.bytes ≤ State.reset.cfg.csCap := by decide

theorem witness_mixed_width :
    State.reset.cfg.byteOrder = .little ∧ Memory.wf State.reset.mem = true ∧
      (∃ t, memWrite 250 .s2 0xBEEF State.reset = .ok () t) ∧
      (248#64).toNat + Size.s8.bytes ≤ State.reset.cfg.memCap := ⟨rfl, rfl, ⟨_, rfl⟩, by decide⟩

theorem witness_canonical_buffers :
    cellsWf [(3, 5#8)] = true ∧ ∀ x, cellGet [(3, 5#8)] x = cellGet [(3, 5#8)] x := ⟨by decide, fun _ => rfl⟩

/-- Empty, one Word, full; and an offset that names the deepest Word, or none. -/
theorem witness_stack_depths :
    StateInv (startAt 0 [] []) ∧ StateInv (startAt 0 [] [7]) ∧ StateInv (startAt 0 [] sixteen) ∧
      (startAt 0 [] []).sp.toNat = 0 ∧ (startAt 0 [] [7]).sp.toNat = 1 ∧
      (startAt 0 [] [7]).sp.toNat ≠ (startAt 0 [] [7]).cfg.osCap ∧
      (startAt 0 [] sixteen).sp.toNat = (startAt 0 [] sixteen).cfg.osCap ∧
      (0#64).toNat < (startAt 0 [] [7]).sp.toNat ∧ (startAt 0 [] [7]).sp.toNat ≤ (1#64).toNat ∧
      (15#64).toNat < (startAt 0 [] sixteen).sp.toNat :=
  ⟨stateInv_of (by decide), stateInv_of (by decide), stateInv_of (by decide), by decide, by decide, by decide,
    by decide, by decide, by decide, by decide⟩

theorem witness_last_in_first_out :
    StateInv (startAt 0 [] [7]) ∧ (startAt 0 [] [7]).sp.toNat + (sixteen.take 15).length ≤ 16 :=
  ⟨stateInv_of (by decide), by decide⟩

/-- Two states that differ in a cell above sp, and a step from each. -/
theorem witness_stale_cells :
    StateInv (startAt 0 [0x30] [7]) ∧ StateInv { startAt 0 [0x30] [7] with os := [(0, 7), (1, 9)] } ∧
      AgreeBelowSp (startAt 0 [0x30] [7]) { startAt 0 [0x30] [7] with os := [(0, 7), (1, 9)] } :=
  ⟨stateInv_of (by decide), stateInv_of (by decide), rfl, by decide⟩

/-- Every case of the run state POP_RES adopts. -/
theorem witness_pop_res :
    ∀ p ∈ [(0#64, RunState.running), (1, .haltSuccess), (2, .haltFailure), (3, .uninitialized), (4, .unknown),
      (5, .unknown), (0xFFFFFFFFFFFFFFFF, .unknown)],
      1 ≤ (startAt 0 [] [p.1]).sp.toNat ∧ (startAt 0 [] [p.1]).cfg.stateOrdinals = stateOrdinals ∧
        stateOrdinals.wf = true ∧ adopts (below (startAt 0 [] [p.1]) 0).toNat = p.2 := by decide

/-- A Word that is the ordinal of a run state, for each of the five; and one that is no ordinal. -/
theorem witness_ordinals :
    (∀ q : RunState, below (startAt 0 [] [ordinalOf stateOrdinals q]) 0 = ordinalOf stateOrdinals q) ∧
      ∀ q : RunState, below (startAt 0 [] [5]) 0 ≠ ordinalOf stateOrdinals q := by
  constructor <;> intro q <;> cases q <;> decide

/-- Immediates that do not lie in Memory: one byte and eight. -/
theorem witness_immediate_fetch_faults :
    (initialParams.wf = true ∧ (startAt 255 [0x10] []).cfg.decodeTable = decodeTable) ∧
      (startAt 255 [0x10] []).runState = .running ∧
      cellGet (startAt 255 [0x10] []).mem 255 = 0x10#8 + ss .s1 ∧ 255 + 1 + Size.s1.bytes > initialParams.memCap ∧
      cellGet (startAt 248 [0x14] []).mem 248 = 0x14#8 + ss .s1 ∧ 248 + 1 + 8 > initialParams.memCap := by decide

theorem witness_load_const : (0xFF#64).toNat < 2 ^ (8 * Size.s1.bytes) ∧
    (0xFFFFFFFFFFFFFFFF#64).toNat < 2 ^ (8 * Size.s8.bytes) := by decide

/-- STORE: bad address; good address with no Word and with one. -/
theorem witness_store :
    (249#64).toNat + Size.s8.bytes > (startAt 0 [] []).cfg.memCap ∧
      (248#64).toNat + Size.s8.bytes ≤ (startAt 0 [] []).cfg.memCap ∧ (startAt 0 [] []).sp.toNat = 0 ∧
      1 ≤ (startAt 0 [] [7]).sp.toNat ∧ Memory.wf (startAt 0 [] [7]).mem = true := by decide

theorem witness_bounds_scenario :
    State.reset.cfg.memCap ≤ (256#64).toNat ∧ State.reset.cfg.memCap ≤ (249#64).toNat + Size.s8.bytes - 1 := by decide

/-- STORE.1 of the opcode of ADD at ip, the last byte of Memory. -/
theorem witness_store_seen :
    StateInv (startAt 255 [] [1, 2, 0x40]) ∧ (startAt 255 [] [1, 2, 0x40]).runState = .running ∧
      (startAt 255 [] [1, 2, 0x40]).ip.toNat < (startAt 255 [] [1, 2, 0x40]).cfg.memCap ∧
      1 ≤ (startAt 255 [] [1, 2, 0x40]).sp.toNat ∧
      decode (startAt 255 [] [1, 2, 0x40]).cfg [0x40] = .ok .add [] ∧
      (below (startAt 255 [] [1, 2, 0x40]) 0).setWidth 8 = 0x40#8 :=
  ⟨stateInv_of (by decide), by decide, by decide, by decide, by decide, by decide⟩

/-- fp = 252 = CS_CAP − 4. -/
def framed (words : List Word) : State := { startAt 0 [] words with fp := 252 }

/-- Frame-relative: below 0; beyond the Call Stack; the lowest and the highest address that lies in it. -/
theorem witness_frame_relative :
    (253#64).toNat > (framed []).fp.toNat ∧
      ((3#64).toNat ≤ (framed []).fp.toNat ∧ (framed []).fp.toNat - (3#64).toNat + Size.s8.bytes > 256) ∧
      ((4#64).toNat ≤ (framed [7]).fp.toNat ∧ (framed [7]).fp.toNat - (4#64).toNat + Size.s8.bytes ≤ 256) ∧
      ((252#64).toNat ≤ (framed []).fp.toNat ∧ (framed []).fp.toNat - (252#64).toNat + Size.s8.bytes ≤ 256) ∧
      (framed []).sp.toNat = 0 ∧ 1 ≤ (framed [7]).sp.toNat ∧ (framed [7]).sp.toNat ≠ (framed [7]).cfg.osCap ∧
      (framed sixteen).sp.toNat = (framed sixteen).cfg.osCap ∧ Memory.wf (framed [7]).cs = true ∧
      cellsWf (framed [7]).csWritten = true ∧ (framed [7]).cfg.csUnwrittenRead = .content := by decide

/-- One frame on an empty Call Stack: argument 0x55, arg_num 1, local_size 8, return_address 0x12. -/
def oneFrame : State :=
  { startAt 0 [] [] with fp := 40, cs := [(0, 0x55), (8, 1), (16, 0xAA), (23, 0xBB), (24, 8), (32, 0x12)] }

theorem witness_frame_offsets :
    StateInv oneFrame ∧ oneFrame.fp.toNat = 0 + frameBytes 1#64 8#64 ∧
      FrameAt oneFrame.cfg.byteOrder oneFrame.cs 0 1#64 8#64 (fun _ => 0x55#64) 0x12#64 ∧
      Readable oneFrame 0 (frameBytes 1#64 8#64) ∧ oneFrame.sp.toNat < oneFrame.cfg.osCap ∧
      0 < (1#64).toNat ∧ 7 < (8#64).toNat := by
  refine ⟨stateInv_of (by decide), by decide, ⟨fun i hi => ?_, wordAt_of (by decide), wordAt_of (by decide),
    wordAt_of (by decide)⟩, .inl rfl, by decide, by decide, by decide⟩
  obtain rfl : i = 0 := by simpa using hi
  exact wordAt_of (by decide)

/-- Binary and unary operators: the shortest and the longest stack, and the stacks that underflow. -/
theorem witness_operators :
    (2 ≤ (startAt 0 [] [5, 3]).sp.toNat ∧ (startAt 0 [] [5, 3]).sp.toNat ≤ 16) ∧
      (2 ≤ (startAt 0 [] sixteen).sp.toNat ∧ (startAt 0 [] sixteen).sp.toNat ≤ 16) ∧
      (startAt 0 [] []).sp.toNat = 0 ∧ (startAt 0 [] [5]).sp.toNat = 1 := by decide

/-- A divisor 1 and 0; a shift by 63 and by 64. -/
theorem witness_operands :
    (below (startAt 0 [] [5, 1]) 0).toNat ≠ 0 ∧ below (startAt 0 [] [5, 0]) 0 = 0#64 ∧
      (below (startAt 0 [] [5, 63]) 0).toNat < 64 ∧ 64 ≤ (below (startAt 0 [] [5, 64]) 0).toNat := by decide

theorem witness_channels :
    (startAt 0 [] [7]).outReady = true ∧ { startAt 0 [] [7] with outReady := false }.outReady = false ∧
      (startAt 0 [] [7]).input = [] ∧ { startAt 0 [] [7] with input := [42] }.input = [42] ∧
      { startAt 0 [] sixteen with input := [42] }.sp.toNat = initialParams.osCap := by decide

/-- A condition that is 0, one that is not, and a target one past Memory. -/
theorem witness_jumps :
    (below (startAt 0 [] [0]) 0).toNat = 0 ∧ (below (startAt 0 [] [9]) 0).toNat ≠ 0 ∧
      1 ≤ (startAt 0 [] [0]).sp.toNat ∧ (startAt 0 [] []).runState = .running ∧
      (startAt 0 [] []).cfg.memCap ≤ (256#64).toNat := by decide

/-- A descriptor (2, 8, 0x40) in the last bytes Memory has for one, and the Words given on the Operand Stack. -/
def calling (words : List Word) (fp : Word) : State :=
  { startAt 9 [] words with fp := fp, mem := [(232, 2), (240, 8), (248, 0x40)] }

/-- CALL with the frame ending exactly at CS_CAP, one byte beyond it, and with an argument missing. -/
theorem witness_call :
    (StateInv (calling [10, 20] 208) ∧ (232#64).toNat + 24 ≤ (calling [10, 20] 208).cfg.memCap ∧
      DescriptorAt (calling [10, 20] 208) 232#64 2#64 8#64 0x40#64 ∧
      (calling [10, 20] 208).fp.toNat + frameBytes 2#64 8#64 ≤ (calling [10, 20] 208).cfg.csCap ∧
      (2#64).toNat ≤ (calling [10, 20] 208).sp.toNat) ∧
    (StateInv (calling [10, 20] 209) ∧ DescriptorAt (calling [10, 20] 209) 232#64 2#64 8#64 0x40#64 ∧
      (calling [10, 20] 209).fp.toNat + frameBytes 2#64 8#64 > (calling [10, 20] 209).cfg.csCap) ∧
    (StateInv (calling [10] 208) ∧ DescriptorAt (calling [10] 208) 232#64 2#64 8#64 0x40#64 ∧
      (calling [10] 208).sp.toNat < (2#64).toNat) :=
  ⟨⟨stateInv_of (by decide), by decide, ⟨wordAt_of (by decide), wordAt_of (by decide), wordAt_of (by decide)⟩,
      by decide, by decide⟩,
    ⟨stateInv_of (by decide), ⟨wordAt_of (by decide), wordAt_of (by decide), wordAt_of (by decide)⟩, by decide⟩,
    ⟨stateInv_of (by decide), ⟨wordAt_of (by decide), wordAt_of (by decide), wordAt_of (by decide)⟩, by decide⟩⟩

/-- Descriptors whose first, second and third Word is the first that does not lie in Memory. -/
theorem witness_call_descriptor :
    (249#64).toNat + 8 > 256 ∧ ((248#64).toNat + 8 ≤ 256 ∧ (248#64).toNat + 16 > 256) ∧
      ((240#64).toNat + 16 ≤ 256 ∧ (240#64).toNat + 24 > 256) := by decide

/-- A Call Stack with fp given. -/
def returning (fp : Word) (cs : Memory) : State := { startAt 0 [] [] with fp := fp, cs := cs }

/-- Reads that stop: LOAD_FRAME at an unwritten byte; RETURN with byte 31 of return_address unwritten, with byte 23 of
local_size, and with every byte of arg_num (local_size 0). -/
theorem witness_unwritten :
    (¬Readable (strict [] [] 32) ((32#64).toNat - (9#64).toNat) Size.s1.bytes ∧
      (32#64).toNat - (9#64).toNat + 1 ≤ 256) ∧
      (¬Readable (strict [] [] 33) (33 - 8) 8 ∧ (strict [] [] 33).fp.toNat = 33 ∧ 33 ≤ (strict [] [] 33).cfg.csCap) ∧
      (Readable (strict [] [] 32) (32 - 8) 8 ∧ ¬Readable (strict [] [] 32) (32 - 16) 8) ∧
      (Readable { strict [] [] 40 with csWritten := cellsWrite [] 24 (List.replicate 16 1) } (40 - 8) 8 ∧
        Readable { strict [] [] 40 with csWritten := cellsWrite [] 24 (List.replicate 16 1) } (40 - 16) 8 ∧
        WordAt .little (strict [] [] 40).cs (40 - 16) 0#64 ∧
        ¬Readable { strict [] [] 40 with csWritten := cellsWrite [] 24 (List.replicate 16 1) } (40 - 24 - (0#64).toNat) 8) ∧
      State.reset.cfg.csUnwrittenRead = .content :=
  ⟨⟨unreadable_of 0 rfl (by decide) (by decide), by decide⟩,
    ⟨unreadable_of 7 rfl (by decide) (by decide), by decide, by decide⟩,
    ⟨readable_of (by decide), unreadable_of 0 rfl (by decide) (by decide)⟩,
    ⟨readable_of (by decide), readable_of (by decide), wordAt_of (by decide), unreadable_of 0 rfl (by decide) (by decide)⟩,
    by decide⟩

/-- RETURN with fp below return_address; with fp one byte short of the trailer; with arg_num
missing; with an argument missing; and complete. -/
theorem witness_return :
    (StateInv (returning 7 []) ∧ (returning 7 []).fp.toNat < 8) ∧
    (StateInv (returning 15 []) ∧ (returning 15 []).fp.toNat < 16 ∧ Readable (returning 15 []) (15 - 8) 8) ∧
    (StateInv (returning 24 [(8, 1)]) ∧
      WordAt (returning 24 [(8, 1)]).cfg.byteOrder (returning 24 [(8, 1)]).cs (24 - 16) 1#64 ∧
      24 < 24 + (1#64).toNat) ∧
    (StateInv (returning 31 [(7, 1)]) ∧
      WordAt (returning 31 [(7, 1)]).cfg.byteOrder (returning 31 [(7, 1)]).cs (31 - 16) 0#64 ∧
      WordAt (returning 31 [(7, 1)]).cfg.byteOrder (returning 31 [(7, 1)]).cs (31 - 24 - 0) 1#64 ∧
        31 < 24 + 0 + 8 * (1#64).toNat) ∧
    (StateInv oneFrame ∧ WordAt oneFrame.cfg.byteOrder oneFrame.cs (40 - 8) 0x12#64 ∧
      WordAt oneFrame.cfg.byteOrder oneFrame.cs (40 - 16) 8#64 ∧
      WordAt oneFrame.cfg.byteOrder oneFrame.cs (40 - 24 - 8) 1#64 ∧
        24 + (8#64).toNat + 8 * (1#64).toNat ≤ oneFrame.fp.toNat ∧
      Readable oneFrame (40 - 16) 16 ∧ Readable oneFrame (40 - 24 - 8) 8) :=
  ⟨⟨stateInv_of (by decide), by decide⟩, ⟨stateInv_of (by decide), by decide, .inl rfl⟩,
    ⟨stateInv_of (by decide), wordAt_of (by decide), by decide⟩,
    ⟨stateInv_of (by decide), wordAt_of (by decide), wordAt_of (by decide), by decide⟩,
    ⟨stateInv_of (by decide), wordAt_of (by decide), wordAt_of (by decide), wordAt_of (by decide), by decide,
      .inl rfl, .inl rfl⟩⟩

/-- The state a CALL leaves is itself a state from which RETURN may run. -/
theorem witness_call_then_return :
    ∃ t, exec (.call 232) (calling [10, 20] 208) = .next t ∧ StateInv t ∧ t.cfg = (calling [10, 20] 208).cfg ∧
      t.fp = 256#64 :=
  ⟨_, rfl, stateInv_of (by decide), rfl, by decide⟩

theorem witness_fault_entry : (startAt 0 [] []).hostCmds = [] := by decide

/-- DONE, POP_RES of UNKNOWN's ordinal, a fault of the instruction and one of the fetch: each ends a running engine. -/
theorem witness_running_ends :
    (startAt 0 [] []).cfg.wf = true ∧
      ∀ s ∈ [startAt 0 [0x00] [], startAt 0 [0x01] [4], startAt 0 [0x02] [], startAt 256 [] []],
      s.runState = .running ∧ ∃ t, step s = .next t ∧ t.runState ≠ .running := by
  refine ⟨initialParams_wf, fun s hs => ?_⟩
  rcases List.mem_cons.mp hs with rfl | hs
  · exact ⟨rfl, _, rfl, by decide⟩
  rcases List.mem_cons.mp hs with rfl | hs
  · exact ⟨rfl, _, rfl, by decide⟩
  rcases List.mem_cons.mp hs with rfl | hs
  · exact ⟨rfl, _, rfl, by decide⟩
  obtain rfl := List.mem_singleton.mp hs
  exact ⟨rfl, _, rfl, by decide⟩

/-- A next state, and the stop of a read CS_UNWRITTEN_READ = fault forbids. -/
theorem witness_own :
    ((startAt 0 [] [5, 3]).cfg.wf = true ∧ ∃ t, exec .add (startAt 0 [] [5, 3]) = .next t) ∧
      (strict [] [] 31).cfg.wf = true ∧ exec .ret (strict [] [] 31) = .fault (.unwrittenCallStackRead 23) :=
  ⟨⟨initialParams_wf, _, rfl⟩, initialParams_wf, rfl⟩

theorem witness_status_written :
    (startAt 0 [0x02] []).cfg.wf = true ∧ (∃ t, step (startAt 0 [0x02] []) = .next t ∧ t.cause = .abort) ∧
      ∃ t, step (commanded (.load [])) = .next t ∧ t.replies = [.loaded] :=
  ⟨initialParams_wf, ⟨_, rfl, rfl⟩, ⟨_, rfl, rfl⟩⟩

end Sys2Proof.Tests
end

section
/-! The scope's statements (00_scope.md): the decoder undoes the encoder. -/

namespace Sys2Proof

/-- A value that fits n bytes is what its n bytes stand for. -/
theorem wordOfBytes_bytesOfWord_of_lt (o : ByteOrder) {n : Nat} {w : Word} (h : w.toNat < 2 ^ (8 * n)) :
    wordOfBytes o (bytesOfWord o n w) = w := by
  rw [wordOfBytes_bytesOfWord, Nat.mod_eq_of_lt h, BitVec.ofNat_toNat, BitVec.setWidth_eq]

theorem encode_of_no_imm (p : Params) {i : Instr} (h : i.imm = none) : encode p i = [opcodeOf p.decodeTable i] := by
  rw [encode, h]

theorem encode_of_imm (p : Params) {i : Instr} {n : Size} {w : Word} (h : i.imm = some (n, w)) :
    encode p i = opcodeOf p.decodeTable i :: bytesOfWord p.byteOrder n.bytes w := by
  rw [encode, h]

/-- Without an immediate one byte is read. -/
theorem decode_of_no_imm {p : Params} {op : Byte} {row : DecodeRow} (rest : List Byte)
    (hrow : lookupOpcode p.decodeTable op = some row) (h : row.immSize = none) :
    decode p (op :: rest) = .ok (row.instr 0#64) rest := by
  simp only [decode, hrow, h]

/-- An immediate that is all there is read, whatever follows it. -/
theorem decode_of_imm {p : Params} {op : Byte} {row : DecodeRow} {n : Size} (imm rest : List Byte)
    (hrow : lookupOpcode p.decodeTable op = some row) (h : row.immSize = some n) (hl : imm.length = n.bytes) :
    decode p (op :: (imm ++ rest)) = .ok (row.instr (wordOfBytes p.byteOrder imm)) rest := by
  simp [decode, hrow, h, ← hl]

/-- In an admissible table that has the instruction, its bytes decode to it, whatever follows them. -/
theorem decode_encode {p : Params} {i : Instr} (rest : List Byte) (ht : p.decodeTable.wf = true)
    (hi : p.decodeTable.has i = true) (hwf : i.wf = true) : decode p (encode p i ++ rest) = .ok i rest := by
  obtain ⟨row, hrow, hsize, hinstr⟩ := lookupOpcode_of_has ht hi
  cases himm : i.imm with
  | none =>
    simp only [himm, Option.map_none, Option.getD_none] at hsize hinstr
    rw [encode_of_no_imm p himm, List.singleton_append, decode_of_no_imm rest hrow hsize, hinstr]
  | some imm =>
    obtain ⟨n, w⟩ := imm
    simp only [himm, Option.map_some, Option.getD_some] at hsize hinstr
    rw [encode_of_imm p himm, List.cons_append, decode_of_imm _ rest hrow hsize (bytesOfWord_length _ _ _),
      wordOfBytes_bytesOfWord_of_lt _ (imm_fits hwf himm), hinstr]

/-- Settles O2: the row the opcode byte finds is the instruction's own (lookupOpcode_of_has), and the codec's round trip
gives back an immediate that fits its width. -/
theorem decodeOfEncode : Obligations.DecodeOfEncode :=
  ⟨decodeTable_wf, decodeTable_has, fun _ _ rest ht hi hwf => decode_encode rest ht hi hwf⟩

end Sys2Proof
end

section
/-! What an instruction may write (10_state.md R24, R25, R36, R38, R40), as a relation that every primitive keeps. -/

namespace Sys2Proof.Machine

open Sys2Proof.Claims

/-! ### The 8 bytes of a Word -/

/-- Eight bytes hold a Word exactly when that Word is read from them. -/
theorem wordAt_iff (o : ByteOrder) (c : Memory) (a : Nat) (v : Word) :
    WordAt o c a v ↔ wordOfBytes o (cellsRead c a 8) = v := by
  have hbytes : WordAt o c a v ↔ cellsRead c a 8 = bytesOfWord o 8 v := by
    constructor
    · intro h
      refine List.ext_getElem (by simp) fun i hi hi' => ?_
      rw [cellsRead_getElem, bytesOfWord_getElem]
      exact h i (by simpa using hi)
    · intro h i hi
      rw [← cellsRead_getElem c a 8 i (by simpa using hi), byteOf, ← bytesOfWord_getElem o 8 v i (by simpa using hi)]
      simp only [h]
  rw [hbytes]
  constructor
  · intro h
    rw [h, wordOfBytes_bytesOfWord_eight]
  · rintro rfl
    simpa using (bytesOfWord_wordOfBytes o (cellsRead c a 8) (by simp)).symm

/-- The Word MemRead answers is the one its 8 bytes hold. -/
theorem wordAt_of_memRead {a v : Word} {s t : State} (h : memRead a .s8 s = .ok v t) :
    a.toNat + 8 ≤ s.cfg.memCap ∧ WordAt s.cfg.byteOrder s.mem a.toNat v := by
  rcases memRead_cases a .s8 s with ⟨hle, e⟩ | ⟨-, e⟩
  · rw [e, Res.ok.injEq] at h
    exact ⟨hle, (wordAt_iff _ _ _ _).mpr h.1⟩
  · simp [e] at h

/-! ### Cells changed since a state -/

/-- A run of cells written adds only its own indexes to those at which a buffer differs from another. -/
theorem cellsWrite_differs {w : Nat} {P : Nat → Prop} {c d : List (Nat × BitVec w)} {a : Nat} {vs : List (BitVec w)}
    (hc : ∀ x, cellGet c x ≠ cellGet d x → P x) (hP : ∀ x, a ≤ x → x < a + vs.length → P x) (x : Nat)
    (hx : cellGet (cellsWrite c a vs) x ≠ cellGet d x) : P x := by
  by_cases hin : a ≤ x ∧ x < a + vs.length
  · exact hP x hin.1 hin.2
  · rw [cellGet_cellsWrite_outside c vs (by omega)] at hx
    exact hc x hx

/-- A cell set adds only its own index. -/
theorem cellSet_differs {w : Nat} {P : Nat → Prop} {c d : List (Nat × BitVec w)} {a : Nat} {v : BitVec w}
    (hc : ∀ x, cellGet c x ≠ cellGet d x → P x) (ha : P a) (x : Nat)
    (hx : cellGet (cellSet c a v) x ≠ cellGet d x) : P x :=
  cellsWrite_differs (vs := [v]) hc (fun y hy hy' => by
    obtain rfl : y = a := by simp only [List.length_singleton] at hy'; omega
    exact ha) x hx

/-! ### What an instruction may write -/

/-- WritesCs, where the parameters are in R9's ranges: beyond them the address of a frame's field could wrap. -/
def MayWriteCs (i : Instr) (s : State) (x : Nat) : Prop := s.cfg.wf = true → WritesCs i s x

/-- What lies between the state s in which an instruction starts and a state t it passes through or ends in: the clauses
of Obligations.InstructionsWriteOnlyTheirOwn. -/
structure OwnWrites (i : Instr) (s t : State) : Prop where
  kept : t.cfg = s.cfg ∧ t.faultAddr = s.faultAddr ∧ t.outReady = s.outReady ∧ t.hostCmds = s.hostCmds ∧
    t.replies = s.replies
  mem : ∀ x, cellGet t.mem x ≠ cellGet s.mem x → WritesMem i x
  os : ∀ x, cellGet t.os x ≠ cellGet s.os x → WritesOs i s x
  cs : ∀ x, cellGet t.cs x ≠ cellGet s.cs x → MayWriteCs i s x
  csWritten : ∀ x, cellGet t.csWritten x ≠ cellGet s.csWritten x → MayWriteCs i s x
  fp : t.fp ≠ s.fp → i = .ret ∨ ∃ d, i = .call d
  ip : t.ip ≠ s.ip → i = .ret ∨ (∃ d, i = .call d ∨ i = .jmp d ∨ i = .jz d ∨ i = .jnz d) ∨
    (t.ip = s.faultAddr ∧ (i = .outNum ∨ i = .outChar ∨ i = .inNum ∨ i = .inChar))
  sp : t.sp ≠ s.sp → MovesSp i
  out : s.out <+: t.out ∧ (t.out ≠ s.out → i = .outNum ∨ i = .outChar)
  input : t.inPos ≠ s.inPos ∨ t.input ≠ s.input → i = .inNum ∨ i = .inChar
  status :
    (t.cause = s.cause ∧ t.info = s.info ∧ t.faultIp = s.faultIp ∧ t.msg = s.msg ∧ t.msgDraws = s.msgDraws ∧
      (t.runState = s.runState ∨ (i = .done ∧ t.runState = .haltSuccess) ∨ i = .popRes)) ∨
    (t.runState = .haltFailure ∧ t.cause ≠ .none ∧ t.faultIp = s.faultAddr ∧ t.msg.length ≤ s.cfg.msgCap)

/-- When an instruction may end the run: it reads the Call Stack, and CS_UNWRITTEN_READ is fault (R9, D39). -/
def MayStop (i : Instr) (s : State) (f : Fault) : Prop :=
  s.cfg.csUnwrittenRead = .fault ∧ (i = .ret ∨ ∃ n off, i = .loadFrame n off) ∧ ∃ a, f = .unwrittenCallStackRead a

/-- What a sequence of primitives of an instruction started in s may give. -/
def Res.Own {α : Type} (i : Instr) (s : State) : Res α → Prop
  | .ok _ t => OwnWrites i s t
  | .raise c _ t => c ≠ .none ∧ OwnWrites i s t
  | .hold => i = .outNum ∨ i = .outChar ∨ i = .inNum ∨ i = .inChar
  | .stop f => MayStop i s f

/-- A primitive that, in the state t, answers a value or raises a fault or ends the run, and writes nothing. -/
def Res.Reads {α : Type} (i : Instr) (s t : State) : Res α → Prop
  | .ok _ u => u = t
  | .raise c _ u => c ≠ .none ∧ u = t
  | .hold => False
  | .stop f => MayStop i s f

section
variable {i : Instr} {s t : State} {v : Word}

/-! ### Each named update of the state -/

theorem OwnWrites.refl (i : Instr) (s : State) : OwnWrites i s s where
  kept := ⟨rfl, rfl, rfl, rfl, rfl⟩
  mem _ hx := absurd rfl hx
  os _ hx := absurd rfl hx
  cs _ hx := absurd rfl hx
  csWritten _ hx := absurd rfl hx
  fp h := absurd rfl h
  ip h := absurd rfl h
  sp h := absurd rfl h
  out := ⟨List.prefix_rfl, fun h => absurd rfl h⟩
  input h := by simp at h
  status := .inl ⟨rfl, rfl, rfl, rfl, rfl, .inl rfl⟩

theorem OwnWrites.cfg (h : OwnWrites i s t) : t.cfg = s.cfg := h.kept.1

theorem OwnWrites.setSp (h : OwnWrites i s t) (hm : MovesSp i) (sp : Word) : OwnWrites i s { t with sp := sp } :=
  { h with sp := fun _ => hm }

theorem OwnWrites.setOs (h : OwnWrites i s t) {a : Nat} (ha : WritesOs i s a) (v : Word) :
    OwnWrites i s { t with os := cellSet t.os a v } :=
  { h with os := cellSet_differs h.os ha }

theorem OwnWrites.popped (h : OwnWrites i s t) (hm : MovesSp i) : OwnWrites i s (popped t) := h.setSp hm _

theorem OwnWrites.pushed (h : OwnWrites i s t) (hm : MovesSp i) (ha : WritesOs i s t.sp.toNat) (v : Word) :
    OwnWrites i s (pushed v t) := (h.setOs ha v).setSp hm _

theorem OwnWrites.setMem (h : OwnWrites i s t) {a : Nat} {bytes : List Byte}
    (ha : ∀ x, a ≤ x → x < a + bytes.length → WritesMem i x) :
    OwnWrites i s { t with mem := cellsWrite t.mem a bytes } :=
  { h with mem := cellsWrite_differs h.mem ha }

theorem OwnWrites.csStored (h : OwnWrites i s t) {a : Nat} {n : Size}
    (ha : ∀ x, a ≤ x → x < a + n.bytes → MayWriteCs i s x) (v : Word) : OwnWrites i s (csStored a n v t) :=
  { h with
    cs := cellsWrite_differs h.cs (by simpa using ha)
    csWritten := cellsWrite_differs h.csWritten (by simpa using ha) }

theorem OwnWrites.setFp (h : OwnWrites i s t) (hi : i = .ret ∨ ∃ d, i = .call d) (fp : Word) :
    OwnWrites i s { t with fp := fp } :=
  { h with fp := fun _ => hi }

theorem OwnWrites.jumpTo (h : OwnWrites i s t)
    (hi : i = .ret ∨ ∃ d, i = .call d ∨ i = .jmp d ∨ i = .jz d ∨ i = .jnz d) (target : Word) :
    OwnWrites i s (jumpTo target t) :=
  { h with ip := fun _ => hi.imp_right .inl }

theorem OwnWrites.emitted (h : OwnWrites i s t) (hi : i = .outNum ∨ i = .outChar) (bytes : List Byte) :
    OwnWrites i s { t with out := t.out ++ bytes } :=
  { h with out := ⟨h.out.1.trans (List.prefix_append _ _), fun _ => hi⟩ }

theorem OwnWrites.inputTaken (h : OwnWrites i s t) (hi : i = .inNum ∨ i = .inChar) (rest : List Word) :
    OwnWrites i s { t with input := rest, inPos := t.inPos + 1 } :=
  { h with input := fun _ => hi }

/-- A fault writes the status, and the rest is as the primitives before it left it (R214). -/
theorem OwnWrites.takeFault (h : OwnWrites i s t) {c : Cause} (hc : c ≠ .none) (info : Word) :
    OwnWrites i s (takeFault c info t) :=
  { h with status := .inr ⟨rfl, hc, h.kept.2.1, by simp [h.cfg]⟩ }

/-- An instruction held is as it was before its fetch (R171, R236). -/
theorem OwnWrites.holdAt (hi : i = .outNum ∨ i = .outChar ∨ i = .inNum ∨ i = .inChar) : OwnWrites i s (holdAt s) :=
  { OwnWrites.refl i s with ip := fun _ => .inr (.inr ⟨rfl, hi⟩) }

/-! ### Sequences -/

theorem Res.Own.bind {α β : Type} {r : Res α} {k : α → State → Res β} (hr : r.Own i s)
    (hk : ∀ v t, OwnWrites i s t → (k v t).Own i s) : (r.bind k).Own i s := by
  cases r with
  | ok v t => exact hk v t hr
  | raise => exact hr
  | hold => exact hr
  | stop => exact hr

/-- After a primitive that only reads, the sequence goes on in the same state. -/
theorem Res.Reads.bind {α β : Type} {r : Res α} {k : α → State → Res β} (hr : r.Reads i s t) (ht : OwnWrites i s t)
    (hk : ∀ v, r = .ok v t → (k v t).Own i s) : (r.bind k).Own i s := by
  cases r with
  | ok v u => obtain rfl : u = t := hr; exact hk v rfl
  | raise c info u => obtain ⟨hc, rfl⟩ := hr; exact ⟨hc, ht⟩
  | hold => exact hr.elim
  | stop => exact hr

/-! ### Each primitive -/

theorem checkBounds_reads (cap : Nat) (addr : Word) (n : Size) : (checkBounds cap addr n t).Reads i s t := by
  rcases checkBounds_cases cap addr n t with ⟨-, e⟩ | ⟨-, e⟩ <;> simp [e, Res.Reads]

theorem memRead_reads (addr : Word) (n : Size) : (memRead addr n t).Reads i s t := by
  rcases memRead_cases addr n t with ⟨-, e⟩ | ⟨-, e⟩ <;> simp [e, Res.Reads]

theorem frameAddr_reads (off : Word) : (frameAddr off t).Reads i s t := by
  rcases frameAddr_cases off t with ⟨-, -, e⟩ | ⟨-, e⟩ <;> simp [e, Res.Reads]

theorem peek_reads (k : Word) : (peek k t).Reads i s t := by
  rcases peek_cases k t with ⟨-, e⟩ | ⟨-, e⟩ <;> simp [e, Res.Reads]

theorem csRead_reads (ht : OwnWrites i s t) (hi : i = .ret ∨ ∃ n off, i = .loadFrame n off) (addr : Word) (n : Size) :
    (csRead addr n t).Reads i s t := by
  rcases csRead_cases addr n t with ⟨-, -, e⟩ | ⟨-, e⟩ | ⟨-, hf, -, e⟩ <;> rw [e]
  · exact rfl
  · exact ⟨by decide, rfl⟩
  · exact ⟨ht.cfg ▸ hf, hi, addr, rfl⟩

theorem pop_own (ht : OwnWrites i s t) (hm : MovesSp i) : (pop t).Own i s := by
  rcases pop_cases t with ⟨-, e⟩ | ⟨-, e⟩ <;> rw [e]
  · exact ht.popped hm
  · exact ⟨by decide, ht⟩

theorem push_own (ht : OwnWrites i s t) (hm : MovesSp i) (ha : WritesOs i s t.sp.toNat) :
    (push v t).Own i s := by
  rcases push_cases v t with ⟨-, e⟩ | ⟨-, e⟩ <;> rw [e]
  · exact ht.pushed hm ha v
  · exact ⟨by decide, ht⟩

theorem memWrite_own (ht : OwnWrites i s t) {addr : Word} {n : Size}
    (ha : ∀ x, addr.toNat ≤ x → x < addr.toNat + n.bytes → WritesMem i x) :
    (memWrite addr n v t).Own i s := by
  rcases memWrite_cases addr n v t with ⟨-, e⟩ | ⟨-, e⟩ <;> rw [e]
  · exact ht.setMem (by simpa using ha)
  · exact ⟨by decide, ht⟩

theorem csWrite_own (ht : OwnWrites i s t) {addr : Word} {n : Size}
    (ha : ∀ x, addr.toNat ≤ x → x < addr.toNat + n.bytes → MayWriteCs i s x) :
    (csWrite addr n v t).Own i s := by
  rcases csWrite_cases addr n v t with ⟨-, e⟩ | ⟨-, e⟩ <;> rw [e]
  · exact ht.csStored ha v
  · exact ⟨by decide, ht⟩

theorem emit_own (ht : OwnWrites i s t) (hi : i = .outNum ∨ i = .outChar) (bytes : List Byte) :
    (emit bytes t).Own i s := by
  rcases emit_cases bytes t with ⟨-, e⟩ | ⟨-, e⟩ <;> rw [e]
  · exact ht.emitted hi bytes
  · exact hi.imp_right .inl

/-- The two operands are popped before the operator runs on them. -/
theorem binary_own {f : Word → Word → State → Res Unit} (hm : MovesSp i)
    (hf : 2 ≤ s.sp.toNat → ∀ a b, (f a b { s with sp := s.sp - 2#64 }).Own i s) : (binary f s).Own i s := by
  obtain h0 | h1 | h2 : s.sp.toNat = 0 ∨ s.sp.toNat = 1 ∨ 2 ≤ s.sp.toNat := by omega
  · rw [binary_of_zero f h0]
    exact ⟨by decide, .refl i s⟩
  · rw [binary_of_one f h1]
    exact ⟨by decide, (OwnWrites.refl i s).setSp hm _⟩
  · rw [binary_of_two f h2]
    exact hf h2 _ _

/-- The operand is popped before the operator runs on it. -/
theorem unary_own {f : Word → State → Res Unit} (hf : 1 ≤ s.sp.toNat → ∀ v, (f v (popped s)).Own i s) :
    (unary f s).Own i s := by
  obtain h0 | h1 : s.sp.toNat = 0 ∨ 1 ≤ s.sp.toNat := by omega
  · rw [unary_of_zero f h0]
    exact ⟨by decide, .refl i s⟩
  · rw [unary_of_pos f h1]
    exact hf h1 _

end

/-! ### The families of instructions -/

section
variable {i : Instr} {s : State} {v : Word}

/-- What an operator on two operands may do with them: push a result, or raise a fault of its own. -/
def PushesOrRaises (r : Res Unit) (t : State) : Prop :=
  (∃ v, r = push v t) ∨ ∃ c info, c ≠ .none ∧ r = .raise c info t

theorem divideWith_pushesOrRaises (f : Word → Word → Word) (a b : Word) (t : State) :
    PushesOrRaises (divideWith f a b t) t := by
  by_cases h : b = 0#64
  · exact .inr ⟨_, _, by decide, if_pos h⟩
  · exact .inl ⟨_, if_neg h⟩

theorem shiftWith_pushesOrRaises (f : Word → Nat → Word) (a b : Word) (t : State) :
    PushesOrRaises (shiftWith f a b t) t := by
  by_cases h : b.toNat ≥ 64
  · exact .inr ⟨_, _, by decide, if_pos h⟩
  · exact .inl ⟨_, if_neg h⟩

/-- An operator on two operands puts its result where the left one was. -/
theorem binaryOperator_own {f : Word → Word → State → Res Unit} (hf : ∀ a b t, PushesOrRaises (f a b t) t)
    (hm : MovesSp i) (ha : WritesOs i s (s.sp.toNat - 2)) : (binary f s).Own i s := by
  refine binary_own hm fun h a b => ?_
  have ht : OwnWrites i s { s with sp := s.sp - 2#64 } := (OwnWrites.refl i s).setSp hm _
  rcases hf a b { s with sp := s.sp - 2#64 } with ⟨v, e⟩ | ⟨c, info, hc, e⟩ <;> rw [e]
  · exact push_own ht hm (by rwa [toNat_sub_of_le (by simpa using h)])
  · exact ⟨hc, ht⟩

/-- An operator on one operand puts its result in its place. -/
theorem unaryPush_own (f : Word → Word) (hm : MovesSp i) (ha : WritesOs i s (s.sp.toNat - 1)) :
    (unaryPush f s).Own i s :=
  unary_own fun h _ => push_own ((OwnWrites.refl i s).popped hm) hm
    (by rwa [popped_sp, toNat_sub_of_le (by simpa using h)])

theorem output_own (f : Word → State → List Byte) (hi : i = .outNum ∨ i = .outChar) (hm : MovesSp i) :
    (unary (fun v s => emit (f v s) s) s).Own i s :=
  unary_own fun _ _ => emit_own ((OwnWrites.refl i s).popped hm) hi _

theorem input_own (hi : i = .inNum ∨ i = .inChar) (hm : MovesSp i) (ha : WritesOs i s s.sp.toNat) :
    ((takeInput s).bind push).Own i s := by
  rcases takeInput_cases s with ⟨v, rest, -, e⟩ | ⟨-, e⟩ <;> rw [e]
  · exact push_own ((OwnWrites.refl i s).inputTaken hi rest) hm ha
  · exact .inr (.inr hi)

/-- A conditional jump pops its condition, whether it jumps or not. -/
theorem branch_own (p : Word → Prop) [DecidablePred p] (target : Word) (hi : i = .jz target ∨ i = .jnz target)
    (hm : MovesSp i) :
    (unary (fun c s => .ok () (if p c then jumpTo target s else s)) s).Own i s := by
  refine unary_own fun _ c => ?_
  have hp : OwnWrites i s (popped s) := (OwnWrites.refl i s).popped hm
  change OwnWrites i s (if p c then jumpTo target (popped s) else popped s)
  split
  · exact hp.jumpTo (.inr ⟨target, .inr (.inr hi)⟩) target
  · exact hp

theorem swapTop_own (k : Word) : (swapTop k s).Own (.swap k) s := by
  rcases swapTop_cases k s with ⟨hk, e⟩ | ⟨-, e⟩ <;> rw [e]
  · have h1 : (s.sp - 1#64).toNat = s.sp.toNat - 1 := by bv_omega
    have hk' : (s.sp - 1#64 - k).toNat = s.sp.toNat - 1 - k.toNat := by bv_omega
    exact ((OwnWrites.refl (.swap k) s).setOs (Or.inl h1) _).setOs (Or.inr hk') _
  · exact ⟨by decide, .refl _ s⟩

theorem store_own (n : Size) (addr : Word) :
    ((checkBounds s.cfg.memCap addr n s).bind fun _ s => (pop s).bind fun v s => memWrite addr n v s).Own
      (.store n addr) s :=
  (checkBounds_reads _ addr n).bind (.refl _ s) fun _ _ =>
    (pop_own (.refl _ s) (by simp [MovesSp])).bind fun v _ ht =>
      memWrite_own ht fun _ hx hx' => ⟨n, addr, rfl, hx, hx'⟩

theorem loadFrame_own (n : Size) (off : Word) :
    ((frameAddr off s).bind fun ea s => (csRead ea n s).bind push).Own (.loadFrame n off) s := by
  refine (frameAddr_reads off).bind (.refl _ s) fun ea _ => ?_
  refine (csRead_reads (.refl _ s) (.inr ⟨n, off, rfl⟩) ea n).bind (.refl _ s) fun v _ => ?_
  exact push_own (.refl _ s) (by simp [MovesSp]) rfl

theorem storeFrame_own (n : Size) (off : Word) :
    ((frameAddr off s).bind fun ea s => (checkBounds s.cfg.csCap ea n s).bind fun _ s =>
      (pop s).bind fun v s => csWrite ea n v s).Own (.storeFrame n off) s := by
  rcases frameAddr_cases off s with ⟨-, hea, e⟩ | ⟨-, e⟩ <;> rw [e]
  · have hcs : ∀ x, (s.fp - off).toNat ≤ x → x < (s.fp - off).toNat + n.bytes → MayWriteCs (.storeFrame n off) s x :=
      fun x hx hx' _ => .inl ⟨n, off, rfl, hea ▸ hx, hea ▸ hx'⟩
    exact (checkBounds_reads _ _ n).bind (.refl _ s) fun _ _ =>
      (pop_own (.refl _ s) (by simp [MovesSp])).bind fun v _ ht => csWrite_own ht hcs
  · exact ⟨by decide, .refl _ s⟩

/-! ### CALL and RETURN -/

/-- A write at an address given in the natural numbers, which is below 2^64 where the parameters are in range. -/
theorem csWrite_ofNat_own {t : State} (ht : OwnWrites i s t) {a : Nat} (hlt : s.cfg.wf = true → a < 2 ^ 64)
    (ha : ∀ x, a ≤ x → x < a + 8 → MayWriteCs i s x) :
    (csWrite (BitVec.ofNat 64 a) .s8 v t).Own i s := by
  refine csWrite_own ht fun x hx hx' hwf => ?_
  rw [BitVec.toNat_ofNat, Nat.mod_eq_of_lt (hlt hwf)] at hx hx'
  exact ha x hx hx' hwf

theorem popArgs_own {t : State} (ht : OwnWrites i s t) (hm : MovesSp i) {base k : Nat}
    (hlt : s.cfg.wf = true → base + 8 * k < 2 ^ 64) (ha : ∀ x, base ≤ x → x < base + 8 * k → MayWriteCs i s x) :
    (popArgs base k t).Own i s := by
  induction k generalizing t with
  | zero => exact ht
  | succ k ih =>
    exact (pop_own ht hm).bind fun v t ht =>
      (csWrite_ofNat_own ht (fun hwf => by have := hlt hwf; omega) fun x hx hx' => ha x (by omega) (by omega)).bind
        fun _ t ht => ih ht (fun hwf => by have := hlt hwf; omega) fun x hx hx' => ha x hx (by omega)

/-- The ranges of R9 keep the Call Stack's addresses in a Word. -/
theorem csCap_lt_of_wf {p : Params} (h : p.wf = true) : p.csCap < 2 ^ 64 := by
  simp only [Params.wf, Bool.and_eq_true, decide_eq_true_eq] at h
  exact h.1.1.2.2

theorem memCap_lt_of_wf {p : Params} (h : p.wf = true) : p.memCap < 2 ^ 64 := by
  simp only [Params.wf, Bool.and_eq_true, decide_eq_true_eq] at h
  exact h.1.1.1.1.2

/-- PushFrame writes the frame at fp but for its locals (R192). -/
theorem pushFrame_own {d n l : Word} (ha : ∀ x, InFrameFields s.fp.toNat n l x → MayWriteCs (.call d) s x) (r : Word) :
    (pushFrame n l r s).Own (.call d) s := by
  have hm : MovesSp (.call d) := by simp [MovesSp]
  simp only [InFrameFields, frameBytes, InLocals] at ha
  unfold pushFrame frameSize
  dsimp only
  split
  · exact ⟨by decide, .refl _ s⟩
  next hfit =>
    have hlt : s.cfg.wf = true → s.fp.toNat + (8 * n.toNat + l.toNat + 24) < 2 ^ 64 := fun hwf => by
      have := csCap_lt_of_wf hwf; omega
    exact (popArgs_own (.refl _ s) hm (fun hwf => by have := hlt hwf; omega)
        fun x hx hx' => ha x (by omega)).bind fun _ _ ht =>
      (csWrite_ofNat_own ht (fun hwf => by have := hlt hwf; omega) fun x hx hx' => ha x (by omega)).bind fun _ _ ht =>
      (csWrite_ofNat_own ht (fun hwf => by have := hlt hwf; omega) fun x hx hx' => ha x (by omega)).bind fun _ _ ht =>
      (csWrite_ofNat_own ht (fun hwf => by have := hlt hwf; omega) fun x hx hx' => ha x (by omega)).bind fun _ _ ht =>
      ht.setFp (.inr ⟨d, rfl⟩) _

/-- The three Words CALL reads are its descriptor's (R191). -/
theorem descriptorAt_of_memRead {d n l c : Word} {t u v : State} (hwf : s.cfg.wf = true)
    (hn : memRead d .s8 s = .ok n t) (hl : memRead (d + 8#64) .s8 s = .ok l u)
    (hc : memRead (d + 16#64) .s8 s = .ok c v) : DescriptorAt s d n l c := by
  obtain ⟨hdn, hwn⟩ := wordAt_of_memRead hn
  obtain ⟨hdl, hwl⟩ := wordAt_of_memRead hl
  obtain ⟨-, hwc⟩ := wordAt_of_memRead hc
  have hcap := memCap_lt_of_wf hwf
  have h8 : (d + 8#64).toNat = d.toNat + 8 := toNat_add_of_lt (by omega)
  rw [h8] at hdl hwl
  rw [toNat_add_of_lt (n := 16) (by omega)] at hwc
  exact ⟨hwn, hwl, hwc⟩

theorem call_own (d : Word) :
    ((memRead d .s8 s).bind fun n s => (memRead (d + 8#64) .s8 s).bind fun l s =>
      (memRead (d + 16#64) .s8 s).bind fun c s => (pushFrame n l s.ip s).bind fun _ s => .ok () (jumpTo c s)).Own
        (.call d) s :=
  (memRead_reads d .s8).bind (.refl _ s) fun n hn => (memRead_reads _ .s8).bind (.refl _ s) fun l hl =>
    (memRead_reads _ .s8).bind (.refl _ s) fun c hc =>
      (pushFrame_own (fun _ hx hwf => .inr ⟨d, n, l, c, rfl, descriptorAt_of_memRead hwf hn hl hc, hx⟩) _).bind
        fun _ _ ht => ht.jumpTo (.inr ⟨d, .inl rfl⟩) c

theorem popFrame_own : (popFrame s).Own .ret s := by
  have hread := fun a => csRead_reads (.refl .ret s) (.inl rfl) a .s8
  have hunder : Cause.callStackUnderflow ≠ .none := by decide
  unfold popFrame
  split
  · exact ⟨hunder, .refl _ s⟩
  refine (hread _).bind (.refl _ s) fun r _ => ?_
  split
  · exact ⟨hunder, .refl _ s⟩
  refine (hread _).bind (.refl _ s) fun l _ => ?_
  split
  · exact ⟨hunder, .refl _ s⟩
  refine (hread _).bind (.refl _ s) fun n _ => ?_
  split
  · exact ⟨hunder, .refl _ s⟩
  · exact (OwnWrites.refl _ s).setFp (.inl rfl) _

theorem ret_own : ((popFrame s).bind fun r s => .ok () (jumpTo r s)).Own .ret s :=
  popFrame_own.bind fun r _ ht => ht.jumpTo (.inl rfl) r

theorem popRes_own :
    (unary (fun v s => .ok () (haltWith (adoptedState s.cfg.stateOrdinals v) s)) s).Own .popRes s :=
  unary_own fun _ _ =>
    { (OwnWrites.refl .popRes s).popped (by simp [MovesSp]) with
      status := .inl ⟨rfl, rfl, rfl, rfl, rfl, .inr (.inr rfl)⟩ }

/-- Every instruction ends a sequence of primitives that writes only what is its own. -/
theorem exec_own (i : Instr) (s : State) : ∃ r : Res Unit, exec i s = finish s r ∧ r.Own i s := by
  cases i
  case done =>
    exact ⟨.ok () _, rfl, { OwnWrites.refl .done s with
      status := .inl ⟨rfl, rfl, rfl, rfl, rfl, .inr (.inl ⟨rfl, rfl⟩)⟩ }⟩
  case abort => exact ⟨.raise .abort 0#64 s, rfl, by decide, .refl _ s⟩
  case jmp target => exact ⟨.ok () _, rfl, (OwnWrites.refl _ s).jumpTo (.inr ⟨target, .inr (.inl rfl)⟩) target⟩
  all_goals refine ⟨_, rfl, ?_⟩
  case popRes => exact popRes_own
  case loadConst n imm => exact push_own (.refl _ s) (by simp [MovesSp]) rfl
  case load n addr =>
    refine (memRead_reads addr n).bind (.refl _ s) fun v _ => ?_
    exact push_own (.refl _ s) (by simp [MovesSp]) rfl
  case store n addr => exact store_own n addr
  case loadFrame n off => exact loadFrame_own n off
  case storeFrame n off => exact storeFrame_own n off
  case pop => exact unary_own fun _ _ => (OwnWrites.refl _ s).popped (by simp [MovesSp])
  case dup k =>
    refine (peek_reads k).bind (.refl _ s) fun v _ => ?_
    exact push_own (.refl _ s) (by simp [MovesSp]) rfl
  case swap k => exact swapTop_own k
  case add | sub | mul | bitAnd | bitOr | bitXor | cmpEq | cmpNe | cmpLt | cmpLe | cmpGt | cmpGe =>
    exact binaryOperator_own (fun _ _ _ => .inl ⟨_, rfl⟩) (by simp [MovesSp]) rfl
  case div | mod => exact binaryOperator_own (divideWith_pushesOrRaises _) (by simp [MovesSp]) rfl
  case shl | shr => exact binaryOperator_own (shiftWith_pushesOrRaises _) (by simp [MovesSp]) rfl
  case neg | bitNot => exact unaryPush_own _ (by simp [MovesSp]) rfl
  case outNum => exact output_own _ (.inl rfl) (by simp [MovesSp])
  case outChar => exact output_own (fun v _ => [v.truncate 8]) (.inr rfl) (by simp [MovesSp])
  case inNum => exact input_own (.inl rfl) (by simp [MovesSp]) rfl
  case inChar => exact input_own (.inr rfl) (by simp [MovesSp]) rfl
  case jz target => exact branch_own _ target (.inl rfl) (by simp [MovesSp])
  case jnz target => exact branch_own _ target (.inr rfl) (by simp [MovesSp])
  case call d => exact call_own d
  case ret => exact ret_own

end

/-- What exec answers: a state that differs only in what the instruction may write, or the stop. -/
theorem exec_cases (i : Instr) (s : State) :
    (∃ t, exec i s = .next t ∧ OwnWrites i s t) ∨ ∃ f, exec i s = .fault f ∧ MayStop i s f := by
  obtain ⟨r, e, hr⟩ := exec_own i s
  rw [e]
  cases r with
  | ok _ t => exact .inl ⟨t, rfl, hr⟩
  | raise c info t => exact .inl ⟨_, rfl, hr.2.takeFault hr.1 info⟩
  | hold => exact .inl ⟨_, rfl, .holdAt hr⟩
  | stop f => exact .inr ⟨f, rfl, hr⟩

/-- Settles O49: each primitive an instruction runs keeps OwnWrites, and so do the fault entry and the hold. -/
theorem instructionsWriteOnlyTheirOwn : Obligations.InstructionsWriteOnlyTheirOwn := by
  intro i s hwf
  rcases exec_cases i s with ⟨t, e, h⟩ | ⟨f, e, hf, hi, a, rfl⟩ <;> rw [e]
  · refine ⟨.inl ⟨t, rfl⟩, fun u hu => ?_⟩
    obtain rfl : t = u := Host.Outcome.next.inj hu
    exact ⟨h.kept, h.mem, h.os, fun x hx => h.cs x hx hwf, fun x hx => h.csWritten x hx hwf, h.fp, h.ip, h.sp, h.out,
      h.input, h.status⟩
  · exact ⟨.inr ⟨hf, hi, a, rfl⟩, fun u hu => nomatch hu⟩

end Sys2Proof.Machine
end

section
/-! Reads of a Call Stack byte never written (00_scope.md R9, CS_UNWRITTEN_READ; D39). -/

namespace Sys2Proof.Machine

open Sys2Proof.Claims

/-! ### The read -/

theorem readable_iff (s : State) (a n : Nat) :
    Readable s a n ↔ s.cfg.csUnwrittenRead = .content ∨ allWritten s a n = true := by
  rw [Readable, allWritten_iff]

section
variable {s : State} {addr : Word} {n : Size}

theorem csRead_of_unreadable (hcap : addr.toNat + n.bytes ≤ s.cfg.csCap) (h : ¬Readable s addr.toNat n.bytes) :
    csRead addr n s = .stop (.unwrittenCallStackRead addr) := by
  rcases csRead_cases addr n s with ⟨-, hr, -⟩ | ⟨hgt, -⟩ | ⟨-, -, -, e⟩
  · exact absurd ((readable_iff _ _ _).mpr hr) h
  · omega
  · exact e

theorem csRead_of_readable (hcap : addr.toNat + n.bytes ≤ s.cfg.csCap) (h : Readable s addr.toNat n.bytes) :
    csRead addr n s = .ok (wordOfBytes s.cfg.byteOrder (cellsRead s.cs addr.toNat n.bytes)) s := by
  rcases csRead_cases addr n s with ⟨-, -, e⟩ | ⟨hgt, -⟩ | ⟨-, hf, hw, -⟩
  · exact e
  · omega
  · simp [readable_iff, hf, hw] at h

/-- A readable Word of the Call Stack is the one its 8 bytes hold. -/
theorem csRead_of_wordAt {l : Word} (hcap : addr.toNat + 8 ≤ s.cfg.csCap) (h : Readable s addr.toNat 8)
    (hl : WordAt s.cfg.byteOrder s.cs addr.toNat l) : csRead addr .s8 s = .ok l s := by
  rw [csRead_of_readable hcap h, ← (wordAt_iff _ _ _ _).mp hl]
  rfl

end

/-! ### LOAD_FRAME and RETURN -/

theorem exec_loadFrame_of_unreadable {s : State} {n : Size} {off : Word} (hoff : off.toNat ≤ s.fp.toNat)
    (hcap : s.fp.toNat - off.toNat + n.bytes ≤ s.cfg.csCap) (h : ¬Readable s (s.fp.toNat - off.toNat) n.bytes) :
    exec (.loadFrame n off) s = .fault (.unwrittenCallStackRead (s.fp - off)) := by
  rcases frameAddr_cases off s with ⟨-, hea, e⟩ | ⟨hgt, -⟩
  · rw [← hea] at hcap h
    rw [exec, execLoadFrame, e, Res.bind_ok, csRead_of_unreadable hcap h, Res.bind_stop, finish_stop]
  · omega

theorem exec_ret_of_popFrame_stop {s : State} {f : Fault} (h : popFrame s = .stop f) : exec .ret s = .fault f := by
  rw [exec, execRet, h, Res.bind_stop, finish_stop]

section
variable {s : State} (hcap : s.fp.toNat ≤ s.cfg.csCap)
include hcap

theorem popFrame_of_unreadable_return_address (h8 : 8 ≤ s.fp.toNat) (h : ¬Readable s (s.fp.toNat - 8) 8) :
    popFrame s = .stop (.unwrittenCallStackRead (s.fp - 8#64)) := by
  have e8 : (s.fp - 8#64).toNat = s.fp.toNat - 8 := toNat_sub_of_le h8
  rw [popFrame, if_neg (by omega), csRead_of_unreadable (by rw [e8, Size.bytes]; omega) (by rwa [e8]), Res.bind_stop]

theorem popFrame_of_unreadable_local_size (h16 : 16 ≤ s.fp.toNat) (hr : Readable s (s.fp.toNat - 8) 8)
    (h : ¬Readable s (s.fp.toNat - 16) 8) : popFrame s = .stop (.unwrittenCallStackRead (s.fp - 16#64)) := by
  have e8 : (s.fp - 8#64).toNat = s.fp.toNat - 8 := toNat_sub_of_le (by simp; omega)
  have e16 : (s.fp - 16#64).toNat = s.fp.toNat - 16 := toNat_sub_of_le h16
  rw [popFrame, if_neg (by omega), csRead_of_readable (by rw [e8, Size.bytes]; omega) (by rwa [e8]), Res.bind_ok,
    if_neg (by omega), csRead_of_unreadable (by rw [e16, Size.bytes]; omega) (by rwa [e16]), Res.bind_stop]

theorem popFrame_of_unreadable_arg_num {l : Word} (hr : Readable s (s.fp.toNat - 8) 8)
    (hlr : Readable s (s.fp.toNat - 16) 8) (hl : WordAt s.cfg.byteOrder s.cs (s.fp.toNat - 16) l)
    (h24 : 24 + l.toNat ≤ s.fp.toNat) (h : ¬Readable s (s.fp.toNat - 24 - l.toNat) 8) :
    popFrame s = .stop (.unwrittenCallStackRead (s.fp - 24#64 - l)) := by
  have e8 : (s.fp - 8#64).toNat = s.fp.toNat - 8 := toNat_sub_of_le (by simp; omega)
  have e16 : (s.fp - 16#64).toNat = s.fp.toNat - 16 := toNat_sub_of_le (by simp; omega)
  have e24 : (s.fp - 24#64 - l).toNat = s.fp.toNat - 24 - l.toNat := by bv_omega
  rw [popFrame, if_neg (by omega), csRead_of_readable (by rw [e8, Size.bytes]; omega) (by rwa [e8]), Res.bind_ok,
    if_neg (by omega), csRead_of_wordAt (by omega) (by rwa [e16]) (by rwa [e16]), Res.bind_ok, if_neg (by omega),
    csRead_of_unreadable (by rw [e24, Size.bytes]; omega) (by rwa [e24]), Res.bind_stop]

end

/-- Where a never-written byte reads as the content it has, every instruction answers a next state. -/
theorem exec_next_of_content (i : Instr) {s : State} (h : s.cfg.csUnwrittenRead = .content) :
    ∃ t, exec i s = .next t := by
  rcases exec_cases i s with ⟨t, e, -⟩ | ⟨f, -, hf, -⟩
  · exact ⟨t, e⟩
  · simp [h] at hf

/-- Settles O31: each read of the Call Stack is a csRead, which stops there, and only a stop ends the run
(exec_cases). -/
theorem unwrittenCallStackReads : Obligations.UnwrittenCallStackReads := by
  refine ⟨fun _ _ _ => csRead_of_unreadable, fun _ _ _ => exec_loadFrame_of_unreadable, fun s hcap h8 => ⟨?_, ?_⟩,
    fun i _ => exec_next_of_content i⟩
  · exact fun h => exec_ret_of_popFrame_stop (popFrame_of_unreadable_return_address hcap h8 h)
  · refine fun hr h16 => ⟨?_, ?_⟩
    · exact fun h => exec_ret_of_popFrame_stop (popFrame_of_unreadable_local_size hcap h16 hr h)
    · exact fun l hlr hl h24 h =>
        exec_ret_of_popFrame_stop (popFrame_of_unreadable_arg_num hcap hr hlr hl h24 h)

end Sys2Proof.Machine
end

section
/-! What a step of a running engine fetches is what the decoder reads from the bytes at ip (30_encoding.md R80, R82), and
what a stopped engine does. -/

namespace Sys2Proof.Machine

open Sys2Proof.Claims

variable {s : State}

/-- The fetch that goes with each answer of the decoder: ip is left behind the bytes read (R80, R82, R89). -/
def fetchResult (s : State) : DecodeResult → Res Instr
  | .ok i rest =>
    .ok i { s with faultAddr := s.ip, ip := s.ip + BitVec.ofNat 64 ((bytesAtIp s).length - rest.length) }
  | .unknownOpcode op => .raise .unknownOpcode (op.setWidth 64) { s with faultAddr := s.ip, ip := s.ip + 1#64 }
  | .noOpcode => .raise .outOfBounds s.ip { s with faultAddr := s.ip }
  | .truncated _ => .raise .outOfBounds (s.ip + 1#64) { s with faultAddr := s.ip, ip := s.ip + 1#64 }

theorem bytesAtIp_of_beyond (h : s.cfg.memCap ≤ s.ip.toNat) : bytesAtIp s = [] := by
  rw [bytesAtIp, Nat.sub_eq_zero_of_le h, Nat.min_zero, cellsRead]

theorem bytesAtIp_of_within (h : s.ip.toNat < s.cfg.memCap) :
    bytesAtIp s =
      cellGet s.mem s.ip.toNat :: cellsRead s.mem (s.ip.toNat + 1) (min 8 (s.cfg.memCap - (s.ip.toNat + 1))) := by
  have hlen : min 9 (s.cfg.memCap - s.ip.toNat) = min 8 (s.cfg.memCap - (s.ip.toNat + 1)) + 1 := by omega
  rw [bytesAtIp, hlen, cellsRead]

/-- The fetch reads one instruction from the bytes at ip, as the decoder does. -/
theorem fetchDecode_eq (hcap : s.cfg.memCap < 2 ^ 64) :
    fetchDecode s = fetchResult s (decode s.cfg (bytesAtIp s)) := by
  by_cases hip : s.ip.toNat < s.cfg.memCap
  case neg => rw [fetchDecode_of_beyond (by omega), bytesAtIp_of_beyond (by omega)]; rfl
  have hlen := congrArg List.length (bytesAtIp_of_within hip)
  rw [List.length_cons, cellsRead_length] at hlen
  rw [fetchDecode_of_within hip, bytesAtIp_of_within hip, decode]
  dsimp only
  cases lookupOpcode s.cfg.decodeTable (cellGet s.mem s.ip.toNat) with
  | none => rfl
  | some row =>
    dsimp only
    cases row.immSize with
    | none => simp [fetchResult, hlen]
    | some n =>
      have hn := n.bytes_le
      have hip1 : (s.ip + 1#64).toNat = s.ip.toNat + 1 := toNat_add_of_lt (by omega)
      rcases fetchImm_cases n { s with faultAddr := s.ip, ip := s.ip + 1#64 } with ⟨hle, e⟩ | ⟨hgt, e⟩ <;>
        dsimp only [hip1] at * <;> rw [e]
      · have hread : (bytesAtIp s).length - (min 8 (s.cfg.memCap - (s.ip.toNat + 1)) - n.bytes) = 1 + n.bytes := by omega
        have hadd : s.ip + 1#64 + BitVec.ofNat 64 n.bytes = s.ip + BitVec.ofNat 64 (1 + n.bytes) := by
          rw [BitVec.ofNat_add, BitVec.add_assoc]
        rw [if_neg (by rw [cellsRead_length]; omega), cellsRead_take _ _ (by omega), Res.bind_ok, fetchResult,
          List.length_drop, cellsRead_length, hread, ← hadd, hip1]
        rfl
      · rw [if_pos (by rw [cellsRead_length]; omega)]
        rfl

/-- A fetch reads an instruction the decoder finds at ip, or raises a fault; it writes FAULT_ADDR and ip. -/
theorem fetchDecode_cases (hcap : s.cfg.memCap < 2 ^ 64) :
    (∃ i rest a, decode s.cfg (bytesAtIp s) = .ok i rest ∧
      fetchDecode s = .ok i { s with faultAddr := s.ip, ip := a }) ∨
    ∃ c info a, c ≠ .none ∧ fetchDecode s = .raise c info { s with faultAddr := s.ip, ip := a } := by
  rw [fetchDecode_eq hcap]
  cases decode s.cfg (bytesAtIp s) with
  | ok i rest => exact .inl ⟨i, rest, _, rfl, rfl⟩
  | unknownOpcode op => exact .inr ⟨_, _, _, by decide, rfl⟩
  | noOpcode => exact .inr ⟨_, _, _, by decide, rfl⟩
  | truncated row => exact .inr ⟨_, _, _, by decide, rfl⟩

/-- A running engine executes an instruction the decoder finds at ip, or takes a fault of the fetch. -/
theorem step_running_cases (hcap : s.cfg.memCap < 2 ^ 64) (hr : s.runState = .running) :
    (∃ i rest a, decode s.cfg (bytesAtIp s) = .ok i rest ∧ step s = exec i { s with faultAddr := s.ip, ip := a }) ∨
    ∃ c info a, c ≠ .none ∧ step s = .next (takeFault c info { s with faultAddr := s.ip, ip := a }) := by
  rw [step_of_running hr]
  rcases fetchDecode_cases hcap with ⟨i, rest, a, hd, e⟩ | ⟨c, info, a, hc, e⟩ <;> rw [e]
  · exact .inl ⟨i, rest, a, hd, rfl⟩
  · exact .inr ⟨c, info, a, hc, rfl⟩

/-- A stopped engine carries out the host's next command, or keeps its state (R226). -/
theorem step_stopped_cases (h : s.runState ≠ .running) :
    (s.hostCmds = [] ∧ step s = .next s) ∨
      ∃ c rest, s.hostCmds = c :: rest ∧ step s = hostExec c { s with hostCmds := rest } := by
  cases hq : s.hostCmds with
  | nil => exact .inl ⟨rfl, by rw [step, if_neg h, stoppedStep, hq]⟩
  | cons c rest => exact .inr ⟨c, rest, rfl, step_of_command h hq⟩

end Sys2Proof.Machine
end

section
/-! The invariant of the reachable states (10_state.md R22, R23, R29; 00_scope.md R9), kept by every primitive. -/

namespace Sys2Proof.Machine

open Sys2Proof.Claims

/-- The registers and the marks of a construction are zero, its status is clear, and its buffers are those given. -/
theorem construct_inv {cfg : Params} {memInit csInit : Memory} (hcfg : cfg.wf = true) (hm : Memory.wf memInit = true)
    (hmb : cellsBelow cfg.memCap memInit = true) (hc : Memory.wf csInit = true)
    (hcb : cellsBelow cfg.csCap csInit = true) : StateInv (State.construct cfg memInit csInit) where
  cfgWf := hcfg
  memWf := hm
  memBelow := hmb
  csWf := hc
  csBelow := hcb
  writtenWf := rfl
  writtenBelow := rfl
  osWf := rfl
  osBelow := rfl
  spLe := Nat.zero_le _
  fpLe := Nat.zero_le _
  msgLe := Nat.zero_le _
  statusClear _ := ⟨rfl, rfl, rfl⟩

/-- Settles O8: the reset state is the construction at initialParams with no cell listed. -/
theorem constructionMeetsInvariant : Obligations.ConstructionMeetsInvariant :=
  ⟨construct_inv (by decide) rfl rfl rfl rfl, fun _ _ _ => construct_inv⟩

/-- The invariant, of a state at the parameters p: no primitive changes them (R231). -/
structure InvAt (p : Params) (s : State) : Prop extends StateInv s where
  cfgEq : s.cfg = p

/-- A sequence of primitives keeps the invariant and the parameters p, and a fault it raises has a cause. -/
def Res.KeepsInv {α : Type} (p : Params) : Res α → Prop
  | .ok _ t => InvAt p t
  | .raise c _ t => c ≠ .none ∧ InvAt p t
  | .hold | .stop _ => True

theorem Res.KeepsInv.bind {α β : Type} {p : Params} {r : Res α} {k : α → State → Res β} (hr : r.KeepsInv p)
    (hk : ∀ v t, InvAt p t → (k v t).KeepsInv p) : (r.bind k).KeepsInv p := by
  cases r with
  | ok v t => exact hk v t hr
  | raise => exact hr
  | hold => trivial
  | stop => trivial

theorem Res.Reads.keepsInv {α : Type} {p : Params} {i : Instr} {s t : State} {r : Res α} (hr : r.Reads i s t)
    (ht : InvAt p t) : r.KeepsInv p := by
  cases r with
  | ok v u => obtain rfl : u = t := hr; exact ht
  | raise c info u => obtain ⟨hc, rfl⟩ := hr; exact ⟨hc, ht⟩
  | hold => trivial
  | stop => trivial

/-- After a primitive that only reads, the sequence goes on in the same state. -/
theorem Res.Reads.bind_keepsInv {α β : Type} {p : Params} {i : Instr} {s t : State} {r : Res α}
    {k : α → State → Res β} (hr : r.Reads i s t) (ht : InvAt p t) (hk : ∀ v, (k v t).KeepsInv p) :
    (r.bind k).KeepsInv p := by
  cases r with
  | ok v u => obtain rfl : u = t := hr; exact hk v
  | raise => exact hr.keepsInv ht
  | hold => exact hr.elim
  | stop => trivial

/-! ### Each named update of the state -/

section
variable {p : Params} {s t : State} {v : Word}

theorem InvAt.popped (h : InvAt p s) (hs : s.sp ≠ 0#64) : InvAt p (popped s) :=
  { h with
    spLe := by
      have := h.spLe
      rw [popped_sp, toNat_sub_one hs, popped_cfg]
      omega }

theorem InvAt.setOs (h : InvAt p s) {a : Nat} (ha : a < s.cfg.osCap) (v : Word) :
    InvAt p { s with os := cellSet s.os a v } :=
  { h with osWf := cellSet_wf h.osWf _ _, osBelow := cellSet_below h.osBelow ha _ }

theorem InvAt.pushed (h : InvAt p s) (hs : s.sp.toNat < s.cfg.osCap) (v : Word) : InvAt p (pushed v s) :=
  { h.setOs hs v with
    spLe := by
      rw [pushed_sp, pushed_cfg, BitVec.toNat_add]
      exact (Nat.mod_le _ _).trans hs }

theorem InvAt.setMem (h : InvAt p s) {a : Nat} {bytes : List Byte} (ha : a + bytes.length ≤ s.cfg.memCap) :
    InvAt p { s with mem := cellsWrite s.mem a bytes } :=
  { h with memWf := cellsWrite_wf h.memWf _ _, memBelow := cellsWrite_below h.memBelow ha }

theorem InvAt.csStored (h : InvAt p s) {a : Nat} {n : Size} (ha : a + n.bytes ≤ s.cfg.csCap) (v : Word) :
    InvAt p (csStored a n v s) :=
  { h with
    csWf := cellsWrite_wf h.csWf _ _
    csBelow := cellsWrite_below h.csBelow (by simpa using ha)
    writtenWf := cellsWrite_wf h.writtenWf _ _
    writtenBelow := cellsWrite_below h.writtenBelow (by simpa using ha) }

theorem InvAt.jumpTo (h : InvAt p s) (target : Word) : InvAt p (jumpTo target s) := { h with }

theorem InvAt.setFp (h : InvAt p s) {fp : Word} (hfp : fp.toNat ≤ s.cfg.csCap) : InvAt p { s with fp := fp } :=
  { h with fpLe := hfp }

/-- A fault leaves a cause, and a text cut to MSG_CAP (R214, R29). -/
theorem InvAt.takeFault (h : InvAt p s) {c : Cause} (hc : c ≠ .none) (info : Word) :
    InvAt p (takeFault c info s) :=
  { h with
    msgLe := by simp
    statusClear := fun e => absurd e hc }

/-! ### Each primitive -/

-- Reads names the instruction that may end the run; a primitive that does not read the Call Stack never does, and any
-- instruction serves.
theorem checkBounds_keepsInv (h : InvAt p s) (cap : Nat) (addr : Word) (n : Size) :
    (checkBounds cap addr n s).KeepsInv p := (checkBounds_reads (i := .done) (s := s) cap addr n).keepsInv h

theorem memRead_keepsInv (h : InvAt p s) (addr : Word) (n : Size) : (memRead addr n s).KeepsInv p :=
  (memRead_reads (i := .done) (s := s) addr n).keepsInv h

theorem frameAddr_keepsInv (h : InvAt p s) (off : Word) : (frameAddr off s).KeepsInv p :=
  (frameAddr_reads (i := .done) (s := s) off).keepsInv h

theorem peek_keepsInv (h : InvAt p s) (k : Word) : (peek k s).KeepsInv p :=
  (peek_reads (i := .done) (s := s) k).keepsInv h

theorem csRead_keepsInv (h : InvAt p s) (addr : Word) (n : Size) : (csRead addr n s).KeepsInv p :=
  (csRead_reads (.refl .ret s) (.inl rfl) addr n).keepsInv h

theorem pop_keepsInv (h : InvAt p s) : (pop s).KeepsInv p := by
  rcases pop_cases s with ⟨hs, e⟩ | ⟨-, e⟩ <;> rw [e]
  · exact h.popped hs
  · exact ⟨by decide, h⟩

theorem push_keepsInv (h : InvAt p s) : (push v s).KeepsInv p := by
  rcases push_cases v s with ⟨hs, e⟩ | ⟨-, e⟩ <;> rw [e]
  · exact h.pushed (lt_of_le_of_ne h.spLe hs) v
  · exact ⟨by decide, h⟩

theorem swapTop_keepsInv (h : InvAt p s) (k : Word) : (swapTop k s).KeepsInv p := by
  rcases swapTop_cases k s with ⟨hk, e⟩ | ⟨-, e⟩ <;> rw [e]
  · have hsp := h.spLe
    have htop : (s.sp - 1#64).toNat < s.cfg.osCap := by bv_omega
    have hother : (s.sp - 1#64 - k).toNat < s.cfg.osCap := by bv_omega
    exact (h.setOs htop _).setOs hother _
  · exact ⟨by decide, h⟩

theorem memWrite_keepsInv (h : InvAt p s) (addr : Word) (n : Size) : (memWrite addr n v s).KeepsInv p := by
  rcases memWrite_cases addr n v s with ⟨hle, e⟩ | ⟨-, e⟩ <;> rw [e]
  · exact h.setMem (by simpa using hle)
  · exact ⟨by decide, h⟩

theorem csWrite_keepsInv (h : InvAt p s) (addr : Word) (n : Size) : (csWrite addr n v s).KeepsInv p := by
  rcases csWrite_cases addr n v s with ⟨hle, e⟩ | ⟨-, e⟩ <;> rw [e]
  · exact h.csStored hle v
  · exact ⟨by decide, h⟩

theorem emit_keepsInv (h : InvAt p s) (bytes : List Byte) : (emit bytes s).KeepsInv p := by
  rcases emit_cases bytes s with ⟨-, e⟩ | ⟨-, e⟩ <;> rw [e]
  · exact { h with }
  · trivial

theorem takeInput_keepsInv (h : InvAt p s) : (takeInput s).KeepsInv p := by
  rcases takeInput_cases s with ⟨w, rest, -, e⟩ | ⟨-, e⟩ <;> rw [e]
  · exact { h with }
  · trivial

theorem PushesOrRaises.keepsInv {r : Res Unit} (hr : PushesOrRaises r s) (h : InvAt p s) : r.KeepsInv p := by
  rcases hr with ⟨v, rfl⟩ | ⟨c, info, hc, rfl⟩
  · exact push_keepsInv h
  · exact ⟨hc, h⟩

theorem unary_keepsInv {f : Word → State → Res Unit} (h : InvAt p s)
    (hf : ∀ v t, InvAt p t → (f v t).KeepsInv p) : (unary f s).KeepsInv p := (pop_keepsInv h).bind hf

theorem binary_keepsInv {f : Word → Word → State → Res Unit} (h : InvAt p s)
    (hf : ∀ a b t, PushesOrRaises (f a b t) t) : (binary f s).KeepsInv p :=
  (pop_keepsInv h).bind fun b _ ht => (pop_keepsInv ht).bind fun a _ hu => (hf a b _).keepsInv hu

/-- A conditional jump keeps the invariant, whether it jumps or not. -/
theorem branch_keepsInv (h : InvAt p s) (b : Prop) [Decidable b] (target : Word) :
    (Res.ok () (if b then jumpTo target s else s)).KeepsInv p := by
  split
  · exact h.jumpTo target
  · exact h

/-! ### CALL and RETURN -/

theorem popArgs_keepsInv (h : InvAt p s) (base k : Nat) : (popArgs base k s).KeepsInv p := by
  induction k generalizing s with
  | zero => exact h
  | succ k ih => exact (pop_keepsInv h).bind fun _ _ ht => (csWrite_keepsInv ht _ _).bind fun _ _ hu => ih hu

/-- PushFrame leaves fp behind a frame that fits (R192). -/
theorem pushFrame_keepsInv (h : InvAt p s) (n l r : Word) : (pushFrame n l r s).KeepsInv p := by
  unfold pushFrame
  dsimp only
  split
  · exact ⟨by decide, h⟩
  next hfit =>
    rw [h.cfgEq] at hfit
    refine (popArgs_keepsInv h _ _).bind fun _ _ h => (csWrite_keepsInv h _ _).bind fun _ _ h =>
      (csWrite_keepsInv h _ _).bind fun _ _ h => (csWrite_keepsInv h _ _).bind fun _ t h => h.setFp ?_
    rw [h.cfgEq, BitVec.toNat_ofNat]
    exact (Nat.mod_le _ _).trans (by omega)

/-- PopFrame leaves fp at the base of a frame that lies below it (R196). -/
theorem popFrame_keepsInv (h : InvAt p s) : (popFrame s).KeepsInv p := by
  have hread := fun a => csRead_reads (.refl .ret s) (.inl rfl) a .s8
  have hunder : Cause.callStackUnderflow ≠ .none := by decide
  unfold popFrame
  split
  · exact ⟨hunder, h⟩
  refine (hread _).bind_keepsInv h fun r => ?_
  split
  · exact ⟨hunder, h⟩
  refine (hread _).bind_keepsInv h fun l => ?_
  split
  · exact ⟨hunder, h⟩
  refine (hread _).bind_keepsInv h fun n => ?_
  split
  · exact ⟨hunder, h⟩
  · have hfp := h.fpLe
    have hsub : (s.fp - 24#64 - l).toNat = s.fp.toNat - 24 - l.toNat := by bv_omega
    have hle : (8#64 * n).toNat ≤ (s.fp - 24#64 - l).toNat := by
      rw [hsub, BitVec.toNat_mul]
      exact (Nat.mod_le _ _).trans (by simp; omega)
    refine h.setFp ?_
    rw [toNat_sub_of_le hle]
    omega

/-- Every instruction ends a sequence of primitives that keeps the invariant. -/
theorem exec_keepsInv (h : InvAt p s) (i : Instr) : ∃ r : Res Unit, exec i s = finish s r ∧ r.KeepsInv p := by
  cases i
  case done => exact ⟨.ok () _, rfl, { h with }⟩
  case abort => exact ⟨.raise .abort 0#64 s, rfl, by decide, h⟩
  case jmp target => exact ⟨.ok () _, rfl, h.jumpTo target⟩
  all_goals refine ⟨_, rfl, ?_⟩
  case popRes => exact unary_keepsInv h fun _ _ ht => { ht with }
  case loadConst => exact push_keepsInv h
  case load n addr => exact (memRead_keepsInv h addr n).bind fun _ _ ht => push_keepsInv ht
  case store n addr =>
    exact (checkBounds_keepsInv h _ addr n).bind fun _ _ ht => (pop_keepsInv ht).bind fun _ _ hu =>
      memWrite_keepsInv hu addr n
  case loadFrame n off =>
    exact (frameAddr_keepsInv h off).bind fun ea _ ht => (csRead_keepsInv ht ea n).bind fun _ _ hu => push_keepsInv hu
  case storeFrame n off =>
    exact (frameAddr_keepsInv h off).bind fun ea _ ht => (checkBounds_keepsInv ht _ ea n).bind fun _ _ hu =>
      (pop_keepsInv hu).bind fun _ _ hv => csWrite_keepsInv hv ea n
  case pop => exact unary_keepsInv h fun _ _ ht => ht
  case dup k => exact (peek_keepsInv h k).bind fun _ _ ht => push_keepsInv ht
  case swap k => exact swapTop_keepsInv h k
  case add | sub | mul | bitAnd | bitOr | bitXor | cmpEq | cmpNe | cmpLt | cmpLe | cmpGt | cmpGe =>
    exact binary_keepsInv h fun _ _ _ => .inl ⟨_, rfl⟩
  case div | mod => exact binary_keepsInv h (divideWith_pushesOrRaises _)
  case shl | shr => exact binary_keepsInv h (shiftWith_pushesOrRaises _)
  case neg | bitNot => exact unary_keepsInv h fun _ _ ht => push_keepsInv ht
  case outNum | outChar => exact unary_keepsInv h fun _ _ ht => emit_keepsInv ht _
  case inNum | inChar => exact (takeInput_keepsInv h).bind fun _ _ ht => push_keepsInv ht
  case jz target | jnz target => exact unary_keepsInv h fun _ _ ht => branch_keepsInv ht _ target
  case call d =>
    exact (memRead_keepsInv h d .s8).bind fun n _ ht => (memRead_keepsInv ht _ .s8).bind fun l _ hu =>
      (memRead_keepsInv hu _ .s8).bind fun c t hv => (pushFrame_keepsInv hv n l t.ip).bind fun _ _ hw => hw.jumpTo c
  case ret => exact (popFrame_keepsInv h).bind fun r _ ht => ht.jumpTo r

/-! ### The step -/

/-- An instruction that ends, faults or is held leaves a state of the invariant. -/
theorem finish_keepsInv {r : Res Unit} (h : InvAt p s) (hr : r.KeepsInv p) (e : finish s r = .next t) : InvAt p t := by
  cases r with
  | ok _ u => obtain rfl : u = t := Host.Outcome.next.inj e; exact hr
  | raise c info u => obtain rfl : takeFault c info u = t := Host.Outcome.next.inj e; exact hr.2.takeFault hr.1 info
  | hold => obtain rfl : holdAt s = t := Host.Outcome.next.inj e; exact { h with }
  | stop => exact nomatch e

theorem hostLoad_inv (h : StateInv s) (program : List Byte) : StateInv (hostLoad program s) := by
  unfold hostLoad
  split
  · exact { h with }
  next hfit =>
    exact { h with
      memWf := cellsWrite_wf h.memWf _ _
      memBelow := cellsWrite_below h.memBelow (by omega)
      spLe := Nat.zero_le _
      fpLe := Nat.zero_le _
      msgLe := Nat.zero_le _
      statusClear := fun _ => ⟨rfl, rfl, rfl⟩ }

theorem hostExec_inv (h : StateInv s) (c : HostCmd) (e : hostExec c s = .next t) : StateInv t := by
  cases c with
  | teardown => exact nomatch e
  | load program => obtain rfl := Host.Outcome.next.inj e; exact hostLoad_inv h program
  | clear => obtain rfl := Host.Outcome.next.inj e; exact { h with memWf := rfl, memBelow := rfl }
  | run | status | regs => obtain rfl := Host.Outcome.next.inj e; exact { h with }

end

/-- Settles O9: a running engine's fetch writes ip and the latch, and its instruction keeps the invariant; so does each
command of the host. -/
theorem stepKeepsInvariant : Obligations.StepKeepsInvariant := by
  intro s t h e
  by_cases hr : s.runState = .running
  · rcases step_running_cases (memCap_lt_of_wf h.cfgWf) hr with ⟨i, rest, a, -, hs⟩ | ⟨c, info, a, hc, hs⟩ <;>
      rw [hs] at e
    all_goals have hf : InvAt s.cfg { s with faultAddr := s.ip, ip := a } := { h with cfgEq := rfl }
    · obtain ⟨r, hexec, hkeeps⟩ := exec_keepsInv hf i
      exact (finish_keepsInv hf hkeeps (hexec.symm.trans e)).toStateInv
    · obtain rfl := Host.Outcome.next.inj e
      exact (hf.takeFault hc info).toStateInv
  · rcases step_stopped_cases hr with ⟨-, hs⟩ | ⟨c, rest, -, hs⟩ <;> rw [hs] at e
    · obtain rfl := Host.Outcome.next.inj e
      exact h
    · have hq : StateInv { s with hostCmds := rest } := { h with }
      exact hostExec_inv hq c e

end Sys2Proof.Machine
end

section
/-! The Operand Stack cells at and above sp are unobservable (10_state.md R33): every primitive, run from two states that
differ in such cells alone, answers alike. -/

namespace Sys2Proof.Machine

open Sys2Proof.Claims

/-- Two states that agree in everything but the Operand Stack cells at and above sp, and hold their cells in canonical
form. -/
structure Twins (s t : State) : Prop where
  agree : AgreeBelowSp s t
  wf : cellsWf s.os = true
  wf' : cellsWf t.os = true

/-- Two sequences of primitives end alike, in states that are twins. -/
inductive Res.Twins {α : Type} : Res α → Res α → Prop
  | ok {s t : State} (v : α) (h : Machine.Twins s t) : Res.Twins (.ok v s) (.ok v t)
  | raise {s t : State} (c : Cause) (info : Word) (h : Machine.Twins s t) :
      Res.Twins (.raise c info s) (.raise c info t)
  | hold : Res.Twins .hold .hold
  | stop (f : Fault) : Res.Twins (.stop f) (.stop f)

theorem Res.Twins.bind {α β : Type} {r r' : Res α} {k k' : α → State → Res β} (hr : r.Twins r')
    (hk : ∀ v s t, Machine.Twins s t → (k v s).Twins (k' v t)) : (r.bind k).Twins (r'.bind k') := by
  cases hr with
  | ok v h => exact hk v _ _ h
  | raise c info h => exact .raise c info h
  | hold => exact .hold
  | stop f => exact .stop f

section
variable {s t : State} {v : Word}

/-- A twin of s is s with other cells; so what reads neither the cells nor sp reads alike. -/
theorem Twins.exists_os (h : Twins s t) : ∃ o, t = { s with os := o } := ⟨t.os, h.agree.1⟩

/-! ### Each named update of the state -/

/-- An update that neither reads nor writes the cells, and leaves sp, keeps twins. -/
theorem Twins.map (h : Twins s t) (f : State → State) (hos : ∀ o, f { s with os := o } = { f s with os := o })
    (hsp : (f s).sp = s.sp) : Twins (f s) (f t) := by
  obtain ⟨o, rfl⟩ := h.exists_os
  have hkeep : (f s).os = s.os := (congrArg State.os (hos s.os) :)
  rw [hos o]
  exact ⟨⟨rfl, by rw [hsp, hkeep]; exact h.agree.2⟩, by rw [hkeep]; exact h.wf, h.wf'⟩

theorem Twins.popped (h : Twins s t) (hs : s.sp ≠ 0#64) : Twins (popped s) (popped t) := by
  obtain ⟨o, rfl⟩ := h.exists_os
  refine ⟨⟨rfl, fun i hi => h.agree.2 i ?_⟩, h.wf, h.wf'⟩
  rw [popped_sp, toNat_sub_one hs] at hi
  omega

/-- The cell pushed is the one cell that comes to lie below sp. -/
theorem Twins.pushed (h : Twins s t) (v : Word) : Twins (pushed v s) (pushed v t) := by
  obtain ⟨o, rfl⟩ := h.exists_os
  refine ⟨⟨rfl, fun i hi => ?_⟩, cellSet_wf h.wf _ _, cellSet_wf h.wf' _ _⟩
  rw [pushed_sp] at hi
  rw [pushed_os, pushed_os, cellGet_cellSet h.wf', cellGet_cellSet h.wf]
  split
  · rfl
  · exact h.agree.2 i (by bv_omega)

theorem Twins.setOs (h : Twins s t) (a : Nat) (v : Word) :
    Twins { s with os := cellSet s.os a v } { t with os := cellSet t.os a v } := by
  obtain ⟨o, rfl⟩ := h.exists_os
  refine ⟨⟨rfl, fun i hi => ?_⟩, cellSet_wf h.wf _ _, cellSet_wf h.wf' _ _⟩
  rw [cellGet_cellSet h.wf', cellGet_cellSet h.wf, h.agree.2 i hi]

theorem Twins.stackAt (h : Twins s t) {k : Word} (hk : k.toNat < s.sp.toNat) : stackAt t k = stackAt s k := by
  obtain ⟨o, rfl⟩ := h.exists_os
  rw [stackAt_eq hk, stackAt_eq (s := { s with os := o }) hk]
  exact h.agree.2 _ (by dsimp only; omega)

theorem Twins.csStored (h : Twins s t) (a : Nat) (n : Size) (v : Word) : Twins (csStored a n v s) (csStored a n v t) :=
  h.map (Machine.csStored a n v) (fun _ => rfl) rfl

theorem Twins.jumpTo (h : Twins s t) (target : Word) : Twins (jumpTo target s) (jumpTo target t) :=
  h.map (Machine.jumpTo target) (fun _ => rfl) rfl

theorem Twins.haltWith (h : Twins s t) (r : RunState) : Twins (haltWith r s) (haltWith r t) :=
  h.map (Machine.haltWith r) (fun _ => rfl) rfl

theorem Twins.takeFault (h : Twins s t) (c : Cause) (info : Word) : Twins (takeFault c info s) (takeFault c info t) :=
  h.map (Machine.takeFault c info) (fun _ => rfl) rfl

theorem Twins.holdAt (h : Twins s t) : Twins (holdAt s) (holdAt t) := h.map Machine.holdAt (fun _ => rfl) rfl

theorem Twins.setFp (h : Twins s t) (fp : Word) : Twins { s with fp := fp } { t with fp := fp } :=
  h.map (fun s => { s with fp := fp }) (fun _ => rfl) rfl

theorem Twins.answer (h : Twins s t) (r : HostReply) : Twins (answer r s) (answer r t) :=
  h.map (Machine.answer r) (fun _ => rfl) rfl

/-! ### Each primitive -/

theorem checkBounds_twins (h : Twins s t) (cap : Nat) (addr : Word) (n : Size) :
    (checkBounds cap addr n s).Twins (checkBounds cap addr n t) := by
  unfold checkBounds
  split
  · exact .raise _ _ h
  · exact .ok _ h

theorem memRead_twins (h : Twins s t) (addr : Word) (n : Size) : (memRead addr n s).Twins (memRead addr n t) := by
  obtain ⟨o, rfl⟩ := h.exists_os
  refine (checkBounds_twins h _ addr n).bind fun _ s t h => ?_
  obtain ⟨o, rfl⟩ := h.exists_os
  exact .ok _ h

theorem memWrite_twins (h : Twins s t) (addr : Word) (n : Size) (v : Word) :
    (memWrite addr n v s).Twins (memWrite addr n v t) := by
  obtain ⟨o, rfl⟩ := h.exists_os
  refine (checkBounds_twins h _ addr n).bind fun _ s t h => .ok _ ?_
  exact h.map (fun s => { s with mem := cellsWrite s.mem addr.toNat (bytesOfWord s.cfg.byteOrder n.bytes v) })
    (fun _ => rfl) rfl

theorem checkWritten_twins (h : Twins s t) (addr : Word) (n : Size) :
    (checkWritten addr n s).Twins (checkWritten addr n t) := by
  obtain ⟨o, rfl⟩ := h.exists_os
  have hw : allWritten { s with os := o } addr.toNat n.bytes = allWritten s addr.toNat n.bytes := rfl
  unfold checkWritten
  rw [hw]
  dsimp only
  split
  · exact .ok _ h
  · split
    · exact .ok _ h
    · exact .stop _

theorem csRead_twins (h : Twins s t) (addr : Word) (n : Size) : (csRead addr n s).Twins (csRead addr n t) := by
  obtain ⟨o, rfl⟩ := h.exists_os
  refine (checkBounds_twins h _ addr n).bind fun _ s t h => (checkWritten_twins h addr n).bind fun _ s t h => ?_
  obtain ⟨o, rfl⟩ := h.exists_os
  exact .ok _ h

theorem csWrite_twins (h : Twins s t) (addr : Word) (n : Size) (v : Word) :
    (csWrite addr n v s).Twins (csWrite addr n v t) := by
  obtain ⟨o, rfl⟩ := h.exists_os
  exact (checkBounds_twins h _ addr n).bind fun _ s t h => .ok _ (h.csStored _ n v)

theorem frameAddr_twins (h : Twins s t) (off : Word) : (frameAddr off s).Twins (frameAddr off t) := by
  obtain ⟨o, rfl⟩ := h.exists_os
  unfold frameAddr
  split
  · exact .raise _ _ h
  · exact .ok _ h

theorem pop_twins (h : Twins s t) : (pop s).Twins (pop t) := by
  have htop : s.sp ≠ 0#64 → stackAt t 0#64 = stackAt s 0#64 := fun hs => h.stackAt (by bv_omega)
  obtain ⟨o, rfl⟩ := h.exists_os
  unfold pop
  split
  · exact .raise _ _ h
  next hs =>
    rw [htop hs]
    exact .ok _ (h.popped hs)

theorem push_twins (h : Twins s t) (v : Word) : (push v s).Twins (push v t) := by
  obtain ⟨o, rfl⟩ := h.exists_os
  unfold push
  split
  · exact .raise _ _ h
  · exact .ok _ (h.pushed v)

theorem peek_twins (h : Twins s t) (k : Word) : (peek k s).Twins (peek k t) := by
  have hk := h.stackAt (k := k)
  obtain ⟨o, rfl⟩ := h.exists_os
  unfold peek
  split
  · exact .raise _ _ h
  · rw [hk (by omega)]
    exact .ok _ h

theorem swapTop_twins (h : Twins s t) (k : Word) : (swapTop k s).Twins (swapTop k t) := by
  have hread := fun k => h.stackAt (k := k)
  obtain ⟨o, rfl⟩ := h.exists_os
  unfold swapTop
  split
  · exact .raise _ _ h
  · rw [hread k (by omega), hread 0#64 (by simp; omega)]
    exact .ok _ ((h.setOs _ _).setOs _ _)

theorem emit_twins (h : Twins s t) (bytes : List Byte) : (emit bytes s).Twins (emit bytes t) := by
  obtain ⟨o, rfl⟩ := h.exists_os
  unfold emit
  split
  · exact .ok _ (h.map (fun s => { s with out := s.out ++ bytes }) (fun _ => rfl) rfl)
  · exact .hold

theorem takeInput_twins (h : Twins s t) : (takeInput s).Twins (takeInput t) := by
  obtain ⟨o, rfl⟩ := h.exists_os
  unfold takeInput
  dsimp only
  split
  · exact .hold
  next v rest _ => exact .ok v (h.map (fun s => { s with input := rest, inPos := s.inPos + 1 }) (fun _ => rfl) rfl)

theorem unary_twins {f : Word → State → Res Unit} (h : Twins s t)
    (hf : ∀ v s t, Twins s t → (f v s).Twins (f v t)) : (unary f s).Twins (unary f t) := (pop_twins h).bind hf

theorem binary_twins {f : Word → Word → State → Res Unit} (h : Twins s t)
    (hf : ∀ a b s t, Twins s t → (f a b s).Twins (f a b t)) : (binary f s).Twins (binary f t) :=
  (pop_twins h).bind fun b _ _ h => (pop_twins h).bind fun a _ _ h => hf a b _ _ h

theorem divideWith_twins (h : Twins s t) (f : Word → Word → Word) (a b : Word) :
    (divideWith f a b s).Twins (divideWith f a b t) := by
  unfold divideWith
  split
  · exact .raise _ _ h
  · exact push_twins h _

theorem shiftWith_twins (h : Twins s t) (f : Word → Nat → Word) (a b : Word) :
    (shiftWith f a b s).Twins (shiftWith f a b t) := by
  unfold shiftWith
  split
  · exact .raise _ _ h
  · exact push_twins h _

theorem branch_twins (h : Twins s t) (b : Prop) [Decidable b] (target : Word) :
    (Res.ok () (if b then jumpTo target s else s)).Twins (.ok () (if b then jumpTo target t else t)) := by
  split
  · exact .ok _ (h.jumpTo target)
  · exact .ok _ h

/-! ### CALL and RETURN -/

theorem popArgs_twins (h : Twins s t) (base k : Nat) : (popArgs base k s).Twins (popArgs base k t) := by
  induction k generalizing s t with
  | zero => exact .ok _ h
  | succ k ih => exact (pop_twins h).bind fun v _ _ h => (csWrite_twins h _ _ v).bind fun _ _ _ h => ih h

theorem pushFrame_twins (h : Twins s t) (n l r : Word) : (pushFrame n l r s).Twins (pushFrame n l r t) := by
  obtain ⟨o, rfl⟩ := h.exists_os
  unfold pushFrame
  dsimp only
  split
  · exact .raise _ _ h
  · exact (popArgs_twins h _ _).bind fun _ _ _ h => (csWrite_twins h _ _ _).bind fun _ _ _ h =>
      (csWrite_twins h _ _ _).bind fun _ _ _ h => (csWrite_twins h _ _ _).bind fun _ _ _ h => .ok _ (h.setFp _)

theorem popFrame_twins (h : Twins s t) : (popFrame s).Twins (popFrame t) := by
  obtain ⟨o, rfl⟩ := h.exists_os
  unfold popFrame
  dsimp only
  split
  · exact .raise _ _ h
  refine (csRead_twins h _ _).bind fun r s t h => ?_
  obtain ⟨o, rfl⟩ := h.exists_os
  dsimp only
  split
  · exact .raise _ _ h
  refine (csRead_twins h _ _).bind fun l s t h => ?_
  obtain ⟨o, rfl⟩ := h.exists_os
  dsimp only
  split
  · exact .raise _ _ h
  refine (csRead_twins h _ _).bind fun n s t h => ?_
  obtain ⟨o, rfl⟩ := h.exists_os
  dsimp only
  split
  · exact .raise _ _ h
  · exact .ok _ (h.setFp _)

/-- Every instruction ends, in twins, sequences of primitives that answer alike. -/
theorem exec_twins (h : Twins s t) (i : Instr) :
    ∃ r r' : Res Unit, exec i s = finish s r ∧ exec i t = finish t r' ∧ r.Twins r' := by
  cases i
  case done => exact ⟨_, _, rfl, rfl, .ok () (h.haltWith .haltSuccess)⟩
  case abort => exact ⟨_, _, rfl, rfl, .raise .abort 0#64 h⟩
  case jmp target => exact ⟨_, _, rfl, rfl, .ok () (h.jumpTo target)⟩
  all_goals refine ⟨_, _, rfl, rfl, ?_⟩
  case popRes =>
    refine unary_twins h fun v s t h => ?_
    obtain ⟨o, rfl⟩ := h.exists_os
    exact .ok _ (h.haltWith _)
  case loadConst => exact push_twins h _
  case load n addr => exact (memRead_twins h addr n).bind fun v _ _ h => push_twins h v
  case store n addr =>
    obtain ⟨o, rfl⟩ := h.exists_os
    exact (checkBounds_twins h _ addr n).bind fun _ _ _ h => (pop_twins h).bind fun v _ _ h => memWrite_twins h addr n v
  case loadFrame n off =>
    exact (frameAddr_twins h off).bind fun ea _ _ h => (csRead_twins h ea n).bind fun v _ _ h => push_twins h v
  case storeFrame n off =>
    refine (frameAddr_twins h off).bind fun ea s t h => ?_
    obtain ⟨o, rfl⟩ := h.exists_os
    exact (checkBounds_twins h _ ea n).bind fun _ _ _ h => (pop_twins h).bind fun v _ _ h => csWrite_twins h ea n v
  case pop => exact unary_twins h fun _ _ _ h => .ok _ h
  case dup k => exact (peek_twins h k).bind fun v _ _ h => push_twins h v
  case swap k => exact swapTop_twins h k
  case add | sub | mul | bitAnd | bitOr | bitXor | cmpEq | cmpNe | cmpLt | cmpLe | cmpGt | cmpGe =>
    exact binary_twins h fun _ _ _ _ h => push_twins h _
  case div | mod => exact binary_twins h fun a b _ _ h => divideWith_twins h _ a b
  case shl | shr => exact binary_twins h fun a b _ _ h => shiftWith_twins h _ a b
  case neg | bitNot => exact unary_twins h fun _ _ _ h => push_twins h _
  case outNum =>
    refine unary_twins h fun v s t h => ?_
    obtain ⟨o, rfl⟩ := h.exists_os
    exact emit_twins h _
  case outChar => exact unary_twins h fun _ _ _ h => emit_twins h _
  case inNum | inChar => exact (takeInput_twins h).bind fun v _ _ h => push_twins h v
  case jz target | jnz target => exact unary_twins h fun _ _ _ h => branch_twins h _ target
  case call d =>
    refine (memRead_twins h d .s8).bind fun n _ _ h => (memRead_twins h _ .s8).bind fun l _ _ h =>
      (memRead_twins h _ .s8).bind fun c s t h => ?_
    obtain ⟨o, rfl⟩ := h.exists_os
    exact (pushFrame_twins h n l s.ip).bind fun _ _ _ h => .ok _ (h.jumpTo c)
  case ret => exact (popFrame_twins h).bind fun r _ _ h => .ok _ (h.jumpTo r)

/-! ### The step -/

/-- Two steps end alike: in states that agree, or with the same stop. -/
def OutcomesAgree (o o' : Host.Outcome State Fault Refusal) : Prop :=
  (∃ s t : State, o = .next s ∧ o' = .next t ∧ AgreeBelowSp s t) ∨ ∃ f : Fault, o = .fault f ∧ o' = .fault f

theorem Twins.next (h : Twins s t) : OutcomesAgree (.next s) (.next t) := .inl ⟨s, t, rfl, rfl, h.agree⟩

theorem finish_agree {r r' : Res Unit} (h : Twins s t) (hr : r.Twins r') :
    OutcomesAgree (finish s r) (finish t r') := by
  cases hr with
  | ok _ h => exact h.next
  | raise c info h => exact (h.takeFault c info).next
  | hold => exact h.holdAt.next
  | stop f => exact .inr ⟨f, rfl, rfl⟩

theorem exec_agree (h : Twins s t) (i : Instr) : OutcomesAgree (exec i s) (exec i t) := by
  obtain ⟨r, r', e, e', hr⟩ := exec_twins h i
  rw [e, e']
  exact finish_agree h hr

/-- A fetch reads Memory at ip, which twins share. -/
theorem fetchDecode_twins (h : Twins s t) (hcap : s.cfg.memCap < 2 ^ 64) : (fetchDecode s).Twins (fetchDecode t) := by
  have hfetched : ∀ a, Twins { s with faultAddr := s.ip, ip := a } { t with faultAddr := s.ip, ip := a } :=
    fun a => h.map (fun u => { u with faultAddr := s.ip, ip := a }) (fun _ => rfl) rfl
  obtain ⟨o, rfl⟩ := h.exists_os
  have hbytes : bytesAtIp { s with os := o } = bytesAtIp s := rfl
  rw [fetchDecode_eq hcap, fetchDecode_eq (s := { s with os := o }) hcap, hbytes]
  dsimp only
  cases decode s.cfg (bytesAtIp s) with
  | ok i rest => exact .ok i (hfetched _)
  | unknownOpcode op => exact .raise _ _ (hfetched _)
  | noOpcode => exact .raise _ _ (hfetched s.ip)
  | truncated row => exact .raise _ _ (hfetched _)

theorem hostLoad_twins (h : Twins s t) (program : List Byte) : Twins (hostLoad program s) (hostLoad program t) := by
  obtain ⟨o, rfl⟩ := h.exists_os
  unfold hostLoad
  split
  · exact h.answer _
  · exact ⟨⟨rfl, fun i hi => absurd hi (Nat.not_lt_zero i)⟩, h.wf, h.wf'⟩

theorem hostExec_agree (h : Twins s t) (c : HostCmd) : OutcomesAgree (hostExec c s) (hostExec c t) := by
  cases c with
  | teardown => exact .inr ⟨.tornDown, rfl, rfl⟩
  | load program => exact (hostLoad_twins h program).next
  | clear => exact (h.map hostClear (fun _ => rfl) rfl).next
  | run => exact (h.haltWith .running).next
  | status => obtain ⟨o, rfl⟩ := h.exists_os; exact (h.answer _).next
  | regs => obtain ⟨o, rfl⟩ := h.exists_os; exact (h.answer _).next

theorem runningStep_agree (h : Twins s t) (hcap : s.cfg.memCap < 2 ^ 64) (hr : s.runState = .running) :
    OutcomesAgree (step s) (step t) := by
  have hf := fetchDecode_twins h hcap
  have hr' : t.runState = .running := by rw [h.agree.1]; exact hr
  rw [step_of_running hr, step_of_running hr']
  generalize fetchDecode s = r, fetchDecode t = r' at hf
  cases hf with
  | ok i h => exact exec_agree h i
  | raise c info h => exact (h.takeFault c info).next
  | hold => exact h.next
  | stop f => exact .inr ⟨f, rfl, rfl⟩

theorem stoppedStep_agree (h : Twins s t) : OutcomesAgree (stoppedStep s) (stoppedStep t) := by
  obtain ⟨o, rfl⟩ := h.exists_os
  unfold stoppedStep
  dsimp only
  split
  · exact h.next
  next c rest _ => exact hostExec_agree (h.map (fun u => { u with hostCmds := rest }) (fun _ => rfl) rfl) c

end

/-- Settles O21: Pop, Peek and Swap read below sp, Push writes the one cell that comes to lie below it, and nothing else
reads a cell. -/
theorem staleStackCellsUnobservable : Obligations.StaleStackCellsUnobservable := by
  intro s t hs ht hagree
  have h : Twins s t := ⟨hagree, hs.osWf, ht.osWf⟩
  by_cases hr : s.runState = .running
  · exact runningStep_agree h (memCap_lt_of_wf hs.cfgWf) hr
  · have hr' : t.runState ≠ .running := by rw [hagree.1]; exact hr
    rw [step, if_neg hr, step, if_neg hr']
    exact stoppedStep_agree h

end Sys2Proof.Machine
end

section
/-! The cells of a buffer and the Operand Stack's primitives (10_state.md R30 to R36). -/

namespace Sys2Proof.Machine

open Sys2Proof.Claims

/-! ### Canonical buffers -/

section
variable {w : Nat} {lo a b : Nat} {v x : BitVec w} {c d : List (Nat × BitVec w)}

/-- A canonical buffer lists an index only where it does not hold 0; so one that reads the same lists nothing below. -/
theorem head_index_le (hc : cellsWfFrom lo ((a, v) :: c) = true) (hd : cellsWfFrom lo ((b, x) :: d) = true)
    (h : ∀ y, cellGet ((a, v) :: c) y = cellGet ((b, x) :: d) y) : a ≤ b := by
  rw [cellsWfFrom_cons] at hc hd
  obtain ⟨-, hv, hc⟩ := hc
  obtain ⟨-, hx, -⟩ := hd
  by_contra hba
  have hwf : cellsWfFrom a ((a, v) :: c) = true := (cellsWfFrom_cons a a v c).mpr ⟨le_rfl, hv, hc⟩
  have hzero : cellGet ((b, x) :: d) b = 0#w := by rw [← h b, cellGet_eq_zero_of_lt hwf (by omega)]
  rw [cellGet_cons, if_pos rfl] at hzero
  exact hx hzero

/-- Canonical buffers that read alike are equal. -/
theorem cells_ext_from (hc : cellsWfFrom lo c = true) (hd : cellsWfFrom lo d = true)
    (h : ∀ x, cellGet c x = cellGet d x) : c = d := by
  induction c generalizing lo d with
  | nil =>
    cases d with
    | nil => rfl
    | cons q rest =>
      obtain ⟨b, x⟩ := q
      have hb := h b
      rw [cellGet_cons, if_pos rfl] at hb
      exact absurd hb.symm ((cellsWfFrom_cons ..).mp hd).2.1
  | cons p rest ih =>
    obtain ⟨a, v⟩ := p
    cases d with
    | nil =>
      have ha := h a
      rw [cellGet_cons, if_pos rfl] at ha
      exact absurd ha ((cellsWfFrom_cons ..).mp hc).2.1
    | cons q rest' =>
      obtain ⟨b, x⟩ := q
      obtain rfl : a = b := le_antisymm (head_index_le hc hd h) (head_index_le hd hc fun y => (h y).symm)
      obtain ⟨-, -, hc⟩ := (cellsWfFrom_cons ..).mp hc
      obtain ⟨-, -, hd⟩ := (cellsWfFrom_cons ..).mp hd
      have hvx := h a
      simp only [cellGet_cons, if_true] at hvx
      have hrest : rest = rest' := ih hc hd fun y => by
        by_cases hy : y = a
        · rw [cellGet_eq_zero_of_lt hc (by omega), cellGet_eq_zero_of_lt hd (by omega)]
        · simpa only [cellGet_cons, if_neg hy] using h y
      rw [hvx, hrest]

end

/-- Settles O18: read after write, and the extensionality of the canonical form. -/
theorem canonicalBuffers : Obligations.CanonicalBuffers := fun _ _ _ hc hd =>
  ⟨fun a v => ⟨cellSet_wf hc a v, fun x => cellGet_cellSet hc a x v⟩, cells_ext_from hc hd⟩

/-! ### Push, Pop, Peek, Swap -/

theorem osCap_lt_of_wf {p : Params} (h : p.wf = true) : p.osCap < 2 ^ 64 := by
  simp only [Params.wf, Bool.and_eq_true, decide_eq_true_eq] at h
  exact h.1.1.1.2.2

section
variable {s : State}

theorem push_stores (h : StateInv s) (hroom : s.sp.toNat ≠ s.cfg.osCap) (v : Word) :
    ∃ os' : StackCells, push v s = .ok () { s with os := os', sp := s.sp + 1#64 } ∧
      (s.sp + 1#64).toNat = s.sp.toNat + 1 ∧ ∀ i, cellGet os' i = if i = s.sp.toNat then v else cellGet s.os i := by
  have hsp := h.spLe
  have hcap := osCap_lt_of_wf h.cfgWf
  exact ⟨_, push_of_room v hroom, toNat_add_of_lt (by omega), fun i => cellGet_cellSet h.osWf _ i v⟩

/-- Swap exchanges the top and the Word k below it, which for k = 0 are one. -/
theorem swapTop_exchanges (h : StateInv s) {k : Word} (hk : k.toNat < s.sp.toNat) :
    ∃ os' : StackCells, swapTop k s = .ok () { s with os := os' } ∧ ∀ i, cellGet os' i =
      if i = s.sp.toNat - 1 then below s k.toNat
      else if i = s.sp.toNat - 1 - k.toNat then below s 0 else cellGet s.os i := by
  rcases swapTop_cases k s with ⟨-, e⟩ | ⟨hge, -⟩
  case inr => omega
  have htop : (s.sp - 1#64).toNat = s.sp.toNat - 1 := toNat_sub_of_le (by simp; omega)
  have hother : (s.sp - 1#64 - k).toNat = s.sp.toNat - 1 - k.toNat := by bv_omega
  have hread0 : stackAt s 0#64 = below s 0 := stackAt_eq (by simp; omega)
  have hreadk : stackAt s k = below s k.toNat := stackAt_eq hk
  refine ⟨_, e, fun i => ?_⟩
  rw [cellGet_cellSet (cellSet_wf h.osWf _ _), cellGet_cellSet h.osWf, htop, hother, hread0, hreadk]
  by_cases hi : i = s.sp.toNat - 1
  · by_cases hk0 : k.toNat = 0
    · simp [hi, hk0]
    · rw [if_pos hi, if_neg (by omega), if_pos hi]
  · rw [if_neg hi, if_neg hi]

end

/-- Settles O19: each primitive's cases, with the index arithmetic of R31 to R34 in the natural numbers. -/
theorem stackPrimitives : Obligations.StackPrimitives := by
  intro s h
  refine ⟨fun v => ⟨push_of_full v, fun hroom => push_stores h hroom v⟩, pop_of_zero, pop_of_pos, fun k => ⟨?_, ?_⟩⟩
  · intro hk
    exact ⟨if_pos hk, if_pos hk⟩
  · intro hk
    refine ⟨?_, swapTop_exchanges h hk⟩
    rcases peek_cases k s with ⟨-, e⟩ | ⟨hge, -⟩
    · rw [e, stackAt_eq hk]
      rfl
    · omega

/-! ### Many pushes, many pops -/

/-- Pushes within capacity write their Words to the cells from sp on, in order. -/
theorem pushAll_of_room (vs : List Word) (s : State) (hcap : s.cfg.osCap < 2 ^ 64)
    (h : s.sp.toNat + vs.length ≤ s.cfg.osCap) :
    pushAll vs s = .ok () { s with
      os := cellsWrite s.os s.sp.toNat vs, sp := s.sp + BitVec.ofNat 64 vs.length } := by
  induction vs generalizing s with
  | nil => simp [pushAll, cellsWrite]
  | cons v vs ih =>
    rw [List.length_cons] at h
    have hsp : (s.sp + 1#64).toNat = s.sp.toNat + 1 := toNat_add_of_lt (by omega)
    have hadd : s.sp + 1#64 + BitVec.ofNat 64 vs.length = s.sp + BitVec.ofNat 64 (vs.length + 1) := by
      rw [Nat.add_comm, BitVec.ofNat_add, BitVec.add_assoc]
    rw [pushAll, push_of_room v (by omega), Res.bind_ok,
      ih (pushed v s) hcap (by rw [pushed_sp, hsp, pushed_cfg]; omega)]
    simp only [pushed, hsp, hadd, cellsWrite, List.length_cons]

/-- Pops of Words that are there answer them from the top down. -/
theorem popAll_of_enough (n : Nat) (s : State) (h : n ≤ s.sp.toNat) :
    popAll n s = .ok (cellsRead s.os (s.sp.toNat - n) n).reverse { s with sp := s.sp - BitVec.ofNat 64 n } := by
  induction n generalizing s with
  | zero => simp [popAll, cellsRead]
  | succ n ih =>
    have hsp : (s.sp - 1#64).toNat = s.sp.toNat - 1 := toNat_sub_of_le (by simp; omega)
    have hsub : s.sp - 1#64 - BitVec.ofNat 64 n = s.sp - BitVec.ofNat 64 (n + 1) := by
      rw [Nat.add_comm, BitVec.ofNat_add, BitVec.sub_sub]
    have hread : cellsRead s.os (s.sp.toNat - (n + 1)) (n + 1) =
        cellsRead s.os (s.sp.toNat - 1 - n) n ++ [cellGet s.os (s.sp.toNat - 1)] := by
      rw [cellsRead_append, Nat.sub_sub, Nat.add_comm 1 n, show s.sp.toNat - (n + 1) + n = s.sp.toNat - 1 by omega]
      rfl
    rw [popAll, pop_of_pos (by omega), Res.bind_ok, ih (popped s) (by rw [popped_sp, hsp]; omega), hread]
    simp only [popped, hsp, hsub, Res.bind_ok, List.reverse_append, List.reverse_singleton, List.singleton_append]

/-- Settles O20: the pops read back, from the top down, the cells the pushes wrote (R35). -/
theorem stackIsLastInFirstOut : Obligations.StackIsLastInFirstOut := by
  intro s vs h hroom
  have hcap := osCap_lt_of_wf h.cfgWf
  have hsp : (s.sp + BitVec.ofNat 64 vs.length).toNat = s.sp.toNat + vs.length := toNat_add_of_lt (by omega)
  refine ⟨cellsWrite s.os s.sp.toNat vs, ?_, fun i hi => cellGet_cellsWrite_outside s.os vs (.inl hi)⟩
  rw [pushAll_of_room vs s hcap hroom, Res.bind_ok, popAll_of_enough _ _ (by rw [hsp]; omega)]
  simp only [hsp, Nat.add_sub_cancel, cellsRead_cellsWrite_same h.osWf, BitVec.add_sub_cancel]

end Sys2Proof.Machine
end

section
/-! What ends a run and what writes the status (10_state.md R26 to R29; 60_exceptions.md R213, R215). -/

namespace Sys2Proof.Machine

open Sys2Proof.Claims

/-! ### POP_RES -/

/-- Five different numbers: each is adopted as the run state it stands for (R101). -/
theorem adoptedState_ordinalOf {o : StateOrdinals} (h : o.wf = true) (q : RunState) :
    adoptedState o (ordinalOf o q) = q := by
  simp only [StateOrdinals.wf, decide_eq_true_eq, List.nodup_cons, List.mem_cons, not_or] at h
  obtain ⟨⟨hr1, hr2, hr3, hr4, -⟩, ⟨hs1, hs2, hs3, -⟩, ⟨hf1, hf2, -⟩, ⟨hu1, -⟩, -⟩ := h
  cases q
  case running => rw [ordinalOf, adoptedState, if_pos rfl]
  case haltSuccess => rw [ordinalOf, adoptedState, if_neg (Ne.symm hr1), if_pos rfl]
  case haltFailure => rw [ordinalOf, adoptedState, if_neg (Ne.symm hr2), if_neg (Ne.symm hs1), if_pos rfl]
  case uninitialized =>
    rw [ordinalOf, adoptedState, if_neg (Ne.symm hr3), if_neg (Ne.symm hs2), if_neg (Ne.symm hf1), if_pos rfl]
  case unknown =>
    rw [ordinalOf, adoptedState, if_neg (Ne.symm hr4), if_neg (Ne.symm hs3), if_neg (Ne.symm hf2),
      if_neg (Ne.symm hu1)]

theorem stateOrdinals_wf_of_wf {p : Params} (h : p.wf = true) : p.stateOrdinals.wf = true := by
  simp only [Params.wf, Bool.and_eq_true] at h
  exact h.2

section
variable {s : State}

theorem exec_popRes_of_zero (h : s.sp.toNat = 0) : exec .popRes s = .next (takeFault .stackUnderflow 0#64 s) := by
  rw [exec, execPopRes, unary_of_zero _ h, finish_raise]

theorem exec_popRes_of_pos (h : 1 ≤ s.sp.toNat) :
    exec .popRes s = .next (haltWith (adoptedState s.cfg.stateOrdinals (below s 0)) (popped s)) := by
  rw [exec, execPopRes, unary_of_pos _ h, finish_ok]
  rfl

/-! ### The status -/

/-- The status is as in s. -/
def StatusKept (s t : State) : Prop := t.cause = s.cause ∧ t.info = s.info ∧ t.faultIp = s.faultIp ∧ t.msg = s.msg

theorem StatusKept.refl (s : State) : StatusKept s s := ⟨rfl, rfl, rfl, rfl⟩

/-- A host command other than LOAD keeps the status, and a LOAD keeps it or clears it (R243). -/
theorem hostExec_status {c : HostCmd} {t : State} (e : hostExec c s = .next t) :
    StatusKept s t ∨ (∃ p, c = .load p) ∧ t.cause = .none ∧ t.info = 0#64 ∧ t.faultIp = 0#64 ∧ t.msg = [] := by
  cases c with
  | teardown => exact nomatch e
  | load program =>
    obtain rfl := Host.Outcome.next.inj e
    unfold hostLoad
    split
    · exact .inl (.refl s)
    · exact .inr ⟨⟨program, rfl⟩, rfl, rfl, rfl, rfl⟩
  | clear | run | status | regs => obtain rfl := Host.Outcome.next.inj e; exact .inl (.refl s)

/-- What a step of a running engine leaves: a fault and its marks, or the status as it was and a run state that only
DONE and POP_RES change. -/
theorem step_running_status {t : State} (hcap : s.cfg.memCap < 2 ^ 64) (hr : s.runState = .running)
    (e : step s = .next t) :
    (t.runState = .haltFailure ∧ t.cause ≠ .none ∧ t.faultIp = s.ip) ∨
    StatusKept s t ∧ ∃ i rest a, decode s.cfg (bytesAtIp s) = .ok i rest ∧
      exec i { s with faultAddr := s.ip, ip := a } = .next t ∧
      (t.runState = .running ∨ (i = .done ∧ t.runState = .haltSuccess) ∨ i = .popRes) := by
  rcases step_running_cases hcap hr with ⟨i, rest, a, hd, hs⟩ | ⟨c, info, a, hc, hs⟩ <;> rw [hs] at e
  · rcases exec_cases i { s with faultAddr := s.ip, ip := a } with ⟨u, hu, hown⟩ | ⟨f, hf, -⟩
    · obtain rfl : u = t := Host.Outcome.next.inj (hu.symm.trans e)
      rcases hown.status with ⟨hcause, hinfo, hfault, hmsg, -, hrun⟩ | ⟨hrun, hcause, hfault, -⟩
      · refine .inr ⟨⟨hcause, hinfo, hfault, hmsg⟩, i, rest, a, hd, hu, hrun.imp_left fun h => h.trans hr⟩
      · exact .inl ⟨hrun, hcause, hfault⟩
    · exact nomatch hf.symm.trans e
  · obtain rfl := Host.Outcome.next.inj e
    exact .inl ⟨rfl, hc, rfl⟩

end

/-- Settles O47: step_running_status for a running engine, hostExec_status for a stopped one. -/
theorem statusWrittenOnlyByFaultOrLoad : Obligations.StatusWrittenOnlyByFaultOrLoad := by
  intro s t hwf e
  by_cases hr : s.runState = .running
  · rcases step_running_status (memCap_lt_of_wf hwf) hr e with hfault | ⟨hkept, -⟩
    · exact .inr (.inl ⟨hr, hfault⟩)
    · exact .inl hkept
  · rcases step_stopped_cases hr with ⟨-, hs⟩ | ⟨c, rest, hq, hs⟩ <;> rw [hs] at e
    · obtain rfl := Host.Outcome.next.inj e
      exact .inl (StatusKept.refl s)
    · rcases hostExec_status e with hkept | ⟨⟨p, rfl⟩, hclear⟩
      · exact .inl hkept
      · exact .inr (.inr ⟨hr, ⟨p, rest, hq⟩, hclear⟩)

/-- Settles O48: only DONE, POP_RES and a fault write STATE, and POP_RES adopts the state of the ordinal it pops. -/
theorem runningEndsOnlyByDonePopResOrFault : Obligations.RunningEndsOnlyByDonePopResOrFault := by
  intro s t hwf hr e hstop
  rcases step_running_status (memCap_lt_of_wf hwf) hr e with hfault | ⟨-, i, rest, a, hd, hexec, hrun⟩
  · exact .inr (.inr hfault)
  rcases hrun with hrun | ⟨rfl, hrun⟩ | rfl
  · exact absurd hrun hstop
  · exact .inl ⟨⟨rest, hd⟩, hrun⟩
  · rcases Nat.eq_zero_or_pos s.sp.toNat with hsp | hsp
    · have e' := exec_popRes_of_zero (s := { s with faultAddr := s.ip, ip := a }) hsp
      obtain rfl := Host.Outcome.next.inj (e'.symm.trans hexec)
      exact .inr (.inr ⟨rfl, by simp, rfl⟩)
    · have e' := exec_popRes_of_pos (s := { s with faultAddr := s.ip, ip := a }) hsp
      obtain rfl := Host.Outcome.next.inj (e'.symm.trans hexec)
      refine .inr (.inl ⟨⟨rest, hd⟩, hsp, fun q hq => ?_⟩)
      have hadopt := adoptedState_ordinalOf (stateOrdinals_wf_of_wf hwf) q
      rw [← hq] at hadopt
      exact hadopt

end Sys2Proof.Machine
end

section
/-! The Word Codec (20_memory.md R50): the value of bytes as a sum, in either order. -/

namespace Sys2Proof

theorem leValue_eq_sum (bs : List Byte) :
    leValue bs = ((List.range bs.length).map fun i => (bs.getD i 0#8).toNat * 2 ^ (8 * i)).sum := by
  induction bs with
  | nil => rfl
  | cons b bs ih =>
    have hshift (x i : Nat) : x * 2 ^ (8 * (i + 1)) = 256 * (x * 2 ^ (8 * i)) := by ring
    rw [leValue, ih, List.length_cons, List.range_succ_eq_map, List.map_cons, List.sum_cons, List.map_map,
      ← List.sum_map_mul_left]
    simp [Function.comp_def, hshift]

/-- The codec's value in either order: each byte at the place the order gives it (R50, R53). -/
theorem wordOfBytes_toNat (o : ByteOrder) {bs : List Byte} (h : bs.length ≤ 8) :
    (wordOfBytes o bs).toNat =
      ((List.range bs.length).map fun i => (bs.getD i 0#8).toNat * 2 ^ (8 * o.place bs.length i)).sum := by
  cases o with
  | little =>
    rw [wordOfBytes_little_toNat bs h, leValue_eq_sum]
    rfl
  | big =>
    rw [wordOfBytes_big, wordOfBytes_little_toNat _ (by simpa using h), leValue_eq_sum, List.length_reverse]
    change ∑ i ∈ Finset.range bs.length, (bs.reverse.getD i 0#8).toNat * 2 ^ (8 * i) =
      ∑ i ∈ Finset.range bs.length, (bs.getD i 0#8).toNat * 2 ^ (8 * (bs.length - 1 - i))
    rw [← Finset.sum_range_reflect]
    refine Finset.sum_congr rfl fun i hi => ?_
    have hi' := Finset.mem_range.mp hi
    have hrev : bs.length - 1 - (bs.length - 1 - i) = i := by omega
    simp [List.getD_eq_getElem?_getD, List.getElem?_reverse (show bs.length - 1 - i < bs.length by omega), hrev]

/-- Settles O15: the byte at each place (bytesOfWord_getElem), the value of the bytes, and the codec's round trip. -/
theorem wordCodec : Obligations.WordCodec := by
  refine ⟨rfl, fun w i hi => ?_, fun e he => ?_, fun o w => ?_⟩
  · rw [List.getElem?_eq_getElem (by simpa using hi), bytesOfWord_getElem]
    rfl
  · rw [wordOfBytes_toNat .little he.le, he]
    rfl
  · exact ⟨bytesOfWord_length o 8 w, wordOfBytes_bytesOfWord_eight o w, rfl⟩

end Sys2Proof
end

section
/-! The accessors of Memory and the Call Stack, and a fetch after a store (20_memory.md R52 to R57, R67). -/

namespace Sys2Proof.Machine

open Sys2Proof.Claims

/-! ### What a read gives and a write stores -/

section
variable (o : ByteOrder) (c : Memory) (a : Nat) {n : Nat}

/-- The Word read from at most eight cells has their value. -/
theorem wordOfBytes_cellsRead_toNat (hn : n ≤ 8) :
    (wordOfBytes o (cellsRead c a n)).toNat = valueAt o c a n := by
  rw [wordOfBytes_toNat o (by simpa using hn), cellsRead_length, valueAt]
  refine congrArg List.sum (List.map_congr_left fun i hi => ?_)
  have hlen : i < (cellsRead c a n).length := by simpa using hi
  rw [List.getD_eq_getElem _ _ hlen, cellsRead_getElem]

/-- Each byte of the Word read from at most eight cells is a cell's. -/
theorem byteOf_wordOfBytes_cellsRead (hn : n ≤ 8) {i : Nat} (hi : i < n) :
    byteOf o n (wordOfBytes o (cellsRead c a n)) i = cellGet c (a + i) := by
  have hbytes : bytesOfWord o n (wordOfBytes o (cellsRead c a n)) = cellsRead c a n := by
    simpa using bytesOfWord_wordOfBytes o (cellsRead c a n) (by simpa using hn)
  rw [byteOf, ← bytesOfWord_getElem o n _ i (by simpa using hi)]
  simp only [hbytes, cellsRead_getElem]

/-- The byte at place 0 is the low one: at the lowest address in little-endian order, and the only byte of one. -/
theorem byteOf_of_place_zero {o : ByteOrder} {i : Nat} (h : o.place n i = 0) (v : Word) :
    byteOf o n v i = v.setWidth 8 := by
  rw [byteOf, h, Nat.mul_zero, BitVec.setWidth_eq_extractLsb' (by decide)]

end

section
variable {s : State} {addr : Word} {n : Size}

theorem checkBounds_of_beyond {cap : Nat} (h : addr.toNat + n.bytes > cap) :
    checkBounds cap addr n s = .raise .outOfBounds addr s := if_pos h

theorem checkBounds_of_fits {cap : Nat} (h : addr.toNat + n.bytes ≤ cap) : checkBounds cap addr n s = .ok () s :=
  if_neg (by omega)

theorem memRead_of_fits (h : addr.toNat + n.bytes ≤ s.cfg.memCap) :
    memRead addr n s = .ok (wordOfBytes s.cfg.byteOrder (cellsRead s.mem addr.toNat n.bytes)) s := by
  rw [memRead, checkBounds_of_fits h, Res.bind_ok]

theorem memWrite_of_fits (v : Word) (h : addr.toNat + n.bytes ≤ s.cfg.memCap) :
    memWrite addr n v s =
      .ok () { s with mem := cellsWrite s.mem addr.toNat (bytesOfWord s.cfg.byteOrder n.bytes v) } := by
  rw [memWrite, checkBounds_of_fits h, Res.bind_ok]

theorem csWrite_of_le (v : Word) (h : addr.toNat + n.bytes ≤ s.cfg.csCap) :
    csWrite addr n v s = .ok () (csStored addr.toNat n v s) := by
  rw [csWrite, checkBounds_of_fits h, Res.bind_ok]

theorem memRead_reads_value (h : addr.toNat + n.bytes ≤ s.cfg.memCap) :
    ∃ r : Word, memRead addr n s = .ok r s ∧ r.toNat = valueAt s.cfg.byteOrder s.mem addr.toNat n.bytes :=
  ⟨_, memRead_of_fits h, wordOfBytes_cellsRead_toNat _ _ _ n.bytes_le⟩

theorem csRead_reads_value (h : addr.toNat + n.bytes ≤ s.cfg.csCap) (hr : Readable s addr.toNat n.bytes) :
    ∃ r : Word, csRead addr n s = .ok r s ∧ r.toNat = valueAt s.cfg.byteOrder s.cs addr.toNat n.bytes :=
  ⟨_, csRead_of_readable h hr, wordOfBytes_cellsRead_toNat _ _ _ n.bytes_le⟩

end

theorem bytesStored_cellsWrite {c : Memory} (h : Memory.wf c = true) (o : ByteOrder) (a n : Nat) (v : Word) :
    BytesStored o c (cellsWrite c a (bytesOfWord o n v)) a n v := cellGet_stored h o a n v

theorem marked_cellsWrite {w : Marks} (h : cellsWf w = true) (a n : Nat) :
    Marked w (cellsWrite w a (List.replicate n 1#1)) fun x => a ≤ x ∧ x < a + n := fun x =>
  ⟨fun hx => by rw [cellGet_marked h, if_pos hx], fun hx => by rw [cellGet_marked h, if_neg hx]⟩

/-- Settles O16: each accessor is the bounds check, then the read or the write of the cells. -/
theorem accessorContracts : Obligations.AccessorContracts := by
  intro s addr v n hmem hcs hmarks
  refine ⟨fun h => ?_, fun h => ?_, fun h => ⟨memRead_reads_value h, ?_⟩, fun h => ⟨csRead_reads_value h, ?_⟩⟩
  · simp only [memRead, memWrite, checkBounds_of_beyond h, Res.bind_raise, and_self]
  · simp only [csRead, csWrite, checkBounds_of_beyond h, Res.bind_raise, and_self]
  · exact ⟨_, memWrite_of_fits v h, bytesStored_cellsWrite hmem _ _ _ v⟩
  · exact ⟨_, _, csWrite_of_le v h, bytesStored_cellsWrite hcs _ _ _ v, marked_cellsWrite hmarks _ _⟩

/-- Settles O17: each byte of the Word read is the cell at its address, and the write determines that cell. -/
theorem mixedWidthReads : Obligations.MixedWidthReads := by
  intro s t w a v m n hmem hwrite hfits
  rcases memWrite_cases w m v s with ⟨-, e⟩ | ⟨-, e⟩ <;> rw [e] at hwrite
  case inr => exact nomatch hwrite
  rw [Res.ok.injEq] at hwrite
  obtain ⟨-, rfl⟩ := hwrite
  refine ⟨_, memRead_of_fits hfits, ?_, fun i hi => ?_, ?_⟩
  · simpa using wordOfBytes_lt s.cfg.byteOrder (cellsRead _ a.toNat n.bytes) (by simpa using n.bytes_le)
  · rw [byteOf_wordOfBytes_cellsRead _ _ _ n.bytes_le hi]
    exact bytesStored_cellsWrite hmem _ _ _ v _
  · rintro hlittle rfl rfl rfl
    have hlow := bytesStored_cellsWrite hmem .little a.toNat 8 v a.toNat
    rw [if_pos (by omega), Nat.sub_self, byteOf_of_place_zero rfl] at hlow
    simp only [hlittle, Size.bytes, cellsRead, hlow, wordOfBytes_one, BitVec.toNat_setWidth]
    omega

/-! ### A store seen by the next fetch -/

/-- STORE.s within Memory and with a Word to pop (R112). -/
theorem exec_store_of_fits {s : State} {n : Size} {addr : Word} (h : addr.toNat + n.bytes ≤ s.cfg.memCap)
    (hsp : 1 ≤ s.sp.toNat) :
    exec (.store n addr) s = .next { s with
      sp := s.sp - 1#64
      mem := cellsWrite s.mem addr.toNat (bytesOfWord s.cfg.byteOrder n.bytes (below s 0)) } := by
  rw [exec, execStore, checkBounds_of_fits h, Res.bind_ok, pop_of_pos hsp, Res.bind_ok,
    memWrite_of_fits (s := popped s) _ h, finish_ok]
  rfl

/-- A byte that decodes alone has a row without an immediate. -/
theorem lookupOpcode_of_decode_singleton {p : Params} {op : Byte} {i : Instr} (h : decode p [op] = .ok i []) :
    ∃ row, lookupOpcode p.decodeTable op = some row ∧ row.immSize = none ∧ row.instr 0#64 = i := by
  rw [decode] at h
  cases hrow : lookupOpcode p.decodeTable op with
  | none => simp [hrow] at h
  | some row =>
    cases himm : row.immSize with
    | none => exact ⟨row, rfl, himm, by simpa [hrow, himm] using h⟩
    | some n => simp [hrow, himm, n.bytes_pos] at h

/-- A running engine whose byte at ip decodes alone executes that instruction, whatever bytes follow it. -/
theorem step_of_decode_singleton {s : State} {i : Instr} (hr : s.runState = .running)
    (hip : s.ip.toNat < s.cfg.memCap) (h : decode s.cfg [cellGet s.mem s.ip.toNat] = .ok i []) :
    step s = exec i { s with faultAddr := s.ip, ip := s.ip + 1#64 } := by
  obtain ⟨row, hrow, himm, rfl⟩ := lookupOpcode_of_decode_singleton h
  rw [step_of_running hr, fetchDecode_of_within hip]
  simp only [hrow, himm]

/-- Settles O28: the byte STORE.1 puts at ip is the low byte of the Word popped, and the next fetch decodes it. -/
theorem storeSeenByTheNextFetch : Obligations.StoreSeenByTheNextFetch := by
  intro s i op hinv hr hip hsp hdecode hop
  refine ⟨_, exec_store_of_fits (n := .s1) hip hsp, ?_⟩
  refine step_of_decode_singleton hr hip ?_
  have hstored := bytesStored_cellsWrite hinv.memWf s.cfg.byteOrder s.ip.toNat 1 (below s 0) s.ip.toNat
  rw [if_pos (by omega), Nat.sub_self, byteOf_of_place_zero (by cases s.cfg.byteOrder <;> rfl), hop] at hstored
  rw [Size.bytes, hstored]
  exact hdecode

end Sys2Proof.Machine
end

section
/-! The encodings (30_encoding.md R80 to R91): what decodes is the encoding read, R84's table byte by byte, and the step
that runs what the decoder reads. -/

namespace Sys2Proof

open Sys2Proof.Claims

/-! ### What decodes is its encoding -/

/-- What the decoder reads of an instruction: an opcode byte that has a row, then the immediate the row asks for. -/
theorem decode_ok_cases {p : Params} {bytes rest : List Byte} {i : Instr} (h : decode p bytes = .ok i rest) :
    ∃ op row, lookupOpcode p.decodeTable op = some row ∧
      ((row.immSize = none ∧ bytes = op :: rest ∧ i = row.instr 0#64) ∨
        ∃ n imm, row.immSize = some n ∧ imm.length = n.bytes ∧ bytes = op :: (imm ++ rest) ∧
          i = row.instr (wordOfBytes p.byteOrder imm)) := by
  cases bytes with
  | nil => exact nomatch h
  | cons op tail =>
    rw [decode] at h
    cases hrow : lookupOpcode p.decodeTable op with
    | none => simp [hrow] at h
    | some row =>
      refine ⟨op, row, hrow, ?_⟩
      cases himm : row.immSize with
      | none =>
        simp only [hrow, himm, DecodeResult.ok.injEq] at h
        obtain ⟨rfl, rfl⟩ := h
        exact .inl ⟨rfl, rfl, rfl⟩
      | some n =>
        simp only [hrow, himm] at h
        split_ifs at h with hlen
        rw [DecodeResult.ok.injEq] at h
        obtain ⟨rfl, rfl⟩ := h
        exact .inr ⟨n, tail.take n.bytes, rfl, by rw [List.length_take]; omega, by rw [List.take_append_drop], rfl⟩

theorem encode_length (p : Params) (i : Instr) : (encode p i).length = i.length := by
  cases himm : i.imm with
  | none => rw [encode_of_no_imm p himm, Instr.length, himm, List.length_singleton]
  | some imm => exact Laws.EncodeLength.of_imm himm p

/-- In an admissible table what decodes is well-formed, and its encoding is what was read. -/
theorem encode_of_decode {p : Params} {bytes rest : List Byte} {i : Instr} (ht : p.decodeTable.wf = true)
    (h : decode p bytes = .ok i rest) : i.wf = true ∧ encode p i ++ rest = bytes := by
  obtain ⟨op, row, hrow, hread⟩ := decode_ok_cases h
  obtain ⟨hr, rfl⟩ := of_lookupOpcode hrow
  rcases hread with ⟨hsize, rfl, rfl⟩ | ⟨n, imm, hsize, hlen, rfl, rfl⟩
  · obtain ⟨-, -, himm, hwf⟩ := instr_of_mem ht hr 0#64
    rw [hsize] at himm hwf
    rw [encode_of_no_imm p himm, opcodeOf_instr ht hr]
    exact ⟨hwf (by simp), rfl⟩
  · obtain ⟨-, -, himm, hwf⟩ := instr_of_mem ht hr (wordOfBytes p.byteOrder imm)
    rw [hsize] at himm hwf
    have himm8 : imm.length ≤ 8 := hlen ▸ n.bytes_le
    have hbytes := bytesOfWord_wordOfBytes p.byteOrder imm himm8
    have hfits := wordOfBytes_lt p.byteOrder imm himm8
    rw [hlen] at hbytes hfits
    rw [encode_of_imm p himm, opcodeOf_instr ht hr, hbytes]
    exact ⟨hwf fun m hm => Option.some.inj hm ▸ hfits, rfl⟩

theorem length_of_decode {p : Params} {bytes rest : List Byte} {i : Instr} (ht : p.decodeTable.wf = true)
    (h : decode p bytes = .ok i rest) : bytes.length = i.length + rest.length := by
  rw [← (encode_of_decode ht h).2, List.length_append, encode_length]

/-- Settles O3: the row the opcode byte finds makes the instruction and has its opcode byte (opcodeOf_instr), and the
codec gives back the immediate's bytes (bytesOfWord_wordOfBytes). -/
theorem encodeOfDecode : Obligations.EncodeOfDecode := by
  intro p bytes rest i ht h
  obtain ⟨hwf, hbytes⟩ := encode_of_decode ht h
  exact ⟨hwf, hbytes, length_of_decode ht h⟩

/-! ### The opcode bytes of R84's table -/

theorem lookupOpcode_eq_none_iff (t : DecodeTable) (op : Byte) :
    lookupOpcode t op = none ↔ op.toNat ∉ t.map (·.opcode.toNat) := by
  simp [lookupOpcode, BitVec.toNat_inj]

/-- The opcode bytes of the size-qualified blocks are two runs (R81). -/
theorem decodeTableSized_opcodes :
    decodeTableSized.map (·.opcode.toNat) = List.range' 0x10 12 ++ List.range' 0x20 8 := by decide

/-- The opcode bytes of the other blocks are eight runs (R84). -/
theorem decodeTable_plain_opcodes :
    (decodeTableLow ++ decodeTableMid ++ decodeTableHigh).map (·.opcode.toNat) =
      List.range' 0x00 3 ++ List.range' 0x30 3 ++ List.range' 0x40 6 ++ List.range' 0x50 6 ++ List.range' 0x60 6 ++
        List.range' 0x70 4 ++ List.range' 0x80 3 ++ List.range' 0xD0 2 := by decide

theorem decodeTable_eq_append :
    decodeTable = decodeTableSized ++ (decodeTableLow ++ decodeTableMid ++ decodeTableHigh) := by
  simp only [decodeTable, List.append_assoc]

/-- The bytes between the runs of R84's opcodes are those R89 lists. -/
theorem lookupOpcode_decodeTable_eq_none_iff (op : Byte) :
    lookupOpcode decodeTable op = none ↔ illegalByte op.toNat := by
  have := op.isLt
  rw [lookupOpcode_eq_none_iff, decodeTable_eq_append, List.map_append, decodeTableSized_opcodes,
    decodeTable_plain_opcodes]
  simp only [List.mem_append, List.mem_range'_1]
  omega

theorem length_filter_illegalByte : ((List.range 256).filter fun n => illegalByte n).length = 203 := by rfl

/-- R89's count is that of the bytes it lists. -/
theorem length_filter_lookupOpcode_isNone :
    ((List.range 256).filter fun n => (lookupOpcode decodeTable (BitVec.ofNat 8 n)).isNone).length = 203 := by
  rw [← length_filter_illegalByte]
  refine congrArg List.length (List.filter_congr fun n hn => ?_)
  have hbyte : (BitVec.ofNat 8 n).toNat = n := Nat.mod_eq_of_lt (List.mem_range.mp hn)
  rw [Bool.eq_iff_iff, Option.isNone_iff_eq_none, lookupOpcode_decodeTable_eq_none_iff, hbyte, decide_eq_true_iff]

/-! ### The size qualifier -/

/-- An opcode byte of R81's two runs has a row, whose width is 2 to the opcode's low two bits. -/
theorem lookupOpcode_of_sized {op : Byte}
    (h : (0x10 ≤ op.toNat ∧ op.toNat ≤ 0x1B) ∨ (0x20 ≤ op.toNat ∧ op.toNat ≤ 0x27)) :
    ∃ row, lookupOpcode decodeTable op = some row ∧ row.size.bytes = 2 ^ (op.toNat % 4) := by
  have hwidth : ∀ row ∈ decodeTableSized, row.size.bytes = 2 ^ (row.opcode.toNat % 4) := by decide
  have hmem : op.toNat ∈ decodeTableSized.map (·.opcode.toNat) := by
    rw [decodeTableSized_opcodes, List.mem_append, List.mem_range'_1, List.mem_range'_1]
    omega
  obtain ⟨row, hrow, hop⟩ := List.mem_map.mp hmem
  obtain rfl : row.opcode = op := BitVec.eq_of_toNat_eq hop
  have htable : row ∈ decodeTable := decodeTable_eq_append ▸ List.mem_append_left _ hrow
  exact ⟨row, lookupOpcode_of_mem decodeTable_wf htable, hwidth row hrow⟩

/-- A byte with a row decodes to an instruction of that row when eight bytes follow it, the widest immediate. -/
theorem decode_of_lookupOpcode {p : Params} {op : Byte} {row : DecodeRow} {operand : List Byte}
    (hrow : lookupOpcode p.decodeTable op = some row) (hlen : 8 ≤ operand.length) :
    ∃ w rest, decode p (op :: operand) = .ok (row.instr w) rest := by
  cases hsize : row.immSize with
  | none => exact ⟨_, _, decode_of_no_imm operand hrow hsize⟩
  | some n =>
    have hn := n.bytes_le
    have hdecode := decode_of_imm (operand.take n.bytes) (operand.drop n.bytes) hrow hsize
      (by rw [List.length_take]; omega)
    rw [List.take_append_drop] at hdecode
    exact ⟨_, _, hdecode⟩

/-- Settles O4: every byte of the two runs has a row of that width, and the instruction has its row's width. -/
theorem sizeQualifierSelectsWidth : Obligations.SizeQualifierSelectsWidth := by
  intro p op operand ht hop hlen
  obtain ⟨row, hrow, hwidth⟩ := lookupOpcode_of_sized hop
  obtain ⟨w, rest, hdecode⟩ := decode_of_lookupOpcode (p := p) (ht ▸ hrow) hlen
  obtain ⟨-, hsize, -, -⟩ := instr_of_mem decodeTable_wf (of_lookupOpcode hrow).1 w
  exact ⟨_, rest, hdecode, hsize ▸ hwidth⟩

/-! ### R91's examples -/

/-- Settles O1: the encodings are computed, and the decoder gives each instruction back (decode_encode). -/
theorem specExampleEncodings : Obligations.SpecExampleEncodings := by
  intro ex hex
  have hencode : encode initialParams ex.1 = ex.2 ∧ ex.1.wf = true := by
    revert ex
    decide
  obtain ⟨hbytes, hwf⟩ := hencode
  have hdecode := decode_encode (p := initialParams) [] decodeTable_wf (decodeTable_has _) hwf
  rw [List.append_nil, hbytes] at hdecode
  exact ⟨hdecode, hbytes, by rw [← hbytes, encode_length]⟩

end Sys2Proof

namespace Sys2Proof.Machine

open Sys2Proof.Claims

/-! ### The fetch of a running engine -/

section
variable {s : State}

/-- The model's fault entry is the one the statements speak of: its MSG is a text cut to MSG_CAP (R214, R29). -/
theorem takeFault_faultsFrom (c : Cause) (info : Word) (s : State) : FaultsFrom (.next (takeFault c info s)) c info s :=
  ⟨(Config.faultText s.msgDraws).take s.cfg.msgCap, List.length_take_le _ _, rfl⟩

/-- A fault of the fetch is taken. -/
theorem step_faultsFrom_of_fetch {c : Cause} {info : Word} {t : State} (hr : s.runState = .running)
    (h : fetchDecode s = .raise c info t) : FaultsFrom (step s) c info t := by
  rw [step_of_running hr, h]
  exact takeFault_faultsFrom c info t

/-- An opcode byte without a row faults behind it. -/
theorem fetchDecode_of_no_row (hip : s.ip.toNat < s.cfg.memCap)
    (h : lookupOpcode s.cfg.decodeTable (cellGet s.mem s.ip.toNat) = none) :
    fetchDecode s = .raise .unknownOpcode ((cellGet s.mem s.ip.toNat).setWidth 64)
      { s with faultAddr := s.ip, ip := s.ip + 1#64 } := by
  rw [fetchDecode_of_within hip]
  simp only [h]

end

/-- Settles O5: R89's bytes are those between the runs of R84's opcodes, and without a row the fetch raises behind the
byte. -/
theorem illegalBytesFault : Obligations.IllegalBytesFault := by
  refine ⟨lookupOpcode_decodeTable_eq_none_iff, length_filter_lookupOpcode_isNone, fun s ht hr hip hop => ?_⟩
  refine step_faultsFrom_of_fetch hr (fetchDecode_of_no_row hip ?_)
  rw [ht]
  exact (lookupOpcode_decodeTable_eq_none_iff _).mpr hop

theorem decodeTable_wf_of_wf {p : Params} (h : p.wf = true) : p.decodeTable.wf = true := by
  simp only [Params.wf, Bool.and_eq_true] at h
  exact h.1.2

/-- Settles O6: the fetch is the decoder's reading of the bytes at ip (fetchDecode_eq), as many as the instruction is
long (length_of_decode). -/
theorem stepRunsTheDecodedInstruction : Obligations.StepRunsTheDecodedInstruction := by
  intro s hwf hr
  have hfetch := fetchDecode_eq (memCap_lt_of_wf hwf)
  refine ⟨fun i rest h => ?_, fun h => ?_, fun op h => ?_, fun row h => ?_⟩ <;> rw [h] at hfetch
  · have ht := decodeTable_wf_of_wf hwf
    have hread : (bytesAtIp s).length - rest.length = i.length := by
      rw [length_of_decode ht h, Nat.add_sub_cancel]
    rw [fetchResult, hread] at hfetch
    exact ⟨(encode_of_decode ht h).1, by rw [step_of_running hr, hfetch]⟩
  all_goals exact step_faultsFrom_of_fetch hr hfetch

end Sys2Proof.Machine
end

section
/-! The control family: DONE, POP_RES and ABORT (40_control.md). -/

namespace Sys2Proof.Machine

open Sys2Proof.Claims

/-! ### One-byte encodings -/

/-- An instruction without an immediate is its opcode byte in R84's table, whose row makes it again (R83). -/
theorem encodedAsOne_of_no_imm {i : Instr} {op : Byte} (himm : i.imm = none) (hop : opcodeOf decodeTable i = op) :
    EncodedAsOne i op := by
  intro p ht
  obtain ⟨row, hrow, hsize, hinstr⟩ := lookupOpcode_of_has decodeTable_wf (decodeTable_has i)
  simp only [himm, Option.map_none, Option.getD_none] at hsize hinstr
  rw [← ht] at hop hrow
  rw [encode_of_no_imm p himm, ← hop, decode_of_no_imm [] hrow hsize, hinstr]
  exact ⟨rfl, rfl⟩

/-! ### DONE and ABORT -/

theorem exec_done (s : State) : exec .done s = .next (haltWith .haltSuccess s) := rfl

theorem exec_abort (s : State) : exec .abort s = .next (takeFault .abort 0#64 s) := rfl

/-- Settles O22: DONE is the halt, which writes STATE only (R215), and ABORT is the fault entry. -/
theorem doneAndAbort : Obligations.DoneAndAbort :=
  ⟨encodedAsOne_of_no_imm rfl rfl, encodedAsOne_of_no_imm rfl rfl, fun s =>
    ⟨exec_done s, exec_abort s ▸ takeFault_faultsFrom .abort 0#64 s⟩⟩

/-! ### POP_RES -/

/-- A Word that is no run state's number is adopted as UNKNOWN (R101). -/
theorem adoptedState_of_no_ordinal {o : StateOrdinals} {v : Word} (h : ∀ q, v ≠ ordinalOf o q) :
    adoptedState o v = .unknown := by
  have hr : v ≠ o.running := h .running
  have hs : v ≠ o.haltSuccess := h .haltSuccess
  have hf : v ≠ o.haltFailure := h .haltFailure
  have hu : v ≠ o.uninitialized := h .uninitialized
  rw [adoptedState, if_neg hr, if_neg hs, if_neg hf, if_neg hu]

/-- At R9's numbers the Word's value says which run state is adopted. -/
theorem adoptedState_stateOrdinals (v : Word) : adoptedState stateOrdinals v = adopts v.toNat := by
  simp only [adoptedState, adopts, ← BitVec.toNat_inj]
  rfl

/-- Settles O23: the run state is adoptedState of the popped Word; its three clauses are what adoptedState answers for
an ordinal, for a Word that is none, and at R9's numbers. -/
theorem popResAdoptsTheRunState : Obligations.PopResAdoptsTheRunState := by
  refine ⟨encodedAsOne_of_no_imm rfl rfl, fun s h => ?_, fun s hsp hwf =>
    ⟨adoptedState s.cfg.stateOrdinals (below s 0), exec_popRes_of_pos hsp, fun q hq => ?_,
      adoptedState_of_no_ordinal, fun hord => ?_⟩⟩
  · rw [exec_popRes_of_zero h]
    exact takeFault_faultsFrom _ _ s
  · rw [hq, adoptedState_ordinalOf hwf]
  · rw [hord, adoptedState_stateOrdinals]

end Sys2Proof.Machine
end

section
/-! The load and store family: LOAD_CONST, LOAD and STORE (41_load_store.md). -/

namespace Sys2Proof.Machine

open Sys2Proof.Claims

/-! ### A read beyond Memory -/

theorem memRead_of_beyond {s : State} {addr : Word} {n : Size} (h : addr.toNat + n.bytes > s.cfg.memCap) :
    memRead addr n s = .raise .outOfBounds addr s := by
  rw [memRead, checkBounds_of_beyond h, Res.bind_raise]

/-! ### Encodings with an immediate -/

/-- The bytes of an operand in address order are the codec's. -/
theorem operandBytes_eq (o : ByteOrder) (n : Nat) (v : Word) : operandBytes o n v = bytesOfWord o n v := by
  refine List.ext_getElem (by simp [operandBytes]) fun k _ hk => ?_
  rw [bytesOfWord_getElem]
  simp [operandBytes, byteOf]

section
variable {i : Instr} {op : Byte} {n : Size} {w : Word} (himm : i.imm = some (n, w)) (hop : opcodeOf decodeTable i = op)
include himm hop

/-- An instruction with an immediate is its opcode byte in R84's table and the immediate's bytes (R83). -/
theorem encodedWith_of_imm (hwf : i.wf = true) : EncodedWith n.bytes i op w := by
  intro p ht
  have hencode : encode p i = op :: operandBytes p.byteOrder n.bytes w := by
    rw [encode_of_imm p himm, ht, hop, operandBytes_eq]
  have hdecode := decode_encode (p := p) [] (ht ▸ decodeTable_wf) (ht ▸ decodeTable_has i) hwf
  rw [List.append_nil, hencode] at hdecode
  exact ⟨hencode, hdecode⟩

/-- The row of that opcode byte asks for the immediate, whose read raises behind the opcode where it does not
fit (R82). -/
theorem immediateFetchFaults_of_imm : ImmediateFetchFaults op n.bytes := by
  intro s hwf ht hr hip hbyte hbeyond
  obtain ⟨row, hrow, hsize, -⟩ := lookupOpcode_of_has decodeTable_wf (decodeTable_has i)
  rw [hop, ← hbyte, ← ht] at hrow
  rw [himm, Option.map_some] at hsize
  have hcap := memCap_lt_of_wf hwf
  have hip1 : (s.ip + 1#64).toNat = s.ip.toNat + 1 := toNat_add_of_lt (by omega)
  refine step_faultsFrom_of_fetch hr ?_
  rw [fetchDecode_of_within hip]
  simp only [hrow, hsize]
  rw [fetchImm, memRead_of_beyond (by rw [hip1]; exact hbeyond), Res.bind_raise, Res.bind_raise]

end

/-! ### The opcode bytes of the three mnemonics (R81) -/

theorem opcodeOf_loadConst (n : Size) (imm : Word) : opcodeOf decodeTable (.loadConst n imm) = 0x10#8 + ss n := by
  cases n <;> rfl

theorem opcodeOf_load (n : Size) (addr : Word) : opcodeOf decodeTable (.load n addr) = 0x14#8 + ss n := by
  cases n <;> rfl

theorem opcodeOf_store (n : Size) (addr : Word) : opcodeOf decodeTable (.store n addr) = 0x18#8 + ss n := by
  cases n <;> rfl

/-! ### How an instruction ends that pushes -/

section
variable {s : State}

theorem finish_push_of_room (v : Word) (h : s.sp.toNat ≠ s.cfg.osCap) :
    finish s (push v s) = .next (withPushed v s) := by
  rw [push_of_room v h]
  rfl

theorem finish_push_faultsFrom_of_full (v : Word) (h : s.sp.toNat = s.cfg.osCap) :
    FaultsFrom (finish s (push v s)) .stackOverflow s.sp s := by
  rw [push_of_full v h]
  exact takeFault_faultsFrom ..

/-! ### LOAD_CONST -/

/-- A constant that its encoding holds is pushed as it is (R110). -/
theorem exec_loadConst_of_lt {n : Size} {imm : Word} (h : imm.toNat < 2 ^ (8 * n.bytes)) :
    exec (.loadConst n imm) s = finish s (push imm s) := by
  rw [exec, execLoadConst, constOperand_of_lt h]

end

/-- Settles O24: the execute stage is one Push of the constant (exec_loadConst_of_lt), which the encoding holds. -/
theorem loadConstRule : Obligations.LoadConstRule := by
  refine fun n => ⟨immediateFetchFaults_of_imm rfl (opcodeOf_loadConst n 0#64), fun imm himm => ⟨?_, fun s => ?_⟩⟩
  · exact encodedWith_of_imm rfl (opcodeOf_loadConst n imm) (decide_eq_true himm)
  · rw [exec_loadConst_of_lt himm]
    exact ⟨finish_push_of_room imm, finish_push_faultsFrom_of_full imm⟩

/-! ### LOAD and STORE -/

section
variable {s : State} {n : Size} {addr : Word}

/-- LOAD.s within Memory pushes the value of the s bytes (R111). -/
theorem exec_load_of_fits (h : addr.toNat + n.bytes ≤ s.cfg.memCap) :
    exec (.load n addr) s =
      finish s (push (BitVec.ofNat 64 (valueAt s.cfg.byteOrder s.mem addr.toNat n.bytes)) s) := by
  rw [exec, execLoad, memRead_of_fits h, Res.bind_ok, ← wordOfBytes_cellsRead_toNat _ _ _ n.bytes_le,
    BitVec.ofNat_toNat, BitVec.setWidth_eq]

/-- LOAD.s checks its address first (R111, D20). -/
theorem exec_load_of_beyond (h : addr.toNat + n.bytes > s.cfg.memCap) :
    exec (.load n addr) s = .next (takeFault .outOfBounds addr s) := by
  rw [exec, execLoad, memRead_of_beyond h, Res.bind_raise, finish_raise]

/-- STORE.s checks its address first (R112, D20). -/
theorem exec_store_of_beyond (h : addr.toNat + n.bytes > s.cfg.memCap) :
    exec (.store n addr) s = .next (takeFault .outOfBounds addr s) := by
  rw [exec, execStore, checkBounds_of_beyond h, Res.bind_raise, finish_raise]

theorem exec_store_of_zero (h : addr.toNat + n.bytes ≤ s.cfg.memCap) (hsp : s.sp.toNat = 0) :
    exec (.store n addr) s = .next (takeFault .stackUnderflow 0#64 s) := by
  rw [exec, execStore, checkBounds_of_fits h, Res.bind_ok, pop_of_zero hsp, Res.bind_raise, finish_raise]

end

/-- Settles O25: MemRead, whose check comes first, then one Push of the value read. -/
theorem loadRule : Obligations.LoadRule := by
  refine fun n addr => ⟨encodedWith_of_imm (n := .s8) rfl (opcodeOf_load n addr) rfl,
    immediateFetchFaults_of_imm (n := .s8) rfl (opcodeOf_load n addr),
    fun s => ⟨fun h => ?_, fun h hsp => ?_, fun h hsp => ?_⟩⟩
  · rw [exec_load_of_beyond h]
    exact takeFault_faultsFrom ..
  · rw [exec_load_of_fits h]
    exact finish_push_faultsFrom_of_full _ hsp
  · rw [exec_load_of_fits h, finish_push_of_room _ hsp]

/-- Settles O26: the check, then the pop, then the write, which bytesStored_cellsWrite describes byte by byte. -/
theorem storeRule : Obligations.StoreRule := by
  refine fun n addr => ⟨encodedWith_of_imm (n := .s8) rfl (opcodeOf_store n addr) rfl,
    fun s => ⟨fun h => ?_, fun h hsp => ?_, fun h hsp hmem => ?_⟩⟩
  · rw [exec_store_of_beyond h]
    exact takeFault_faultsFrom ..
  · rw [exec_store_of_zero h hsp]
    exact takeFault_faultsFrom ..
  · exact ⟨_, exec_store_of_fits h hsp, bytesStored_cellsWrite hmem _ _ _ _⟩

/-- Settles O27: either form of the address lies beyond the one bounds check, since s is at least 1, and the fault entry
leaves the stacks and Memory alone. -/
theorem boundsScenario : Obligations.BoundsScenario := by
  intro n addr s hbeyond i hi
  have hpos := n.bytes_pos
  have h : addr.toNat + n.bytes > s.cfg.memCap := by omega
  have hfault : exec i s = .next (takeFault .outOfBounds addr s) := by
    rcases List.mem_pair.mp hi with rfl | rfl
    · exact exec_load_of_beyond h
    · exact exec_store_of_beyond h
  exact ⟨_, hfault, rfl, rfl, rfl, rfl, rfl, rfl⟩

end Sys2Proof.Machine
end

section
/-! The frame-relative family: LOAD_FRAME and STORE_FRAME (42_frame_load_store.md). -/

namespace Sys2Proof.Machine

open Sys2Proof.Claims

theorem opcodeOf_loadFrame (n : Size) (off : Word) : opcodeOf decodeTable (.loadFrame n off) = 0x20#8 + ss n := by
  cases n <;> rfl

theorem opcodeOf_storeFrame (n : Size) (off : Word) : opcodeOf decodeTable (.storeFrame n off) = 0x24#8 + ss n := by
  cases n <;> rfl

/-! ### The address fp − off -/

section
variable {s : State} {n : Size} {off : Word}

theorem frameAddr_of_gt (h : off.toNat > s.fp.toNat) : frameAddr off s = .raise .outOfBounds (s.fp - off) s := if_pos h

theorem frameAddr_of_le (h : off.toNat ≤ s.fp.toNat) : frameAddr off s = .ok (s.fp - off) s := if_neg (by omega)

theorem csRead_of_beyond {addr : Word} (h : addr.toNat + n.bytes > s.cfg.csCap) :
    csRead addr n s = .raise .outOfBounds addr s := by
  rw [csRead, checkBounds_of_beyond h, Res.bind_raise]

/-- With off > fp, or with bytes beyond the Call Stack in an access that checks for them first, the address fp − off is
the fault's INFO (R120, R121). -/
theorem frameAddr_bind_of_beyond {f : Word → State → Res Unit}
    (hf : ∀ ea : Word, ea.toNat + n.bytes > s.cfg.csCap → f ea s = .raise .outOfBounds ea s)
    (h : off.toNat > s.fp.toNat ∨ off.toNat ≤ s.fp.toNat ∧ s.fp.toNat - off.toNat + n.bytes > s.cfg.csCap) :
    (frameAddr off s).bind f = .raise .outOfBounds (s.fp - off) s := by
  rcases h with hgt | ⟨hle, hcap⟩
  · rw [frameAddr_of_gt hgt, Res.bind_raise]
  · rw [frameAddr_of_le hle, Res.bind_ok, hf _ (by rwa [toNat_sub_of_le hle])]

/-! ### LOAD_FRAME -/

/-- LOAD_FRAME.s checks its address first (R120, D20). -/
theorem exec_loadFrame_of_beyond
    (h : off.toNat > s.fp.toNat ∨ off.toNat ≤ s.fp.toNat ∧ s.fp.toNat - off.toNat + n.bytes > s.cfg.csCap) :
    exec (.loadFrame n off) s = .next (takeFault .outOfBounds (s.fp - off) s) := by
  rw [exec, execLoadFrame, frameAddr_bind_of_beyond (fun _ hea => by rw [csRead_of_beyond hea, Res.bind_raise]) h,
    finish_raise]

/-- LOAD_FRAME.s within the Call Stack pushes the Word read from the s bytes (R120). -/
theorem exec_loadFrame_of_fits (hoff : off.toNat ≤ s.fp.toNat)
    (hcap : s.fp.toNat - off.toNat + n.bytes ≤ s.cfg.csCap) (hr : Readable s (s.fp.toNat - off.toNat) n.bytes) :
    exec (.loadFrame n off) s =
      finish s (push (wordOfBytes s.cfg.byteOrder (cellsRead s.cs (s.fp.toNat - off.toNat) n.bytes)) s) := by
  rw [← toNat_sub_of_le hoff] at hcap hr ⊢
  rw [exec, execLoadFrame, frameAddr_of_le hoff, Res.bind_ok, csRead_of_readable hcap hr, Res.bind_ok]

/-! ### STORE_FRAME -/

/-- STORE_FRAME.s checks its address first (R121, D20). -/
theorem exec_storeFrame_of_beyond
    (h : off.toNat > s.fp.toNat ∨ off.toNat ≤ s.fp.toNat ∧ s.fp.toNat - off.toNat + n.bytes > s.cfg.csCap) :
    exec (.storeFrame n off) s = .next (takeFault .outOfBounds (s.fp - off) s) := by
  rw [exec, execStoreFrame,
    frameAddr_bind_of_beyond (fun _ hea => by rw [checkBounds_of_beyond hea, Res.bind_raise]) h, finish_raise]

section
variable (hoff : off.toNat ≤ s.fp.toNat) (hcap : s.fp.toNat - off.toNat + n.bytes ≤ s.cfg.csCap)
include hoff hcap

/-- Within the Call Stack STORE_FRAME.s is the pop, then the write (R121). -/
theorem exec_storeFrame_of_fits :
    exec (.storeFrame n off) s = finish s ((pop s).bind fun v t => csWrite (s.fp - off) n v t) := by
  rw [← toNat_sub_of_le hoff] at hcap
  rw [exec, execStoreFrame, frameAddr_of_le hoff, Res.bind_ok, checkBounds_of_fits hcap, Res.bind_ok]

theorem exec_storeFrame_of_zero (hsp : s.sp.toNat = 0) :
    exec (.storeFrame n off) s = .next (takeFault .stackUnderflow 0#64 s) := by
  rw [exec_storeFrame_of_fits hoff hcap, pop_of_zero hsp, Res.bind_raise, finish_raise]

theorem exec_storeFrame_of_pos (hsp : 1 ≤ s.sp.toNat) :
    exec (.storeFrame n off) s = .next (csStored (s.fp.toNat - off.toNat) n (below s 0) (popped s)) := by
  rw [exec_storeFrame_of_fits hoff hcap, pop_of_pos hsp, Res.bind_ok, csWrite_of_le, finish_ok, toNat_sub_of_le hoff]
  · rfl
  · rwa [toNat_sub_of_le hoff]

end

end

/-- Settles O29: the two address checks, then one Push of the value read. -/
theorem loadFrameRule : Obligations.LoadFrameRule := by
  refine fun n off => ⟨encodedWith_of_imm (n := .s8) rfl (opcodeOf_loadFrame n off) rfl, fun s =>
    ⟨fun hgt => ?_, fun hle hcap => ?_, fun hle hcap hr hsp => ?_, fun hle hcap hr hsp => ?_⟩⟩
  · rw [exec_loadFrame_of_beyond (.inl hgt)]
    exact takeFault_faultsFrom ..
  · rw [exec_loadFrame_of_beyond (.inr ⟨hle, hcap⟩)]
    exact takeFault_faultsFrom ..
  · rw [exec_loadFrame_of_fits hle hcap hr]
    exact finish_push_faultsFrom_of_full _ hsp
  · rw [exec_loadFrame_of_fits hle hcap hr, finish_push_of_room _ hsp,
      ← wordOfBytes_cellsRead_toNat _ _ _ n.bytes_le, BitVec.ofNat_toNat, BitVec.setWidth_eq]

/-- Settles O30: the two address checks, then the pop, then the write, which bytesStored_cellsWrite and
marked_cellsWrite describe byte by byte. -/
theorem storeFrameRule : Obligations.StoreFrameRule := by
  refine fun n off => ⟨encodedWith_of_imm (n := .s8) rfl (opcodeOf_storeFrame n off) rfl, fun s =>
    ⟨fun hgt => ?_, fun hle hcap => ?_, fun hle hcap hsp => ?_, fun hle hcap hsp hcs hmarks => ?_⟩⟩
  · rw [exec_storeFrame_of_beyond (.inl hgt)]
    exact takeFault_faultsFrom ..
  · rw [exec_storeFrame_of_beyond (.inr ⟨hle, hcap⟩)]
    exact takeFault_faultsFrom ..
  · rw [exec_storeFrame_of_zero hle hcap hsp]
    exact takeFault_faultsFrom ..
  · exact ⟨_, _, exec_storeFrame_of_pos hle hcap hsp, bytesStored_cellsWrite hcs _ _ _ _, marked_cellsWrite hmarks _ _⟩

/-! ### The parts of a frame (R122) -/

/-- A run of bytes within a readable run is readable. -/
theorem readable_of_within {s : State} {a b m n : Nat} (h : Readable s a m) (hab : a ≤ b) (hbn : b + n ≤ a + m) :
    Readable s b n := by
  refine h.imp_right fun hmarks i hi => ?_
  have hmark := hmarks (b - a + i) (by omega)
  rwa [show a + (b - a + i) = b + i by omega] at hmark

section
variable {s : State} {base size : Nat} (hfp : s.fp.toNat = base + size) (hcap : s.fp.toNat ≤ s.cfg.csCap)
  (hread : Readable s base size) (hsp : s.sp.toNat < s.cfg.osCap)
include hfp hcap hread hsp

/-- LOAD_FRAME at the offset from fp of an address a, with its s bytes between base and fp, pushes the Word they give. -/
theorem exec_loadFrame_of_within {n : Size} {a k : Nat} (hk : a + k = s.fp.toNat) (ha : base ≤ a)
    (han : n.bytes ≤ k) :
    exec (.loadFrame n (BitVec.ofNat 64 k)) s =
      .next (withPushed (wordOfBytes s.cfg.byteOrder (cellsRead s.cs a n.bytes)) s) := by
  have hoff : (BitVec.ofNat 64 k).toNat = k := by
    rw [BitVec.toNat_ofNat, Nat.mod_eq_of_lt (by have := s.fp.isLt; omega)]
  have hea : s.fp.toNat - (BitVec.ofNat 64 k).toNat = a := by omega
  rw [exec_loadFrame_of_fits (by omega) (by omega) (hea ▸ readable_of_within hread ha (by omega)),
    finish_push_of_room _ (by omega), hea]

theorem exec_loadFrame_of_wordAt {a k : Nat} {v : Word} (hv : WordAt s.cfg.byteOrder s.cs a v)
    (hk : a + k = s.fp.toNat) (ha : base ≤ a) (h8 : 8 ≤ k) :
    exec (.loadFrame .s8 (BitVec.ofNat 64 k)) s = .next (withPushed v s) := by
  rw [exec_loadFrame_of_within (n := .s8) hfp hcap hread hsp hk ha h8, Size.bytes, (wordAt_iff _ _ _ _).mp hv]

theorem exec_loadFrame_of_byte {a k : Nat} (hk : a + k = s.fp.toNat) (ha : base ≤ a) (h1 : 1 ≤ k) :
    exec (.loadFrame .s1 (BitVec.ofNat 64 k)) s = .next (withPushed ((cellGet s.cs a).setWidth 64) s) := by
  rw [exec_loadFrame_of_within (n := .s1) hfp hcap hread hsp hk ha h1, ← wordOfBytes_one s.cfg.byteOrder]
  rfl

end

/-- Settles O32: each offset of R122's table, subtracted from fp, is the address R190 gives the part. -/
theorem frameOffsets : Obligations.FrameOffsets := by
  intro s base n l args r hinv hfp ⟨hargs, hnum, hsize, hret⟩ hread hsp
  have hword {a k : Nat} {v : Word} := exec_loadFrame_of_wordAt hfp hinv.fpLe hread hsp (a := a) (k := k) (v := v)
  rw [frameBytes] at hfp
  refine ⟨fun i hi => ?_, ?_, fun j hj => ?_, ?_, ?_⟩
  · exact hword (hargs i hi) (by omega) (by omega) (by omega)
  · exact hword hnum (by omega) (by omega) (by omega)
  · exact exec_loadFrame_of_byte hfp hinv.fpLe hread hsp (by omega) (by omega) (by omega)
  · exact hword hsize (by omega) (by omega) (by omega)
  · exact hword hret (by omega) (by omega) (by omega)

end Sys2Proof.Machine
end

section
/-! The stack manipulation family: POP, DUP and SWAP (43_stack.md). -/

namespace Sys2Proof.Machine

open Sys2Proof.Claims

/-! ### Two cells exchanged -/

/-- Writing to each of two cells what the other held exchanges them; where the two are one, nothing changes. -/
theorem cellGet_exchanged {w : Nat} {c : List (Nat × BitVec w)} (h : cellsWf c = true) (a b i : Nat) :
    cellGet (cellSet (cellSet c a (cellGet c b)) b (cellGet c a)) i =
      if i = a then cellGet c b else if i = b then cellGet c a else cellGet c i := by
  rw [cellGet_cellSet (cellSet_wf h _ _), cellGet_cellSet h]
  by_cases hb : i = b
  · by_cases ha : i = a
    · rw [if_pos hb, if_pos ha, ← ha, ← hb]
    · rw [if_pos hb, if_neg ha, if_pos hb]
  · rw [if_neg hb, if_neg hb]

section
variable {s : State} {k : Word}

/-! ### POP -/

theorem exec_pop_of_zero (h : s.sp.toNat = 0) : exec .pop s = .next (takeFault .stackUnderflow 0#64 s) := by
  rw [exec, execPop, unary_of_zero _ h, finish_raise]

theorem exec_pop_of_pos (h : 1 ≤ s.sp.toNat) : exec .pop s = .next (popped s) := by
  rw [exec, execPop, unary_of_pos _ h, finish_ok]

/-! ### DUP -/

/-- DUP's Peek is first, so that its check precedes the push's (R131). -/
theorem exec_dup_of_le (h : s.sp.toNat ≤ k.toNat) :
    exec (.dup k) s = .next (takeFault .stackUnderflow k s) := by
  rw [exec, execDup, peek, if_pos h, Res.bind_raise, finish_raise]

theorem exec_dup_of_lt (h : k.toNat < s.sp.toNat) :
    exec (.dup k) s = finish s (push (below s k.toNat) s) := by
  rw [exec, execDup, peek, if_neg (by omega), Res.bind_ok, stackAt_eq h, below]

/-! ### SWAP -/

theorem exec_swap_of_le (h : s.sp.toNat ≤ k.toNat) :
    exec (.swap k) s = .next (takeFault .stackUnderflow k s) := by
  rw [exec, execSwap, swapTop, if_pos h, finish_raise]

/-- SWAP writes the top's cell and the one k below it (R34), with the indexes in the natural numbers. -/
theorem exec_swap_of_lt (h : k.toNat < s.sp.toNat) :
    exec (.swap k) s = .next { s with
      os := cellSet (cellSet s.os (s.sp.toNat - 1) (below s k.toNat)) (s.sp.toNat - 1 - k.toNat) (below s 0) } := by
  have htop : (s.sp - 1#64).toNat = s.sp.toNat - 1 := toNat_sub_of_le (by simp; omega)
  have hother : (s.sp - 1#64 - k).toNat = s.sp.toNat - 1 - k.toNat := by
    rw [toNat_sub_of_le (by omega), htop]
  rw [exec, execSwap, swapTop, if_neg (by omega), finish_ok, stackAt_eq h, stackAt_eq (by simp; omega), htop, hother]
  rfl

end

/-- Settles O33: POP is one Pop, DUP a Peek and then a Push, and SWAP exchanges two cells (cellGet_exchanged). -/
theorem stackManipulationRules : Obligations.StackManipulationRules := by
  refine ⟨encodedAsOne_of_no_imm rfl rfl, fun s h => ?_, fun s => exec_pop_of_pos, fun k =>
    ⟨encodedWith_of_imm (n := .s8) rfl rfl rfl, encodedWith_of_imm (n := .s8) rfl rfl rfl,
      fun s => ⟨fun h => ⟨?_, ?_⟩, fun h hfull => ?_, fun h hroom => ?_, fun h hos => ?_⟩⟩⟩
  · rw [exec_pop_of_zero h]
    exact takeFault_faultsFrom ..
  · rw [exec_dup_of_le h]
    exact takeFault_faultsFrom ..
  · rw [exec_swap_of_le h]
    exact takeFault_faultsFrom ..
  · rw [exec_dup_of_lt h]
    exact finish_push_faultsFrom_of_full _ hfull
  · rw [exec_dup_of_lt h, finish_push_of_room _ hroom]
  · exact ⟨_, exec_swap_of_lt h, cellGet_exchanged hos _ _⟩

end Sys2Proof.Machine
end

section
/-! The arithmetic family: ADD, SUB, MUL, DIV, MOD and NEG (44_arithmetic.md), from rules for every operator on one or
two operands (00_scope.md R15, R16). -/

namespace Sys2Proof.Machine

open Sys2Proof.Claims

/-! ### Operators on two operands -/

section
variable {i : Instr} {op : Byte} {s : State}

/-- A result takes the left operand's cell: the two pops made room for its push. -/
theorem push_after_two_pops (v : Word) (h2 : 2 ≤ s.sp.toNat) (hcap : s.sp.toNat ≤ s.cfg.osCap) :
    push v { s with sp := s.sp - 2#64 } =
      .ok () { s with sp := s.sp - 1#64, os := cellSet s.os (s.sp.toNat - 2) v } := by
  have hsp : (s.sp - 2#64).toNat = s.sp.toNat - 2 := toNat_sub_of_le h2
  have hroom : (s.sp - 2#64).toNat ≠ s.cfg.osCap := by omega
  have hnext : s.sp - 2#64 + 1#64 = s.sp - 1#64 := by bv_omega
  rw [push_of_room (s := { s with sp := s.sp - 2#64 }) v hroom, pushed, hsp, hnext]

section
variable {g : Word → Word → State → Res Unit} (hexec : ∀ s, exec i s = finish s (binary g s))
include hexec

/-- The second pop's underflow does not give the first Word back (D19). -/
theorem binaryUnderflows_of_exec : BinaryUnderflows i := by
  refine ⟨fun s h => ?_, fun s h => ?_⟩
  · rw [hexec, binary_of_zero g h, finish_raise]
    exact takeFault_faultsFrom ..
  · rw [hexec, binary_of_one g h, finish_raise]
    exact takeFault_faultsFrom ..

/-- With two Words or more the operator sees the two top ones, and they are gone. -/
theorem exec_of_two (h2 : 2 ≤ s.sp.toNat) :
    exec i s = finish s (g (below s 1) (below s 0) { s with sp := s.sp - 2#64 }) := by
  rw [hexec, binary_of_two g h2, below, below, Nat.sub_sub, Nat.sub_zero]

/-- An operator that pushes a Word of value f on the operands that are good meets the rule of binary operators. -/
theorem binaryRule_of_exec {good : Nat → Nat → Prop} {f : Nat → Nat → Nat} (himm : i.imm = none)
    (hop : opcodeOf decodeTable i = op)
    (hg : ∀ a b t, good a.toNat b.toNat → ∃ v : Word, v.toNat = f a.toNat b.toNat ∧ g a b t = push v t) :
    BinaryRule i op good f := by
  refine ⟨encodedAsOne_of_no_imm himm hop, binaryUnderflows_of_exec hexec, fun s h2 hcap hgood => ?_⟩
  obtain ⟨v, hv, hpush⟩ := hg _ _ { s with sp := s.sp - 2#64 } hgood
  rw [exec_of_two hexec h2, hpush, push_after_two_pops v h2 hcap, finish_ok, ← hv, BitVec.ofNat_toNat, BitVec.setWidth_eq]

/-- An operator that raises on a bad right operand does so with both operands gone. -/
theorem operandFaults_of_exec {c : Cause} {info : Word → Word} {bad : Word → Prop}
    (hg : ∀ a b t, bad b → g a b t = .raise c (info b) t) : OperandFaults i c info bad := by
  intro s h2 hbad
  rw [exec_of_two hexec h2, hg _ _ _ hbad, finish_raise]
  exact takeFault_faultsFrom ..

end

/-! ### Operators on one operand -/

/-- A result takes its operand's cell, and sp is as before. -/
theorem push_after_pop (v : Word) (h1 : 1 ≤ s.sp.toNat) (hcap : s.sp.toNat ≤ s.cfg.osCap) :
    push v (popped s) = .ok () { s with os := cellSet s.os (s.sp.toNat - 1) v } := by
  have hsp : (s.sp - 1#64).toNat = s.sp.toNat - 1 := toNat_sub_of_le h1
  rw [push_of_room v (by rw [popped_sp, hsp, popped_cfg]; omega)]
  simp only [pushed, popped, hsp, BitVec.sub_add_cancel]

/-- An operator that pushes a Word of value f meets the rule of unary operators. -/
theorem unaryRule_of_exec {g : Word → Word} {f : Nat → Nat} (hexec : ∀ s, exec i s = finish s (unaryPush g s))
    (himm : i.imm = none) (hop : opcodeOf decodeTable i = op) (hg : ∀ n, (g n).toNat = f n.toNat) :
    UnaryRule i op f := by
  refine ⟨encodedAsOne_of_no_imm himm hop, fun s h => ?_, fun s h1 hcap => ?_⟩
  · rw [hexec, unaryPush, unary_of_zero _ h, finish_raise]
    exact takeFault_faultsFrom ..
  · rw [hexec, unaryPush, unary_of_pos _ h1, push_after_pop _ h1 hcap, finish_ok, ← hg, BitVec.ofNat_toNat,
      BitVec.setWidth_eq]
    rfl

end

/-! ### ADD, SUB, MUL and NEG -/

/-- SUB subtracts the right operand from the left one (R141). -/
theorem sub_toNat (a b : Word) : (a - b).toNat = (2 ^ 64 + a.toNat - b.toNat) % 2 ^ 64 := by
  have hb := b.isLt
  rw [BitVec.toNat_sub, ← Nat.sub_add_comm hb.le]

/-- NEG's ~n + 1 is the two's complement (R145). -/
theorem not_add_one_toNat (n : Word) : (~~~n + 1#64).toNat = (2 ^ 64 - n.toNat) % 2 ^ 64 := by
  rw [← BitVec.neg_eq_not_add, BitVec.toNat_neg]

/-- Settles O34: each result is the model's operator on Words, whose value is the natural number of R140 to R145. -/
theorem arithmeticRules : Obligations.ArithmeticRules :=
  ⟨binaryRule_of_exec (fun _ => rfl) rfl rfl fun a b _ _ => ⟨_, BitVec.toNat_add a b, rfl⟩,
    binaryRule_of_exec (fun _ => rfl) rfl rfl fun a b _ _ => ⟨_, sub_toNat a b, rfl⟩,
    binaryRule_of_exec (fun _ => rfl) rfl rfl fun a b _ _ => ⟨_, BitVec.toNat_mul a b, rfl⟩,
    unaryRule_of_exec (fun _ => rfl) rfl rfl not_add_one_toNat⟩

/-! ### DIV and MOD -/

theorem divideWith_of_zero (f : Word → Word → Word) (a b : Word) (t : State) (h : b = 0#64) :
    divideWith f a b t = .raise .divideByZero 0#64 t := if_pos h

theorem divideWith_of_ne_zero (f : Word → Word → Word) {a b : Word} (t : State) (h : b.toNat ≠ 0) :
    divideWith f a b t = push (f a b) t := if_neg fun e => h (by rw [e]; rfl)

/-- MOD is what the quotient leaves of the left operand (R144). -/
theorem umod_toNat (a b : Word) : (a % b).toNat = a.toNat - b.toNat * (a.toNat / b.toNat) := by
  rw [BitVec.toNat_umod, Nat.mod_eq_sub]

/-- Settles O35: divideWith looks at the divisor after both pops; it raises on 0 and pushes the result otherwise. -/
theorem divisionRules : Obligations.DivisionRules :=
  ⟨binaryRule_of_exec (fun _ => rfl) rfl rfl fun _ _ t h => ⟨_, BitVec.toNat_udiv, divideWith_of_ne_zero _ t h⟩,
    binaryRule_of_exec (fun _ => rfl) rfl rfl fun a b t h => ⟨_, umod_toNat a b, divideWith_of_ne_zero _ t h⟩,
    operandFaults_of_exec (fun _ => rfl) (divideWith_of_zero _),
    operandFaults_of_exec (fun _ => rfl) (divideWith_of_zero _)⟩

end Sys2Proof.Machine
end

section
/-! The bitwise family: AND, OR, XOR, NOT, SHL and SHR (45_bitwise.md), by the rules for operators of the arithmetic
family. -/

namespace Sys2Proof.Machine

open Sys2Proof.Claims

/-! ### AND, OR, XOR and NOT -/

/-- Settles O36: each result is the model's bit operation on Words, whose value is the natural number of R150 to R153. -/
theorem bitwiseRules : Obligations.BitwiseRules :=
  ⟨binaryRule_of_exec (fun _ => rfl) rfl rfl fun a b _ _ => ⟨_, BitVec.toNat_and a b, rfl⟩,
    binaryRule_of_exec (fun _ => rfl) rfl rfl fun a b _ _ => ⟨_, BitVec.toNat_or a b, rfl⟩,
    binaryRule_of_exec (fun _ => rfl) rfl rfl fun a b _ _ => ⟨_, BitVec.toNat_xor a b, rfl⟩,
    unaryRule_of_exec (fun _ => rfl) rfl rfl fun _ => BitVec.toNat_not⟩

/-! ### SHL and SHR -/

theorem shiftWith_of_ge (f : Word → Nat → Word) (a b : Word) (t : State) (h : 64 ≤ b.toNat) :
    shiftWith f a b t = .raise .shiftOutOfRange b t := if_pos h

theorem shiftWith_of_lt (f : Word → Nat → Word) {a b : Word} (t : State) (h : b.toNat < 64) :
    shiftWith f a b t = push (f a b.toNat) t := if_neg h.not_ge

/-- A left shift by n multiplies by 2^n modulo 2^64 (R154). -/
theorem shiftLeft_toNat (a : Word) (n : Nat) : (a <<< n).toNat = (a.toNat * 2 ^ n) % 2 ^ 64 := by
  rw [BitVec.toNat_shiftLeft, Nat.shiftLeft_eq]

/-- A logical right shift by n is the unsigned quotient by 2^n (R155). -/
theorem shiftRight_toNat (a : Word) (n : Nat) : (a >>> n).toNat = a.toNat / 2 ^ n := by
  rw [BitVec.toNat_ushiftRight, Nat.shiftRight_eq_div_pow]

/-- Settles O37: shiftWith looks at the amount after both pops; it raises from 64 on and pushes the result below. -/
theorem shiftRules : Obligations.ShiftRules :=
  ⟨binaryRule_of_exec (fun _ => rfl) rfl rfl fun a b t h => ⟨_, shiftLeft_toNat a b.toNat, shiftWith_of_lt _ t h⟩,
    binaryRule_of_exec (fun _ => rfl) rfl rfl fun a b t h => ⟨_, shiftRight_toNat a b.toNat, shiftWith_of_lt _ t h⟩,
    operandFaults_of_exec (fun _ => rfl) (shiftWith_of_ge _),
    operandFaults_of_exec (fun _ => rfl) (shiftWith_of_ge _)⟩

end Sys2Proof.Machine
end

section
/-! The comparison family: EQ, NE, LT, LE, GT and GE (46_comparison.md), by the rules for operators of the arithmetic
family. -/

namespace Sys2Proof.Machine

open Sys2Proof.Claims

/-- The Word a comparison pushes has the value 1 when its relation, in the form q on the operands' values, holds. -/
theorem truthWord_decide_toNat {p q : Prop} [Decidable p] [Decidable q] (h : p ↔ q) :
    (truthWord (decide p)).toNat = if q then 1 else 0 := by
  by_cases hq : q
  · rw [if_pos hq, decide_eq_true (h.mpr hq)]
    rfl
  · rw [if_neg hq, decide_eq_false (mt h.mp hq)]
    rfl

/-- Settles O38: EQ and NE compare the Words, which are equal exactly when their values are; the four ordering
comparisons compare the values themselves. -/
theorem comparisonRules : Obligations.ComparisonRules :=
  ⟨binaryRule_of_exec (fun _ => rfl) rfl rfl fun _ _ _ _ => ⟨_, truthWord_decide_toNat BitVec.toNat_inj.symm, rfl⟩,
    binaryRule_of_exec (fun _ => rfl) rfl rfl fun _ _ _ _ =>
      ⟨_, truthWord_decide_toNat BitVec.toNat_ne_iff_ne.symm, rfl⟩,
    binaryRule_of_exec (fun _ => rfl) rfl rfl fun _ _ _ _ => ⟨_, truthWord_decide_toNat .rfl, rfl⟩,
    binaryRule_of_exec (fun _ => rfl) rfl rfl fun _ _ _ _ => ⟨_, truthWord_decide_toNat .rfl, rfl⟩,
    binaryRule_of_exec (fun _ => rfl) rfl rfl fun _ _ _ _ => ⟨_, truthWord_decide_toNat .rfl, rfl⟩,
    binaryRule_of_exec (fun _ => rfl) rfl rfl fun _ _ _ _ => ⟨_, truthWord_decide_toNat .rfl, rfl⟩⟩

end Sys2Proof.Machine
end

section
/-! The input and output family: OUT_NUM, OUT_CHAR, IN_NUM and IN_CHAR (47_io.md). -/

namespace Sys2Proof.Machine

open Sys2Proof.Claims

/-! ### The decimal text -/

/-- With as much fuel as there are digits, decimalOnto puts the digits of a number other than 0 before the bytes
given. -/
theorem decimalOnto_of_lt {k n : Nat} (acc : List Byte) (h0 : n ≠ 0) (h : n < 10 ^ k) :
    decimalOnto k n acc = ((Nat.digits 10 n).reverse.map fun d => BitVec.ofNat 8 (0x30 + d)) ++ acc := by
  induction k generalizing n acc with
  | zero => exact absurd (Nat.lt_one_iff.mp h) h0
  | succ k ih =>
    rw [decimalOnto]
    by_cases hn : n < 10
    · rw [if_pos hn, Nat.digits_of_lt 10 n h0 hn]
      rfl
    · have hdiv : n / 10 < 10 ^ k := Nat.div_lt_of_lt_mul (by rwa [← Nat.pow_succ'])
      have hdigits : Nat.digits 10 n = n % 10 :: Nat.digits 10 (n / 10) := Nat.digits_def' (by decide) (by omega)
      rw [if_neg hn, ih _ (by omega) hdiv, hdigits]
      simp

/-- The model's text of a Word is R172's: 20 digits are enough. -/
theorem decimal_eq_decimalText (v : Word) : decimal v = decimalText v := by
  rw [decimal, decimalText]
  by_cases h0 : v.toNat = 0
  · rw [if_pos h0, h0]
    rfl
  · rw [if_neg h0, decimalOnto_of_lt [] h0 (v.isLt.trans (by decide)), List.append_nil]

/-! ### OUT_NUM and OUT_CHAR -/

/-- An instruction that starts with the one Pop of its operand underflows with it. -/
theorem popUnderflows_of_exec {i : Instr} {g : Word → State → Res Unit} (hexec : ∀ s, exec i s = finish s (unary g s)) :
    PopUnderflows i := by
  intro s h
  rw [hexec, unary_of_zero g h, finish_raise]
  exact takeFault_faultsFrom ..

section
variable {s : State}

theorem emit_of_ready (bytes : List Byte) (h : s.outReady = true) :
    emit bytes s = .ok () { s with out := s.out ++ bytes } := if_pos h

theorem emit_of_not_ready (bytes : List Byte) (h : s.outReady = false) : emit bytes s = .hold :=
  if_neg (by rw [h]; decide)

theorem exec_outNum_of_pos (h : 1 ≤ s.sp.toNat) :
    exec .outNum s = finish s (emit (decimalText (below s 0) ++ s.cfg.outNumSuffix) (popped s)) := by
  rw [exec, execOutNum, unary_of_pos _ h, decimal_eq_decimalText]
  rfl

theorem exec_outChar_of_pos (h : 1 ≤ s.sp.toNat) :
    exec .outChar s = finish s (emit [(below s 0).extractLsb' 0 8] (popped s)) := by
  rw [exec, execOutChar, unary_of_pos _ h, BitVec.truncate_eq_setWidth, BitVec.setWidth_eq_extractLsb' (by decide)]
  rfl

/-! ### IN_NUM and IN_CHAR -/

theorem takeInput_of_cons {v : Word} {rest : List Word} (h : s.input = v :: rest) :
    takeInput s = .ok v { s with input := rest, inPos := s.inPos + 1 } := by
  rw [takeInput, h]

theorem takeInput_of_nil (h : s.input = []) : takeInput s = .hold := by
  rw [takeInput, h]

/-- Both input instructions push what they take (R174, R175). -/
theorem exec_input {i : Instr} (hi : i ∈ [Instr.inNum, Instr.inChar]) :
    exec i s = finish s ((takeInput s).bind push) := by
  rcases List.mem_pair.mp hi with rfl | rfl <;> rfl

end

/-- Settles O39: the operand is popped, then its text (decimal_eq_decimalText) or its low byte is emitted. -/
theorem outputRules : Obligations.OutputRules := by
  refine ⟨encodedAsOne_of_no_imm rfl rfl, encodedAsOne_of_no_imm rfl rfl, popUnderflows_of_exec fun _ => rfl,
    popUnderflows_of_exec fun _ => rfl, fun s hsp hready => ⟨?_, ?_⟩⟩
  · rw [exec_outNum_of_pos hsp, emit_of_ready (s := popped s) _ hready]
    rfl
  · rw [exec_outChar_of_pos hsp, emit_of_ready (s := popped s) _ hready]
    rfl

/-- Settles O40: the value is taken before the Push, so a Push that raises finds it gone. -/
theorem inputRules : Obligations.InputRules := by
  refine ⟨encodedAsOne_of_no_imm rfl rfl, encodedAsOne_of_no_imm rfl rfl, fun i hi s v rest hv => ?_⟩
  rw [exec_input hi, takeInput_of_cons hv, Res.bind_ok]
  refine ⟨fun hroom => ?_, fun hfull => ?_⟩
  · rw [push_of_room (s := { s with input := rest, inPos := s.inPos + 1 }) v hroom]
    rfl
  · rw [push_of_full (s := { s with input := rest, inPos := s.inPos + 1 }) v hfull]
    exact takeFault_faultsFrom ..

/-- Settles O41: Input() and Emit() wait, and an instruction that waits gives up its fetch and its pop (holdAt). -/
theorem heldWhileTheHostIsNotReady : Obligations.HeldWhileTheHostIsNotReady := by
  intro s
  refine ⟨fun hinput => ?_, fun hsp hready => ⟨?_, ?_⟩⟩
  · have hheld (i : Instr) (hi : i ∈ [Instr.inNum, Instr.inChar]) : HeldFrom (exec i s) s := by
      rw [exec_input hi, takeInput_of_nil hinput]
      rfl
    exact ⟨hheld .inNum (by decide), hheld .inChar (by decide)⟩
  · rw [exec_outNum_of_pos hsp, emit_of_not_ready (s := popped s) _ hready]
    rfl
  · rw [exec_outChar_of_pos hsp, emit_of_not_ready (s := popped s) _ hready]
    rfl

end Sys2Proof.Machine
end

section
/-! The jump family: JMP, JZ and JNZ (48_jump.md). -/

namespace Sys2Proof.Machine

open Sys2Proof.Claims

variable {s : State} {target : Word}

/-- JZ jumps on the value 0 and goes on behind itself otherwise; the condition is gone either way (R181). -/
theorem exec_jz_of_pos (h : 1 ≤ s.sp.toNat) :
    exec (.jz target) s = .next { s with
      sp := s.sp - 1#64, ip := if (below s 0).toNat = 0 then target else s.ip } := by
  rw [exec, execJz, unary_of_pos _ h]
  by_cases hc : (below s 0).toNat = 0
  · rw [if_pos (BitVec.eq_of_toNat_eq hc), if_pos hc]
    rfl
  · rw [if_neg fun he => hc (congrArg BitVec.toNat he), if_neg hc]
    rfl

/-- JNZ is JZ with the two ways exchanged (R182). -/
theorem exec_jnz_of_pos (h : 1 ≤ s.sp.toNat) :
    exec (.jnz target) s = .next { s with
      sp := s.sp - 1#64, ip := if (below s 0).toNat = 0 then s.ip else target } := by
  rw [exec, execJnz, unary_of_pos _ h]
  by_cases hc : (below s 0).toNat = 0
  · rw [if_neg (not_not_intro (BitVec.eq_of_toNat_eq hc)), if_pos hc]
    rfl
  · rw [if_pos fun he => hc (congrArg BitVec.toNat he), if_neg hc]
    rfl

/-- Settles O42: a jump writes ip unchecked (R183), so a target beyond Memory is the next fetch's fault. -/
theorem jumpRules : Obligations.JumpRules := by
  refine fun target => ⟨encodedWith_of_imm (n := .s8) rfl rfl rfl, encodedWith_of_imm (n := .s8) rfl rfl rfl,
    encodedWith_of_imm (n := .s8) rfl rfl rfl, popUnderflows_of_exec fun _ => rfl, popUnderflows_of_exec fun _ => rfl,
    fun s => ⟨rfl, fun hsp => ⟨exec_jz_of_pos hsp, exec_jnz_of_pos hsp⟩, fun hr hcap => ?_⟩⟩
  have hfetch := fetchDecode_of_beyond (s := { s with ip := target }) hcap
  exact step_faultsFrom_of_fetch hr hfetch

end Sys2Proof.Machine
end

section
/-! CALL (49_call_return.md R190 to R194): the descriptor's three reads, then PushFrame, one lemma for each way it
ends. -/

namespace Sys2Proof.Machine

open Sys2Proof.Claims

/-! ### A Word written to the Call Stack (R57) -/

section
variable {s : State} {a : Nat} (v : Word)

theorem csStored_keeps_cs_wf (h : Memory.wf s.cs = true) (n : Size) : Memory.wf (csStored a n v s).cs = true :=
  cellsWrite_wf h _ _

theorem csStored_keeps_csWritten_wf (h : cellsWf s.csWritten = true) (n : Size) :
    cellsWf (csStored a n v s).csWritten = true := cellsWrite_wf h _ _

theorem wordAt_csStored_same (h : Memory.wf s.cs = true) :
    WordAt s.cfg.byteOrder (csStored a .s8 v s).cs a v := by
  intro i hi
  rw [csStored_cs, Size.bytes, cellGet_stored h, if_pos (by omega), Nat.add_sub_cancel_left, byteOf]

theorem cellGet_csStored_outside {x : Nat} (hx : x < a ∨ a + 8 ≤ x) :
    cellGet (csStored a .s8 v s).cs x = cellGet s.cs x :=
  cellGet_cellsWrite_outside s.cs _ (by rwa [bytesOfWord_length])

theorem wordAt_csStored_apart {o : ByteOrder} {b : Nat} {w : Word} (h : WordAt o s.cs b w)
    (hab : b + 8 ≤ a ∨ a + 8 ≤ b) : WordAt o (csStored a .s8 v s).cs b w := by
  intro i hi
  rw [cellGet_csStored_outside v (by omega), h i hi]

theorem marked_csStored (h : cellsWf s.csWritten = true) :
    Marked s.csWritten (csStored a .s8 v s).csWritten fun x => a ≤ x ∧ x < a + 8 := marked_cellsWrite h a 8

end

/-! ### Marks -/

section
variable {w w' w'' : Marks} {p q : Nat → Prop}

theorem marked_of_eq_ite [DecidablePred p] (h : ∀ x, cellGet w' x = if p x then 1#1 else cellGet w x) :
    Marked w w' p := fun x => ⟨fun hx => by rw [h, if_pos hx], fun hx => by rw [h, if_neg hx]⟩

/-- Marks of two writes, one after the other. -/
theorem marked_trans (hp : Marked w w' p) (hq : Marked w' w'' q) : Marked w w'' fun x => p x ∨ q x := by
  refine fun x => ⟨fun hx => ?_, fun hx => ?_⟩
  · by_cases hqx : q x
    · exact (hq x).1 hqx
    · rw [(hq x).2 hqx]
      exact (hp x).1 (hx.resolve_right hqx)
  · obtain ⟨hpx, hqx⟩ := not_or.mp hx
    rw [(hq x).2 hqx, (hp x).2 hpx]

theorem marked_congr (h : Marked w w' p) (hpq : ∀ x, p x ↔ q x) : Marked w w' q := fun x => by
  rw [← hpq x]
  exact h x

end

/-! ### The descriptor (R191) -/

section
variable {s : State} {d n l c : Word}

theorem memRead_of_wordAt {a v : Word} (hcap : a.toNat + 8 ≤ s.cfg.memCap)
    (h : WordAt s.cfg.byteOrder s.mem a.toNat v) : memRead a .s8 s = .ok v s := by
  rw [memRead_of_fits hcap, ← (wordAt_iff _ _ _ _).mp h]
  rfl

/-- With its descriptor in Memory, CALL is PushFrame with the descriptor's sizes, then the jump. -/
theorem exec_call_of_descriptor (hwf : s.cfg.wf = true) (hd : d.toNat + 24 ≤ s.cfg.memCap)
    (h : DescriptorAt s d n l c) :
    exec (.call d) s = finish s ((pushFrame n l s.ip s).bind fun _ t => .ok () (jumpTo c t)) := by
  obtain ⟨hn, hl, hc⟩ := h
  have hcap := memCap_lt_of_wf hwf
  have h8 : (d + 8#64).toNat = d.toNat + 8 := toNat_add_of_lt (by omega)
  have h16 : (d + 16#64).toNat = d.toNat + 16 := toNat_add_of_lt (by omega)
  rw [exec, execCall, memRead_of_wordAt (by omega) hn, Res.bind_ok,
    memRead_of_wordAt (by omega) (by rwa [h8]), Res.bind_ok, memRead_of_wordAt (by omega) (by rwa [h16]), Res.bind_ok]

/-- CALL's reads of the descriptor raise at the first Word that does not lie in Memory. -/
theorem callDescriptorFaults : CallDescriptorFaults := by
  intro s d h
  have hcap := memCap_lt_of_wf h.cfgWf
  have h8 (hd : d.toNat + 8 ≤ s.cfg.memCap) : (d + 8#64).toNat = d.toNat + 8 := toNat_add_of_lt (by omega)
  have h16 (hd : d.toNat + 16 ≤ s.cfg.memCap) : (d + 16#64).toNat = d.toNat + 16 := toNat_add_of_lt (by omega)
  have hfits {a : Word} := memRead_of_fits (s := s) (addr := a) (n := .s8)
  have hbeyond {a : Word} := memRead_of_beyond (s := s) (addr := a) (n := .s8)
  rw [Size.bytes] at hfits hbeyond
  refine ⟨fun hd => ?_, fun hd hd' => ?_, fun hd hd' => ?_⟩ <;> rw [exec, execCall]
  · rw [hbeyond hd, Res.bind_raise]
    exact takeFault_faultsFrom ..
  · rw [hfits hd, Res.bind_ok, hbeyond (by rw [h8 hd]; omega), Res.bind_raise]
    exact takeFault_faultsFrom ..
  · rw [hfits (by omega), Res.bind_ok, hfits (by rw [h8 (by omega)]; omega), Res.bind_ok,
      hbeyond (by rw [h16 hd]; omega), Res.bind_raise]
    exact takeFault_faultsFrom ..

/-! ### PushFrame (R192) -/

variable {r : Word}

theorem frameSize_eq_frameBytes (n l : Word) : frameSize n.toNat l.toNat = frameBytes n l := rfl

theorem pushFrame_of_overflow (h : s.fp.toNat + frameBytes n l > s.cfg.csCap) :
    pushFrame n l r s = .raise .callStackOverflow (BitVec.ofNat 64 (frameBytes n l)) s := if_pos h

theorem pushFrame_of_popArgs_raise {k : Cause} {info : Word} {t : State}
    (hfit : s.fp.toNat + frameBytes n l ≤ s.cfg.csCap)
    (h : popArgs s.fp.toNat n.toNat s = .raise k info t) : pushFrame n l r s = .raise k info t := by
  rw [pushFrame, frameSize_eq_frameBytes, if_neg (by omega), h, Res.bind_raise]

/-- The three fields PushFrame writes above the arguments: arg_num, then local_size, then return_address. -/
def fieldsStored (n l r : Word) (base : Nat) (t : State) : State :=
  csStored (base + 8 * n.toNat + 16 + l.toNat) .s8 r
    (csStored (base + 8 * n.toNat + 8 + l.toNat) .s8 l (csStored (base + 8 * n.toNat) .s8 n t))

theorem pushFrame_of_popArgs_ok {t : State} (hcap : s.cfg.csCap < 2 ^ 64)
    (hfit : s.fp.toNat + frameBytes n l ≤ s.cfg.csCap) (h : popArgs s.fp.toNat n.toNat s = .ok () t)
    (hcfg : t.cfg = s.cfg) :
    pushFrame n l r s = .ok () { fieldsStored n l r s.fp.toNat t with
      fp := BitVec.ofNat 64 (s.fp.toNat + frameBytes n l) } := by
  have hsize : frameBytes n l = 8 * n.toNat + l.toNat + 24 := rfl
  rw [pushFrame, frameSize_eq_frameBytes, if_neg (by omega), h, Res.bind_ok,
    csWrite_of_fits _ (by rw [hcfg]; omega) (by rwa [hcfg]), Res.bind_ok,
    csWrite_of_fits _ (by rw [csStored_cfg, hcfg]; omega) (by rwa [csStored_cfg, hcfg]), Res.bind_ok,
    csWrite_of_fits _ (by rw [csStored_cfg, csStored_cfg, hcfg]; omega) (by rwa [csStored_cfg, csStored_cfg, hcfg]),
    Res.bind_ok, fieldsStored]

section
variable {base : Nat} {t : State}

/-- The fields are written one above the other, past the arguments, so each keeps its Word (R190). -/
theorem frameAt_fieldsStored {args : Nat → Word} (hcs : Memory.wf t.cs = true)
    (hargs : ∀ i, i < n.toNat → WordAt t.cfg.byteOrder t.cs (base + 8 * i) (args i)) :
    FrameAt t.cfg.byteOrder (fieldsStored n l r base t).cs base n l args r := by
  have hn := csStored_keeps_cs_wf (a := base + 8 * n.toNat) n hcs .s8
  have hl := csStored_keeps_cs_wf (a := base + 8 * n.toNat + 8 + l.toNat) l hn .s8
  refine ⟨fun i hi => ?_, ?_, ?_, ?_⟩ <;> rw [fieldsStored]
  · refine wordAt_csStored_apart r (wordAt_csStored_apart l (wordAt_csStored_apart n (hargs i hi) ?_) ?_) ?_ <;> omega
  · refine wordAt_csStored_apart r (wordAt_csStored_apart l (wordAt_csStored_same n hcs) ?_) ?_ <;> omega
  · exact wordAt_csStored_apart r (wordAt_csStored_same l hn) (by omega)
  · exact wordAt_csStored_same r hl

/-- Beside the frame, and among its locals, no byte is written. -/
theorem cellGet_fieldsStored_outside {a : Nat} (h : ¬InFrameFields base n l a) :
    cellGet (fieldsStored n l r base t).cs a = cellGet t.cs a := by
  simp only [InFrameFields, frameBytes, InLocals] at h
  rw [fieldsStored, cellGet_csStored_outside r (by omega), cellGet_csStored_outside l (by omega),
    cellGet_csStored_outside n (by omega)]

/-- With its arguments marked the whole frame is, but for its locals. -/
theorem marked_fieldsStored {w : Marks} (hwf : cellsWf t.csWritten = true)
    (hargs : Marked w t.csWritten fun x => base ≤ x ∧ x < base + 8 * n.toNat) :
    Marked w (fieldsStored n l r base t).csWritten (InFrameFields base n l) := by
  have hn := csStored_keeps_csWritten_wf (a := base + 8 * n.toNat) n hwf .s8
  have hl := csStored_keeps_csWritten_wf (a := base + 8 * n.toNat + 8 + l.toNat) l hn .s8
  have hmn := marked_csStored (a := base + 8 * n.toNat) n hwf
  have hml := marked_csStored (a := base + 8 * n.toNat + 8 + l.toNat) l hn
  have hmr := marked_csStored (a := base + 8 * n.toNat + 16 + l.toNat) r hl
  have hmarked := marked_trans (marked_trans (marked_trans hargs hmn) hml) hmr
  rw [fieldsStored]
  refine marked_congr hmarked fun x => ?_
  simp only [InFrameFields, frameBytes, InLocals]
  omega

end

/-! ### How CALL ends -/

section
variable (hinv : StateInv s) (hd : d.toNat + 24 ≤ s.cfg.memCap) (hdesc : DescriptorAt s d n l c)
include hinv hd hdesc

/-- A fault of PushFrame is CALL's. -/
theorem exec_call_faultsFrom_of_pushFrame {k : Cause} {info : Word} {t : State}
    (h : pushFrame n l s.ip s = .raise k info t) : FaultsFrom (exec (.call d) s) k info t := by
  rw [exec_call_of_descriptor hinv.cfgWf hd hdesc, h, Res.bind_raise, finish_raise]
  exact takeFault_faultsFrom ..

theorem exec_call_of_popArgs_ok {t : State} (hfit : s.fp.toNat + frameBytes n l ≤ s.cfg.csCap)
    (h : popArgs s.fp.toNat n.toNat s = .ok () t) (hcfg : t.cfg = s.cfg) :
    exec (.call d) s = .next { fieldsStored n l s.ip s.fp.toNat t with
      ip := c, fp := BitVec.ofNat 64 (s.fp.toNat + frameBytes n l) } := by
  rw [exec_call_of_descriptor hinv.cfgWf hd hdesc,
    pushFrame_of_popArgs_ok (csCap_lt_of_wf hinv.cfgWf) hfit h hcfg, Res.bind_ok, finish_ok, jumpTo]

end

end

/-- The argument loop leaves the arguments in their slots, and the fields are written past them. -/
theorem callCompletes : CallCompletes := by
  intro s d n l c hinv hd hdesc hfit hargs
  have hsize : frameBytes n l = 8 * n.toNat + l.toNat + 24 := rfl
  have hn : BitVec.ofNat 64 n.toNat = n := by rw [BitVec.ofNat_toNat, BitVec.setWidth_eq]
  obtain ⟨cs', w', hok, hcs, hmarks, hslots, houtside, hmarked⟩ :=
    popArgs_of_enough s.fp.toNat n.toNat s hargs (by omega) (csCap_lt_of_wf hinv.cfgWf) hinv.csWf hinv.writtenWf
  rw [hn] at hok
  have hexec := exec_call_of_popArgs_ok hinv hd hdesc hfit hok rfl
  refine ⟨_, _, hexec, ?_, fun a ha => ?_, ?_⟩
  · exact frameAt_fieldsStored hcs fun i hi j hj => hslots i j hi hj
  · rw [cellGet_fieldsStored_outside ha]
    refine houtside a ?_
    simp only [InFrameFields, InLocals] at ha
    omega
  · exact marked_fieldsStored hmarks (marked_of_eq_ite hmarked)

theorem callFrameFaults : CallFrameFaults := fun _ _ _ _ _ hinv hd hdesc hover =>
  exec_call_faultsFrom_of_pushFrame hinv hd hdesc (pushFrame_of_overflow hover)

/-- The argument loop raises with the Words there are popped into the upper slots. -/
theorem callArgumentFaults : CallArgumentFaults := by
  intro s d n l c hinv hd hdesc hfit hargs
  have hsize : frameBytes n l = 8 * n.toNat + l.toNat + 24 := rfl
  obtain ⟨cs', w', hraise, hslots, houtside, hmarked⟩ :=
    popArgs_of_short s.fp.toNat n.toNat s hargs (by omega) (csCap_lt_of_wf hinv.cfgWf) hinv.csWf hinv.writtenWf
  exact ⟨cs', w', exec_call_faultsFrom_of_pushFrame hinv hd hdesc (pushFrame_of_popArgs_raise hfit hraise),
    fun i hi j hj => hslots i j hi hj, houtside, marked_of_eq_ite hmarked⟩

/-- Settles O43: the descriptor's reads, then PushFrame's check, its argument loop (popArgs_of_enough, popArgs_of_short)
and its fields. -/
theorem callRule : Obligations.CallRule :=
  ⟨fun _ => encodedWith_of_imm (n := .s8) rfl rfl rfl, callCompletes, callDescriptorFaults, callFrameFaults,
    callArgumentFaults⟩

end Sys2Proof.Machine
end

section
/-! RETURN (49_call_return.md R195 to R197): PopFrame's reads below fp, one check after the other, and what CALL leaves
for it (R199). -/

namespace Sys2Proof.Machine

open Sys2Proof.Claims

variable {s : State}

/-! ### PopFrame (R196) -/

theorem exec_ret_faultsFrom_of_popFrame {k : Cause} {info : Word} {t : State} (h : popFrame s = .raise k info t) :
    FaultsFrom (exec .ret s) k info t := by
  rw [exec, execRet, h, Res.bind_raise, finish_raise]
  exact takeFault_faultsFrom ..

theorem popFrame_of_lt_eight (h : s.fp.toNat < 8) : popFrame s = .raise .callStackUnderflow s.fp s := if_pos h

section
variable (hcap : s.fp.toNat ≤ s.cfg.csCap)
include hcap

/-- A Word of the Call Stack whose bytes lie below fp is read. -/
theorem csRead_of_wordAt_below {a : Word} {k : Nat} {v : Word} (ha : a.toNat = k) (hk : k + 8 ≤ s.fp.toNat)
    (hread : Readable s k 8) (hv : WordAt s.cfg.byteOrder s.cs k v) : csRead a .s8 s = .ok v s := by
  subst ha
  exact csRead_of_wordAt (hk.trans hcap) hread hv

theorem popFrame_of_lt_sixteen (h8 : 8 ≤ s.fp.toNat) (h16 : s.fp.toNat < 16) (hread : Readable s (s.fp.toNat - 8) 8) :
    popFrame s = .raise .callStackUnderflow s.fp s := by
  have hr := (wordAt_iff s.cfg.byteOrder s.cs (s.fp.toNat - 8) _).mpr rfl
  have e8 : (s.fp - 8#64).toNat = s.fp.toNat - 8 := toNat_sub_of_le h8
  rw [popFrame, if_neg (by omega), csRead_of_wordAt_below hcap e8 (by omega) hread hr, Res.bind_ok, if_pos h16]

section
variable {r l : Word} (h16 : 16 ≤ s.fp.toNat) (hr : WordAt s.cfg.byteOrder s.cs (s.fp.toNat - 8) r)
  (hl : WordAt s.cfg.byteOrder s.cs (s.fp.toNat - 16) l) (hread : Readable s (s.fp.toNat - 16) 16)
include h16 hr hl hread

/-- With return_address and local_size there, what is left is arg_num. -/
theorem popFrame_of_trailer :
    popFrame s =
      if s.fp.toNat - 16 < l.toNat + 8 then .raise .callStackUnderflow s.fp s
      else (csRead (s.fp - 24#64 - l) .s8 s).bind fun n s =>
        if s.fp.toNat - 24 - l.toNat < 8 * n.toNat then .raise .callStackUnderflow s.fp s
        else .ok r { s with fp := s.fp - 24#64 - l - 8#64 * n } := by
  have e8 : (s.fp - 8#64).toNat = s.fp.toNat - 8 := toNat_sub_of_le (le_trans (by decide) h16)
  have e16 : (s.fp - 16#64).toNat = s.fp.toNat - 16 := toNat_sub_of_le h16
  rw [popFrame, if_neg (by omega),
    csRead_of_wordAt_below hcap e8 (by omega) (readable_of_within hread (by omega) (by omega)) hr, Res.bind_ok,
    if_neg (by omega),
    csRead_of_wordAt_below hcap e16 (by omega) (readable_of_within hread le_rfl (by omega)) hl, Res.bind_ok]

theorem popFrame_of_short_locals (h : s.fp.toNat < 24 + l.toNat) :
    popFrame s = .raise .callStackUnderflow s.fp s := by
  rw [popFrame_of_trailer hcap h16 hr hl hread, if_pos (by omega)]

section
variable {n : Word} (h24 : 24 + l.toNat ≤ s.fp.toNat)
  (hn : WordAt s.cfg.byteOrder s.cs (s.fp.toNat - 24 - l.toNat) n) (hnread : Readable s (s.fp.toNat - 24 - l.toNat) 8)
include h24 hn hnread

/-- With arg_num there as well, what is left is the check for the arguments. -/
theorem popFrame_of_arg_num :
    popFrame s =
      if s.fp.toNat - 24 - l.toNat < 8 * n.toNat then .raise .callStackUnderflow s.fp s
      else .ok r { s with fp := s.fp - 24#64 - l - 8#64 * n } := by
  have e24 : (s.fp - 24#64 - l).toNat = s.fp.toNat - 24 - l.toNat := by bv_omega
  rw [popFrame_of_trailer hcap h16 hr hl hread, if_neg (by omega),
    csRead_of_wordAt_below hcap e24 (by omega) hnread hn, Res.bind_ok]

theorem popFrame_of_short_args (h : s.fp.toNat < 24 + l.toNat + 8 * n.toNat) :
    popFrame s = .raise .callStackUnderflow s.fp s := by
  rw [popFrame_of_arg_num hcap h16 hr hl hread h24 hn hnread, if_pos (by omega)]

/-- A frame that is all there: ip and fp are restored, and nothing else changes (R197). -/
theorem exec_ret_of_frame (h : 24 + l.toNat + 8 * n.toNat ≤ s.fp.toNat) :
    exec .ret s =
      .next { s with ip := r, fp := BitVec.ofNat 64 (s.fp.toNat - 24 - l.toNat - 8 * n.toNat) } := by
  have hfp : s.fp - 24#64 - l - 8#64 * n = BitVec.ofNat 64 (s.fp.toNat - 24 - l.toNat - 8 * n.toNat) := by bv_omega
  rw [exec, execRet, popFrame_of_arg_num hcap h16 hr hl hread h24 hn hnread, if_neg (by omega), hfp, Res.bind_ok,
    finish_ok, jumpTo]

end

end

end

/-- Settles O44: PopFrame's four checks in order, each before the read it is for. -/
theorem returnRule : Obligations.ReturnRule := by
  refine ⟨encodedAsOne_of_no_imm rfl rfl, fun s hinv => ⟨fun h => ?_, fun r l h16 hr hl hread => ⟨fun h => ?_,
    fun n h24 hn hnread => ⟨fun h => ?_, ?_⟩⟩⟩⟩
  · refine exec_ret_faultsFrom_of_popFrame ?_
    by_cases h8 : s.fp.toNat < 8
    · exact popFrame_of_lt_eight h8
    · obtain ⟨h16, hread⟩ := h.resolve_left h8
      exact popFrame_of_lt_sixteen hinv.fpLe (by omega) h16 hread
  · exact exec_ret_faultsFrom_of_popFrame (popFrame_of_short_locals hinv.fpLe h16 hr hl hread h)
  · exact exec_ret_faultsFrom_of_popFrame (popFrame_of_short_args hinv.fpLe h16 hr hl hread h24 hn hnread h)
  · exact exec_ret_of_frame hinv.fpLe h16 hr hl hread h24 hn hnread

/-! ### CALL, then RETURN (R199) -/

/-- A Word is where it was when its 8 bytes are as they were. -/
theorem wordAt_of_agree {o : ByteOrder} {c c' : Memory} {a : Nat} {v : Word} (h : WordAt o c a v)
    (hc : ∀ x, a ≤ x → x < a + 8 → cellGet c' x = cellGet c x) : WordAt o c' a v := by
  intro i hi
  rw [hc (a + i) (by omega) (by omega), h i hi]

/-- RETURN above a frame at base whose three fields are as given and readable: it goes back to base. -/
theorem exec_ret_of_frameAt {base : Nat} {n l r : Word} (hinv : StateInv s) (hfp : s.fp.toNat = base + frameBytes n l)
    (hn : WordAt s.cfg.byteOrder s.cs (base + 8 * n.toNat) n)
    (hl : WordAt s.cfg.byteOrder s.cs (base + 8 * n.toNat + 8 + l.toNat) l)
    (hr : WordAt s.cfg.byteOrder s.cs (base + 8 * n.toNat + 16 + l.toNat) r)
    (hread : ∀ a, InFrameFields base n l a → cellGet s.csWritten a = 1#1) :
    exec .ret s = .next { s with ip := r, fp := BitVec.ofNat 64 base } := by
  simp only [InFrameFields, InLocals] at hread
  rw [frameBytes] at hfp hread
  have e8 : s.fp.toNat - 8 = base + 8 * n.toNat + 16 + l.toNat := by omega
  have e16 : s.fp.toNat - 16 = base + 8 * n.toNat + 8 + l.toNat := by omega
  have e24 : s.fp.toNat - 24 - l.toNat = base + 8 * n.toNat := by omega
  have ebase : s.fp.toNat - 24 - l.toNat - 8 * n.toNat = base := by omega
  rw [← e8] at hr
  rw [← e16] at hl
  rw [← e24] at hn
  rw [exec_ret_of_frame hinv.fpLe (by omega) hr hl (.inr fun i hi => hread _ (by omega)) (by omega) hn
    (.inr fun i hi => hread _ (by omega)) (by omega), ebase]

/-- Settles O45: the frame CALL leaves (callCompletes) is one RETURN goes back from (exec_ret_of_frameAt), with
the bytes of its fields unchanged and its marks kept. -/
theorem callThenReturn : Obligations.CallThenReturn := by
  intro s d n l c hinv hd hdesc hfit hargs
  obtain ⟨cs', w', hexec, ⟨-, hn, hl, hr⟩, -, hmarked⟩ := callCompletes s d n l c hinv hd hdesc hfit hargs
  have hcap := csCap_lt_of_wf hinv.cfgWf
  have hfp : (BitVec.ofNat 64 (s.fp.toNat + frameBytes n l)).toNat = s.fp.toNat + frameBytes n l := by
    rw [BitVec.toNat_ofNat, Nat.mod_eq_of_lt (by omega)]
  refine ⟨_, hexec, rfl, rfl, toNat_sub_of_le hargs, fun u hu hcfg hufp hmarks hbytes => ?_⟩
  dsimp only at hufp hmarks hbytes
  rw [hfp, frameBytes] at hbytes
  rw [← hcfg] at hn hl hr
  have hret := exec_ret_of_frameAt (base := s.fp.toNat) (n := n) (l := l) (r := s.ip) hu (by rw [hufp, hfp])
    (wordAt_of_agree hn fun x hx hx' => hbytes x (by omega))
    (wordAt_of_agree hl fun x hx hx' => hbytes x (by omega))
    (wordAt_of_agree hr fun x hx hx' => hbytes x (by omega))
    fun a ha => hmarks a ((hmarked a).1 ha)
  rw [hret, BitVec.ofNat_toNat, BitVec.setWidth_eq]

end Sys2Proof.Machine
end

section
/-! The host's port and the engine's stops (60_exceptions.md R214 to R245; 70_reset_and_hazards.md R241 to R248). -/

namespace Sys2Proof.Machine

open Sys2Proof.Claims

/-! ### Runs -/

theorem run_succ_of_next {M : Host.Core} {s t : M.State} (h : M.step s = .next t) (k : Nat) :
    M.run (k + 1) s = M.run k t := by
  rw [Host.Core.run, h]

section
variable {s : State}

/-- Without a command a stopped engine stays as it is (R226). -/
theorem step_of_idle (hr : s.runState ≠ .running) (hq : s.hostCmds = []) : step s = .next s := by
  rw [step, if_neg hr, stoppedStep, hq]

/-- However long it is left so. -/
theorem run_of_idle (hr : s.runState ≠ .running) (hq : s.hostCmds = []) (k : Nat) :
    Host.Core.run Sys2Proof.core k s = .next s := by
  induction k with
  | zero => rfl
  | succ k ih => exact (run_succ_of_next (M := Sys2Proof.core) (step_of_idle hr hq) k).trans ih

/-! ### LOAD (R243) -/

theorem hostLoad_of_long {p : List Byte} (h : p.length > s.cfg.memCap) :
    hostLoad p s = { s with replies := s.replies ++ [.loadRefused] } := if_pos h

theorem hostLoad_of_fits {p : List Byte} (h : p.length ≤ s.cfg.memCap) :
    hostLoad p s = { s with
      replies := s.replies ++ [.loaded], mem := cellsWrite s.mem 0 p, ip := 0#64, sp := 0#64, fp := 0#64
      runState := .uninitialized, cause := .none, info := 0#64, faultIp := 0#64, msg := [] } := if_neg (by omega)

/-- A program copied to address 0 lies below its length. -/
theorem cellGet_cellsWrite_zero {c : Memory} (h : Memory.wf c = true) (p : List Byte) (a : Nat) :
    cellGet (cellsWrite c 0 p) a = if h : a < p.length then p[a] else cellGet c a := by
  rw [cellGet_cellsWrite h]
  simp only [Nat.zero_le, true_and, Nat.zero_add, Nat.sub_zero]

end

/-- Settles O46: takeFault is the fault entry, and it leaves the engine stopped (run_of_idle). -/
theorem faultEntryStopsTheEngine : Obligations.FaultEntryStopsTheEngine := fun c info s =>
  ⟨takeFault_faultsFrom c info s, fun hq => run_of_idle (s := takeFault c info s) (by simp) hq⟩

/-- Settles O13: the two ports answer and do nothing else, and TEARDOWN answers no state. -/
theorem readPortsAndTeardown : Obligations.ReadPortsAndTeardown := fun _ _ hr =>
  ⟨step_of_command hr, step_of_command hr, step_of_command hr⟩

/-- Settles O10: a refused LOAD answers only; one carried out writes the program's bytes from address 0 on. -/
theorem loadCommand : Obligations.LoadCommand := by
  refine fun s p rest hr hq => ⟨fun hlong => ?_, fun hfits hmem => ⟨cellsWrite s.mem 0 p, ?_,
    cellGet_cellsWrite_zero hmem p⟩⟩ <;> rw [step_of_command hr hq, hostExec]
  · rw [hostLoad_of_long (s := { s with hostCmds := rest }) hlong]
  · rw [hostLoad_of_fits (s := { s with hostCmds := rest }) hfits]

/-- Settles O7: each value is State.construct's. -/
theorem constructionState : Obligations.ConstructionState := fun _ _ _ =>
  ⟨_, rfl, rfl, rfl, rfl, rfl, rfl, rfl, rfl, rfl, rfl, rfl, rfl, rfl, rfl, rfl⟩

/-- Settles O11: the cleared Memory lists no cell, and an unlisted cell holds 0. -/
theorem clearCommand : Obligations.ClearCommand := fun _ _ hr hq =>
  ⟨[], step_of_command hr hq, fun _ => rfl, rfl⟩

/-- Settles O12: RUN is a write of STATE, and with no command nothing is done (step_of_idle). -/
theorem runCommandAndIdle : Obligations.RunCommandAndIdle := fun _ hr =>
  ⟨fun _ => step_of_command hr, step_of_idle hr⟩

/-! ### A run of cleared Memory (R246) -/

/-- The byte 0 is DONE in R84's table. -/
theorem decode_zero {p : Params} (h : p.decodeTable = decodeTable) : decode p [0#8] = .ok .done [] :=
  (doneAndAbort.1 p h).2

/-- A running engine with a zero byte at ip halts in HALT_SUCCESS behind it. -/
theorem step_of_zero_byte {s : State} (hr : s.runState = .running) (hip : s.ip.toNat < s.cfg.memCap)
    (ht : s.cfg.decodeTable = decodeTable) (h : cellGet s.mem s.ip.toNat = 0#8) :
    step s = .next { s with faultAddr := s.ip, ip := s.ip + 1#64, runState := .haltSuccess } := by
  rw [step_of_decode_singleton hr hip (h ▸ decode_zero ht), exec_done, haltWith]

theorem memCap_pos_of_wf {p : Params} (h : p.wf = true) : 1 ≤ p.memCap := by
  simp only [Params.wf, Bool.and_eq_true, decide_eq_true_eq] at h
  exact h.1.1.1.1.1

/-- CLEAR and RUN on a stopped engine: its next fetch is of a zero byte, wherever in Memory ip stands. -/
theorem run_of_clear_run {s : State} (hr : s.runState ≠ .running) (hq : s.hostCmds = [.clear, .run])
    (hip : s.ip.toNat < s.cfg.memCap) (ht : s.cfg.decodeTable = decodeTable) :
    Host.Core.run Sys2Proof.core 3 s = .next { s with
      hostCmds := [], mem := [], faultAddr := s.ip, ip := s.ip + 1#64, runState := .haltSuccess } := by
  have hclear : step s = .next { s with hostCmds := [.run], mem := [] } := step_of_command hr hq
  have hrun : step { s with hostCmds := [.run], mem := [] } =
      .next { s with hostCmds := [], mem := [], runState := .running } :=
    step_of_command (s := { s with hostCmds := [.run], mem := [] }) hr rfl
  have hdone := step_of_zero_byte (s := { s with hostCmds := [], mem := [], runState := .running }) rfl hip ht rfl
  calc Host.Core.run Sys2Proof.core 3 s
    _ = Host.Core.run Sys2Proof.core 2 _ := run_succ_of_next hclear 2
    _ = Host.Core.run Sys2Proof.core 1 _ := run_succ_of_next hrun 1
    _ = Host.Core.run Sys2Proof.core 0 _ := run_succ_of_next hdone 0
    _ = _ := rfl

/-- Settles O14: construction leaves ip at 0, which lies in Memory since MEM_CAP is at least 1. -/
theorem runAfterClearHaltsAtOnce : Obligations.RunAfterClearHaltsAtOnce := fun _ _ _ hwf ht =>
  ⟨_, run_of_clear_run nofun rfl (memCap_pos_of_wf hwf) ht, rfl, rfl, rfl, fun _ => rfl⟩

end Sys2Proof.Machine
end
